-- ==== Sys2Proof/Word.lean ====
section
/-!
DEFINITION. The word types of the block: a register is XLEN = 32 bits wide (00_scope.md R7, R8), a
symbol and a buffer cell are one byte (SYM_BITS = 8). Stream bits are `Bool`, `true` for 1.
-/

namespace Sys2Proof

/-- A host-visible register value, 32 bits, unsigned (00_scope.md R7, R8). -/
abbrev Word := BitVec 32

/-- A byte of a buffer, which is also a symbol (00_scope.md R7 SYM_BITS, R15). -/
abbrev Byte := BitVec 8

end Sys2Proof
end

