-- ==== Sys2Proof/Syntax.lean ====
section
/-!
DEFINITION. The commands of the archivers command set, one constructor per row of
spec/opcode_table.json (30_encoding.md R102). No command carries an immediate (R104): the one bit a
command word adds to its opcode is `F`, for RS_LOAD, LZW_ENC and LZW_DEC (R103).
-/

namespace Sys2Proof

/-- A command (30_encoding.md R102). -/
inductive Instr where
  | nop
  | wsClear
  | wsBit
  | wsBits
  | wsInt
  /-- `f`: `false` loads RBUF from the write stream, `true` rewinds (`RS_LOAD.R`). -/
  | rsLoad (f : Bool)
  | rsBit
  | rsBits
  | rsInt
  | monoEnc
  | monoDec
  | hufEnc
  | hufDec
  | lzssEnc
  | lzssDec
  /-- `esc`: `true` selects escape-code mode (`LZW_ENC.E`). -/
  | lzwEnc (esc : Bool)
  /-- `esc`: `true` selects escape-code mode (`LZW_DEC.E`). -/
  | lzwDec (esc : Bool)
  | bwtEnc
  | bwtDec
  | bwtXform
deriving DecidableEq, Repr

end Sys2Proof
end

