-- ==== Sys2Proof/WellFormed.lean ====
section
/-!
DEFINITION. The CMD32 format (30_encoding.md R101) as three fields, and the three checks of R105: a
command word is legal exactly when it passes them all. `Instr.fields` gives the fields the opcode map
(R102) gives a command.
-/

namespace Sys2Proof

/-- A command word taken apart (30_encoding.md R101): `OPC` [7:0], `F` [8], `RSV` [31:9]. -/
structure CommandWord where
  opc : Byte
  f : Bool
  rsv : BitVec 23
deriving DecidableEq, Repr

/-- The opcodes of the map of 30_encoding.md R102. -/
def listedOpcodes : List Byte :=
  [0x00, 0x01, 0x02, 0x03, 0x04, 0x08, 0x09, 0x0A, 0x0B, 0x10, 0x11, 0x20, 0x21, 0x30, 0x31, 0x40,
   0x41, 0x50, 0x51, 0x52]

/-- The opcodes whose `F` may be 1: RS_LOAD, LZW_ENC, LZW_DEC (30_encoding.md R103). -/
def flagOpcodes : List Byte := [0x08, 0x40, 0x41]

/-- R105, first check: `RSV = 0`. -/
def CommandWord.rsvOk (c : CommandWord) : Bool := c.rsv == 0

/-- R105, second check: `OPC` is in the table of R102. -/
def CommandWord.opcOk (c : CommandWord) : Bool := listedOpcodes.contains c.opc

/-- R105, third check: `F = 1` only where R103 allows it. -/
def CommandWord.flagOk (c : CommandWord) : Bool := !c.f || flagOpcodes.contains c.opc

/-- A legal command word (30_encoding.md R105). -/
def CommandWord.wellFormed (c : CommandWord) : Bool := c.rsvOk && c.opcOk && c.flagOk

/-- The reasons a word is not a command (30_encoding.md R105). All three raise ILLEGAL_COMMAND. -/
inductive DecodeError where
  /-- `RSV ≠ 0`. -/
  | reservedBits
  /-- `OPC` is not in the table of R102. -/
  | unknownOpcode
  /-- `F = 1` and the opcode does not take it. -/
  | flagNotAllowed
deriving DecidableEq, Repr

/-- The opcode of a command (30_encoding.md R102). -/
def Instr.opc : Instr → Byte
  | .nop => 0x00
  | .wsClear => 0x01
  | .wsBit => 0x02
  | .wsBits => 0x03
  | .wsInt => 0x04
  | .rsLoad _ => 0x08
  | .rsBit => 0x09
  | .rsBits => 0x0A
  | .rsInt => 0x0B
  | .monoEnc => 0x10
  | .monoDec => 0x11
  | .hufEnc => 0x20
  | .hufDec => 0x21
  | .lzssEnc => 0x30
  | .lzssDec => 0x31
  | .lzwEnc _ => 0x40
  | .lzwDec _ => 0x41
  | .bwtEnc => 0x50
  | .bwtDec => 0x51
  | .bwtXform => 0x52

/-- The flag `F` of a command (30_encoding.md R103). -/
def Instr.flag : Instr → Bool
  | .rsLoad f | .lzwEnc f | .lzwDec f => f
  | .nop | .wsClear | .wsBit | .wsBits | .wsInt | .rsBit | .rsBits | .rsInt | .monoEnc | .monoDec
  | .hufEnc | .hufDec | .lzssEnc | .lzssDec | .bwtEnc | .bwtDec | .bwtXform => false

/-- The three fields of a command's word. -/
def Instr.fields (i : Instr) : CommandWord := { opc := i.opc, f := i.flag, rsv := 0 }

/-- A command is well-formed when its word is legal. -/
def Instr.wellFormed (i : Instr) : Bool := i.fields.wellFormed

end Sys2Proof
end

