-- ==== Sys2Proof/Decode.lean ====
section
/-!
DEFINITION. Decoding a command word, total on every 32-bit word and rejecting by name
(30_encoding.md R100 to R105, R107), and after it the encoder, from the same map.
-/

namespace Sys2Proof

/-- The fields of a word (30_encoding.md R101). -/
def CommandWord.ofWord (w : Word) : CommandWord :=
  { opc := w.extractLsb' 0 8, f := w.getLsbD 8, rsv := w.extractLsb' 9 23 }

/-- A command that takes no flag: `F` must be 0 (30_encoding.md R103, R105). -/
def takesNoFlag (f : Bool) (i : Instr) : Except DecodeError Instr :=
  if f then .error .flagNotAllowed else .ok i

/-- The opcode map (30_encoding.md R102): every value not listed is reserved. -/
def decodeFields (opc : Byte) (f : Bool) : Except DecodeError Instr :=
  match opc.toNat with
  | 0x00 => takesNoFlag f .nop
  | 0x01 => takesNoFlag f .wsClear
  | 0x02 => takesNoFlag f .wsBit
  | 0x03 => takesNoFlag f .wsBits
  | 0x04 => takesNoFlag f .wsInt
  | 0x08 => .ok (.rsLoad f)
  | 0x09 => takesNoFlag f .rsBit
  | 0x0A => takesNoFlag f .rsBits
  | 0x0B => takesNoFlag f .rsInt
  | 0x10 => takesNoFlag f .monoEnc
  | 0x11 => takesNoFlag f .monoDec
  | 0x20 => takesNoFlag f .hufEnc
  | 0x21 => takesNoFlag f .hufDec
  | 0x30 => takesNoFlag f .lzssEnc
  | 0x31 => takesNoFlag f .lzssDec
  | 0x40 => .ok (.lzwEnc f)
  | 0x41 => .ok (.lzwDec f)
  | 0x50 => takesNoFlag f .bwtEnc
  | 0x51 => takesNoFlag f .bwtDec
  | 0x52 => takesNoFlag f .bwtXform
  | _ => .error .unknownOpcode

/-- Decoding (30_encoding.md R100, R105): the whole word is checked, and each reason has a name. -/
def decode (w : Word) : Except DecodeError Instr :=
  let c := CommandWord.ofWord w
  if c.rsvOk then decodeFields c.opc c.f else .error .reservedBits

/-- The word with the given fields (30_encoding.md R101). -/
def CommandWord.toWord (c : CommandWord) : Word :=
  (c.rsv ++ BitVec.ofBool c.f ++ c.opc : BitVec (23 + 1 + 8))

/-- The word of a command: `OPC | (F << 8)` (30_encoding.md R109). -/
def encode (i : Instr) : Word := i.fields.toWord

/-- The command the decoder reads from the table's bits: one 32-bit word, bit 0 least significant. -/
def decodeTableWord (_nbits w : Nat) : Option Instr :=
  match decode (BitVec.ofNat 32 w) with
  | .ok i => some i
  | .error _ => none

end Sys2Proof
end

