-- ==== Sys2Proof/Config.lean ====
section
/-!
DEFINITION. What an implementation of the block fixes (00_scope.md R7, 92_eei_decisions.md "Open
parameters"), and the model's free values. The parameters are plain data that State carries and no
step changes, so every statement over all states is a statement over all parameters. The free
values are constants with no body: nothing can be proved of what they are.
-/

namespace Sys2Proof

/-- LZSS_PICK, as plain data (00_scope.md R7, 43_lzss.md R205; log 2). -/
inductive PickRule where
  /-- The spec's default, MIN_POSITION: the least surviving position. -/
  | minPosition
  /-- Any other compliant choice: the `k`-th open choice function `Config.openPick k`. -/
  | other (k : Nat)
deriving DecidableEq, Repr

/-- The implementation parameters of 00_scope.md R7. Their legal ranges are `Params.legal`. -/
structure Params where
  /-- IBUF_CAP, bytes. -/
  ibufCap : Nat
  /-- OBUF_CAP, bytes. -/
  obufCap : Nat
  /-- RBUF_CAP, bytes. -/
  rbufCap : Nat
  /-- WS_CAP, bits. -/
  wsCap : Nat
  /-- LZSS_PICK. -/
  pick : PickRule
  /-- BLOCK_BASE (20_memory.md R73): where the platform places the spaces. No rule reads it (log 13). -/
  blockBase : Nat
deriving DecidableEq, Repr

/-- The ranges 00_scope.md R7 gives the capacities. -/
abbrev Params.legal (p : Params) : Prop :=
  (1 ≤ p.ibufCap ∧ p.ibufCap ≤ 2 ^ 24) ∧ (1 ≤ p.obufCap ∧ p.obufCap ≤ 2 ^ 24) ∧
  (1 ≤ p.rbufCap ∧ p.rbufCap ≤ 2 ^ 24) ∧ (8 ≤ p.wsCap ∧ p.wsCap ≤ 2 ^ 32 - 1)

/-- The parameters `State.reset` carries. DESIGN CHOICE (log 1): the spec leaves the capacities OPEN;
LZSS_PICK is the spec's own default. -/
def Config.defaultParams : Params :=
  { ibufCap := 65536, obufCap := 65536, rbufCap := 65536, wsCap := 524288,
    pick := .minPosition, blockBase := 0 }

/-- FREE VALUE: the position the `k`-th open LZSS_PICK takes from a candidate list (log 2). -/
opaque Config.openPick : Nat → List Nat → Nat

/-- FREE VALUE: what a buffer byte that nothing has written since the last reset reads as; the
arguments are the number of resets so far, the space and the address (10_state.md R47; log 3). -/
opaque Config.unwrittenByte : Nat → Nat → Nat → Byte

/-- FREE VALUE: what an OBUF byte holds after a failed command that may have written it; the
arguments are the number of such failures before it, the address and the byte held before
(60_exceptions.md R305; log 4). -/
opaque Config.failedByte : Nat → Nat → Byte → Byte

end Sys2Proof
end

