-- ==== Sys2Proof/Machine/State.lean ====
section
/-!
DEFINITION. The state of the block as plain data: the tuple (REGS, WS, RBUF, IBUF, OBUF, BUSY,
PENDING) of 10_state.md R30, the implementation parameters, and the host's side of the interface
(30_encoding.md R110, 70_reset_and_hazards.md R356). BUSY is held once, with PENDING, and WSIZE with
WS (log 6). There is no program counter (10_state.md R33).
-/

namespace Sys2Proof.Machine

/-- The values `STATUS.ERR` takes (60_exceptions.md R300), in the order of their codes 0 to 7. Codes
8 to 15 are never written, so the type has no value for them. -/
inductive ErrCode where
  | noError
  | streamExhausted
  | invalidBitValue
  | unknownSymbol
  | malformedHeader
  | domainError
  | capacityExceeded
  | illegalCommand
deriving DecidableEq, Repr

/-- The byte spaces (20_memory.md R73). The register space is `Fin 64`, word by word (R73, R76). -/
inductive Space where
  | ibuf
  | obuf
  | rbuf
  | wsb
deriving DecidableEq, Repr

/-- The moves that are not the engine's own (70_reset_and_hazards.md R356). A register is named by
its word number in the space REG, so a misaligned access or one of another width cannot be written
down (R351; log 20). A write of word 0 is the write of `CMD`. -/
inductive Move where
  /-- `WR`: write a 32-bit register (30_encoding.md R108). -/
  | writeReg (k : Fin 64) (v : Word)
  /-- `RD`: read a 32-bit register. -/
  | readReg (k : Fin 64)
  /-- `WRB`, one byte of it. -/
  | writeByte (sp : Space) (a : Nat) (b : Byte)
  /-- `RDB`, one byte of it. -/
  | readByte (sp : Space) (a : Nat)
  /-- `WAIT` (30_encoding.md R109): the host reads STATUS until BUSY = 0. -/
  | wait
  /-- The platform asserts reset (70_reset_and_hazards.md R340). -/
  | reset
deriving DecidableEq, Repr

/-- What a read gives the host back (70_reset_and_hazards.md R356). -/
inductive Reply where
  | word (w : Word)
  | byte (b : Byte)
deriving DecidableEq, Repr

/-- The contents of a byte buffer: the bytes written so far, by rising address. An address that is
not listed holds no value (10_state.md R47), so the form has no entry to leave out. -/
abbrev Memory := List Host.Cell

/-- The machine state. -/
structure State where
  /-- `CMD`: the last command word the host wrote (10_state.md R36). -/
  cmd : Word
  /-- `ARG0` (10_state.md R32). -/
  arg0 : Word
  /-- `ARG1` (10_state.md R32). -/
  arg1 : Word
  /-- `ARG2` (10_state.md R32). -/
  arg2 : Word
  /-- `RESULT0` (10_state.md R34). -/
  result0 : Word
  /-- `RESULT1` (10_state.md R34). -/
  result1 : Word
  /-- `STATUS.STICKY` (10_state.md R35). -/
  sticky : Bool
  /-- `STATUS.ERR` (10_state.md R35, 60_exceptions.md R300). -/
  err : ErrCode
  /-- `ILEN` (10_state.md R37). -/
  ilen : Word
  /-- `OLEN` (10_state.md R38). -/
  olen : Word
  /-- `RLEN` (10_state.md R40). -/
  rlen : Word
  /-- `RPOS` (10_state.md R41). -/
  rpos : Word
  /-- `ALPHA0` to `ALPHA7` (10_state.md R42). -/
  alpha : Vector Word 8
  /-- The write stream `WS`, oldest bit first (10_state.md R45). `WSIZE` is its length (R39). -/
  ws : List Bool
  /-- `RBUF` (10_state.md R46). -/
  rbuf : Memory
  /-- `IBUF` (10_state.md R47). -/
  ibuf : Memory
  /-- `OBUF` (10_state.md R47). -/
  obuf : Memory
  /-- `PENDING` (10_state.md R30, R36). `BUSY` is 1 exactly while this is not `none` (log 6). -/
  pending : Option Word
  /-- The implementation parameters (00_scope.md R7). No step changes them. -/
  params : Params
  /-- The moves still to come, the next one first (30_encoding.md R110; log 5). -/
  moves : List Move
  /-- What the host has read, oldest first (70_reset_and_hazards.md R356; log 5). -/
  replies : List Reply
  /-- The MODEL's own: resets so far; keys the unspecified buffer contents (log 3). -/
  resets : Nat
  /-- The MODEL's own: failures that left OBUF unspecified so far; keys those bytes (log 4). -/
  fails : Nat
deriving DecidableEq, Repr

/-- The spec gives no event that stops the machine: every error is taken as a step
(60_exceptions.md R305, R311). So no step faults, and the type has no value. -/
inductive Fault where
deriving DecidableEq, Repr

/-- The reasons a step is refused. -/
inductive Refusal where
  /-- Raised only by an arm of `exec` whose command has no meaning yet. Safe: the model stops. -/
  | notModelled (mnemonic : String)
  /-- Raised by `step` when the host's next move, while BUSY = 1, is anything but a read of STATUS, a
  WAIT or a reset. The spec gives such a host no move (70_reset_and_hazards.md R350,
  93_implementation_defined.md "refuse"). Safe: the model stops where a real host might go on. -/
  | hostAccessWhileBusy
deriving DecidableEq, Repr

/-- The state after power-on reset of a block with the parameters `p` (10_state.md R31,
70_reset_and_hazards.md R341): every register 0, `WS` empty, no command pending, no buffer byte
holding a value. -/
def State.powerOn (p : Params) : State :=
  { cmd := 0, arg0 := 0, arg1 := 0, arg2 := 0, result0 := 0, result1 := 0, sticky := false,
    err := .noError, ilen := 0, olen := 0, rlen := 0, rpos := 0, alpha := Vector.replicate 8 0,
    ws := [], rbuf := [], ibuf := [], obuf := [], pending := none, params := p, moves := [],
    replies := [], resets := 0, fails := 0 }

/-- The machine right after reset, with the parameters `Config.defaultParams` (log 1) and a host that
has no move to make (log 5). -/
def State.reset : State := State.powerOn Config.defaultParams

end Sys2Proof.Machine
end

