-- ==== Sys2Proof/Machine/Flags.lean ====
section
/-!
DEFINITION. The flags: STATUS and its three fields (10_state.md R35, R49), the error codes
(60_exceptions.md R300), and how a command leaves them when it succeeds.
-/

namespace Sys2Proof.Machine

/-- The number of an error code (60_exceptions.md R300). -/
def ErrCode.code : ErrCode → BitVec 4
  | .noError => 0
  | .streamExhausted => 1
  | .invalidBitValue => 2
  | .unknownSymbol => 3
  | .malformedHeader => 4
  | .domainError => 5
  | .capacityExceeded => 6
  | .illegalCommand => 7

/-- `STATUS.BUSY` (10_state.md R35, R36): 1 while a command is accepted and not yet executed. -/
def State.busy (s : State) : Bool := s.pending.isSome

/-- `STATUS` as the host reads it (10_state.md R35): `BUSY` [0], `STICKY` [1], `ERR` [11:8]; the
reserved bits [7:2] and [31:12] are 0. -/
def State.statusWord (s : State) : Word :=
  (0#20 ++ s.err.code ++ 0#6 ++ BitVec.ofBool s.sticky ++ BitVec.ofBool s.busy :
    BitVec (20 + 4 + 6 + 1 + 1))

/-- The engine is done with the pending command (10_state.md R36): `PENDING <- none`, `BUSY <- 0`. -/
def State.retire (s : State) : State := { s with pending := none }

/-- A command other than NOP succeeds: `ERR` is 0, `STICKY` is kept (10_state.md R35). -/
def State.succeed (s : State) : State := { s with err := .noError, pending := none }

end Sys2Proof.Machine
end

