-- ==== Sys2Proof/Machine/Operands.lean ====
section
/-!
DEFINITION. Operand forms and the bit-level helpers every rule uses: widths (00_scope.md R12, R13),
raw integers as bits (20_memory.md R71, 40_bitstream.md R134), sequence operands (30_encoding.md R104),
and the LZW alphabet (10_state.md R42).
-/

namespace Sys2Proof.Machine

/-- `floor(log2 v) = bitlen(v) − 1` (00_scope.md R13). -/
def floorLog2 (v : Nat) : Nat := Nat.log2 v

/-- `bitsFor(k)`: the least `b` with `2^b ≥ k` (00_scope.md R12). -/
def bitsFor (k : Nat) : Nat := if k ≤ 1 then 0 else Nat.log2 (k - 1) + 1

/-- The low `n` bits of `v`, least significant first (40_bitstream.md R134). -/
def intBits (v : Nat) : Nat → List Bool
  | 0 => []
  | n + 1 => v.testBit 0 :: intBits (v / 2) n

/-- The unsigned integer a run of bits spells, least significant first (40_bitstream.md R144). -/
def natOfBits : List Bool → Nat
  | [] => 0
  | b :: bs => b.toNat + 2 * natOfBits bs

/-- The first `n` bits of the sequence `seq` of length `len`, zero-padded after its last element
(30_encoding.md R104, 40_bitstream.md R133). -/
def seqBits (seq : Word) (len n : Nat) : List Bool :=
  (List.range n).map fun k => decide (k < len) && seq.getLsbD k

/-- Symbol `c` is in the set `ALPHA` (10_state.md R42): bit `c mod 32` of `ALPHA(c div 32)`. -/
def State.inAlphabet (s : State) (c : Nat) : Bool :=
  match s.alpha[c / 32]? with
  | some w => w.getLsbD (c % 32)
  | none => false

/-- The alphabet `A`, ascending (10_state.md R42, 44_lzw.md R230). -/
def State.alphabet (s : State) : List Byte :=
  ((List.range 256).filter s.inAlphabet).map (BitVec.ofNat 8)

end Sys2Proof.Machine
end

