-- ==== Sys2Proof/Machine/Ops.lean ====
section
/-!
DEFINITION. The named operations over memory, registers and streams that every meaning is written
with, and error entry (60_exceptions.md R305), the one way a command fails. There is no return from
an error: nothing is saved and no handler runs (60_exceptions.md R311).
-/

namespace Sys2Proof.Machine

/-! ### Buffer memory -/

/-- The canonical form: addresses strictly rising. -/
abbrev Memory.wf (m : Memory) : Prop := m.Pairwise fun x y => x.1 < y.1

/-- Every listed address is below `cap`. -/
abbrev Memory.within (m : Memory) (cap : Nat) : Prop := ∀ c ∈ m, c.1 < cap

/-- The byte at `a`, or `none` where nothing has been written (10_state.md R47). -/
def Memory.lookup : Memory → Nat → Option Byte
  | [], _ => none
  | (k, b) :: m, a => if k = a then some b else Memory.lookup m a

/-- Write one byte. -/
def Memory.store : Memory → Nat → Byte → Memory
  | [], a, b => [(a, b)]
  | (k, v) :: m, a, b =>
    if a < k then (a, b) :: (k, v) :: m
    else if a = k then (a, b) :: m
    else (k, v) :: Memory.store m a b

/-- Consecutive cells from address `a`. -/
def Memory.cellsFrom (a : Nat) : List Byte → Memory
  | [] => []
  | b :: bs => (a, b) :: Memory.cellsFrom (a + 1) bs

/-- Write consecutive bytes from address `a`. -/
def Memory.storeRange (m : Memory) (a : Nat) (bs : List Byte) : Memory :=
  m.filter (fun c => c.1 < a) ++ Memory.cellsFrom a bs ++ m.filter (fun c => a + bs.length ≤ c.1)

/-- The key of a space in the free value of its unwritten bytes. -/
def Space.key : Space → Nat
  | .ibuf => 0
  | .obuf => 1
  | .rbuf => 2
  | .wsb => 3

/-- `MemRead` of one byte (00_scope.md R10): a byte that holds no value reads as an unspecified one
(10_state.md R47; log 3). -/
def Memory.byteAt (m : Memory) (resets : Nat) (sp : Space) (a : Nat) : Byte :=
  (m.lookup a).getD (Config.unwrittenByte resets sp.key a)

/-- A byte of `IBUF`. -/
def State.ibufByte (s : State) (a : Nat) : Byte := s.ibuf.byteAt s.resets .ibuf a

/-- A byte of `OBUF`. -/
def State.obufByte (s : State) (a : Nat) : Byte := s.obuf.byteAt s.resets .obuf a

/-- A byte of `RBUF`. -/
def State.rbufByte (s : State) (a : Nat) : Byte := s.rbuf.byteAt s.resets .rbuf a

/-- `MemRead(IBUF, 0, n)` with `n = ILEN` (10_state.md R37). -/
def State.inputBytes (s : State) : List Byte := (List.range s.ilen.toNat).map s.ibufByte

/-! ### The write stream -/

/-- `WsPut` (40_bitstream.md R131). -/
def wsPut (cap : Nat) (ws : List Bool) (b : Bool) : Except ErrCode (List Bool) :=
  if ws.length = cap then .error .capacityExceeded else .ok (ws ++ [b])

/-- `WsPut` of each bit in turn, in one step: it fails exactly when some bit does not fit
(`wsPutAll_eq_foldlM` in Laws). -/
def wsPutAll (cap : Nat) (ws bits : List Bool) : Except ErrCode (List Bool) :=
  if ws.length + bits.length ≤ cap then .ok (ws ++ bits) else .error .capacityExceeded

/-- `WsPutInt(v, n)` (40_bitstream.md R134). -/
def wsPutInt (cap : Nat) (ws : List Bool) (v n : Nat) : Except ErrCode (List Bool) :=
  if ws.length + n ≤ cap then .ok (ws ++ intBits v n) else .error .capacityExceeded

/-- Byte `j` of `toByteArray(WS)`: bits `8j` to `8j + 7`, absent ones 0 (20_memory.md R70, R75). -/
def wsByte (ws : List Bool) (j : Nat) : Byte :=
  BitVec.ofNat 8 (natOfBits ((ws.drop (8 * j)).take 8))

/-- `toByteArray(WS)`: `ceil(size / 8)` bytes (20_memory.md R75). It changes no state. -/
def toByteArray (ws : List Bool) : List Byte := (List.range ((ws.length + 7) / 8)).map (wsByte ws)

/-! ### The read stream -/

/-- The read stream during a command: the buffer, its length in bytes and the cursor in bits
(40_bitstream.md R139). -/
structure Reader where
  mem : Memory
  resets : Nat
  len : Nat
  pos : Nat
deriving DecidableEq, Repr

/-- The read stream at the start of a command. -/
def State.reader (s : State) : Reader :=
  { mem := s.rbuf, resets := s.resets, len := s.rlen.toNat, pos := s.rpos.toNat }

/-- `available = 8·RLEN − RPOS` (10_state.md R41). -/
def Reader.available (r : Reader) : Nat := 8 * r.len - r.pos

/-- Stream bit `k`: bit `k mod 8` of `RBUF[k div 8]` (20_memory.md R70). -/
def Reader.bit (r : Reader) (k : Nat) : Bool :=
  (r.mem.byteAt r.resets .rbuf (k / 8)).getLsbD (k % 8)

/-- `RsGet` (40_bitstream.md R141). -/
def Reader.get (r : Reader) : Except ErrCode (Bool × Reader) :=
  if 8 * r.len ≤ r.pos then .error .streamExhausted
  else .ok (r.bit r.pos, { r with pos := r.pos + 1 })

/-- `n` times `RsGet`, in order. -/
def Reader.getBits : Nat → Reader → Except ErrCode (List Bool × Reader)
  | 0, r => .ok ([], r)
  | n + 1, r => do
    let (b, r) ← r.get
    let (bs, r) ← Reader.getBits n r
    .ok (b :: bs, r)

/-- `RsGetInt(n)` (40_bitstream.md R144). -/
def Reader.getInt (n : Nat) (r : Reader) : Except ErrCode (Nat × Reader) :=
  if r.available < n then .error .streamExhausted
  else do
    let (bs, r) ← Reader.getBits n r
    .ok (natOfBits bs, r)

/-- `RsGetInt(8)` as a symbol. -/
def Reader.getByte (r : Reader) : Except ErrCode (Byte × Reader) := do
  let (v, r) ← Reader.getInt 8 r
  .ok (BitVec.ofNat 8 v, r)

/-! ### Error entry -/

/-- Error entry (60_exceptions.md R305), given `size(WS)` and `RPOS` as recorded at command start
(30_encoding.md R100). -/
def errorEntry (e : ErrCode) (size0 : Nat) (rpos0 : Word) (s : State) : State :=
  { s with ws := s.ws.take size0, rpos := rpos0, err := e, sticky := true, pending := none }

/-- `raise e` in a command that started in `s` (00_scope.md R14, 60_exceptions.md R305): a meaning
computes its results beside the state, so the state error entry acts on is still `s`. -/
def State.raise (s : State) (e : ErrCode) : State := errorEntry e s.ws.length s.rpos s

/-- `OBUF[0 .. n)` becomes unspecified, as far as `OBUF` reaches; bytes at `n` and above are kept
(60_exceptions.md R305; log 4). -/
def State.spoilObuf (s : State) (n : Nat) : State :=
  { s with
    obuf := s.obuf.storeRange 0
      ((List.range (min n s.params.obufCap)).map fun a => Config.failedByte s.fails a (s.obufByte a)),
    fails := s.fails + 1 }

/-- `raise e` in a command that would have written `n` bytes of `OBUF` (60_exceptions.md R305). -/
def State.raiseSpoiling (s : State) (n : Nat) (e : ErrCode) : State := (s.spoilObuf n).raise e

/-! ### How a command ends -/

/-- A step's outcome in this machine. -/
abbrev StepOutcome := Host.Outcome State Fault Refusal

/-- The end of a write command or an encoder (40_bitstream.md R130): the new write stream, or the
error. `RESULT0` is the total size, `RESULT1` the bits appended. -/
def State.finishWrite (s : State) (r : Except ErrCode (List Bool)) : StepOutcome :=
  match r with
  | .error e => .next (s.raise e)
  | .ok ws =>
    .next { s with ws := ws, result0 := BitVec.ofNat 32 ws.length,
                   result1 := BitVec.ofNat 32 (ws.length - s.ws.length) }.succeed

/-- The end of a read command (40_bitstream.md R139): the value, and the cursor's advance in
`RESULT1`. -/
def State.finishRead (s : State) (r : Except ErrCode (Nat × Reader)) : StepOutcome :=
  match r with
  | .error e => .next (s.raise e)
  | .ok (v, r) =>
    .next { s with rpos := BitVec.ofNat 32 r.pos, result0 := BitVec.ofNat 32 v,
                   result1 := BitVec.ofNat 32 (r.pos - s.rpos.toNat) }.succeed

/-- A read command: `RLEN ≤ RBUF_CAP` is checked first (40_bitstream.md R139; log 10). -/
def State.readCommand (s : State) (body : Reader → Except ErrCode (Nat × Reader)) : StepOutcome :=
  if s.params.rbufCap < s.rlen.toNat then .next (s.raise .capacityExceeded)
  else s.finishRead (body s.reader)

/-- The end of a decode command that has produced the `n` bytes `out` (42_huffman.md R182,
43_lzss.md R208, 44_lzw.md R240, 45_bwt.md R268): `OBUF[0 .. n)`, `OLEN`, `RESULT0` and `RESULT1`. -/
def State.deliver (s : State) (n : Nat) (out : List Byte) (r : Reader) : State :=
  { s with obuf := s.obuf.storeRange 0 out, olen := BitVec.ofNat 32 n, result0 := BitVec.ofNat 32 n,
           result1 := BitVec.ofNat 32 (r.pos - s.rpos.toNat), rpos := BitVec.ofNat 32 r.pos }.succeed

/-- A decode command with the output length `N = x[ARG0]` (42_huffman.md R182, 43_lzss.md R208,
44_lzw.md R240): the two capacity checks, then the decoder. -/
def State.decodeCommand (s : State) (body : Nat → Reader → Except ErrCode (List Byte × Reader)) :
    StepOutcome :=
  let n := s.arg0.toNat
  if s.params.obufCap < n then .next (s.raiseSpoiling n .capacityExceeded)
  else if s.params.rbufCap < s.rlen.toNat then .next (s.raiseSpoiling n .capacityExceeded)
  else
    match body n s.reader with
    | .error e => .next (s.raiseSpoiling n e)
    | .ok (out, r) => .next (s.deliver n out r)

/-! ### Registers, as the host sees them -/

/-- The registers of the map (10_state.md R31), and the offsets it does not list (R44). -/
inductive Reg where
  | cmd | arg0 | arg1 | arg2 | result0 | result1 | status | ilen | olen | wsize | rlen | rpos
  | alpha (j : Fin 8)
  | ibufCapR | obufCapR | rbufCapR | wsCapR
  | unlisted
deriving DecidableEq, Repr

/-- The register at word `k` of the space REG, byte offset `4k` (10_state.md R31). -/
def Reg.atWord (k : Fin 64) : Reg :=
  match k.val with
  | 0 => .cmd
  | 1 => .arg0
  | 2 => .arg1
  | 3 => .arg2
  | 4 => .result0
  | 5 => .result1
  | 6 => .status
  | 7 => .ilen
  | 8 => .olen
  | 9 => .wsize
  | 10 => .rlen
  | 11 => .rpos
  | 12 => .alpha 0
  | 13 => .alpha 1
  | 14 => .alpha 2
  | 15 => .alpha 3
  | 16 => .alpha 4
  | 17 => .alpha 5
  | 18 => .alpha 6
  | 19 => .alpha 7
  | 20 => .ibufCapR
  | 21 => .obufCapR
  | 22 => .rbufCapR
  | 23 => .wsCapR
  | _ => .unlisted

/-- A host read of a register (10_state.md R31, R35, R39, R43, R44). It changes nothing
(20_memory.md R77). -/
def State.readReg (s : State) : Reg → Word
  | .cmd => s.cmd
  | .arg0 => s.arg0
  | .arg1 => s.arg1
  | .arg2 => s.arg2
  | .result0 => s.result0
  | .result1 => s.result1
  | .status => s.statusWord
  | .ilen => s.ilen
  | .olen => s.olen
  | .wsize => BitVec.ofNat 32 s.ws.length
  | .rlen => s.rlen
  | .rpos => s.rpos
  | .alpha j => s.alpha[j]
  | .ibufCapR => BitVec.ofNat 32 s.params.ibufCap
  | .obufCapR => BitVec.ofNat 32 s.params.obufCap
  | .rbufCapR => BitVec.ofNat 32 s.params.rbufCap
  | .wsCapR => BitVec.ofNat 32 s.params.wsCap
  | .unlisted => 0

/-- A host write of a register while BUSY = 0 (10_state.md R31): `CMD` starts a command (R36), `RLEN`
also sets `RPOS <- 0` (R40), the read-only registers and the unlisted offsets ignore it (R43, R44). -/
def State.writeReg (s : State) (v : Word) : Reg → State
  | .cmd => { s with cmd := v, pending := some v }
  | .arg0 => { s with arg0 := v }
  | .arg1 => { s with arg1 := v }
  | .arg2 => { s with arg2 := v }
  | .ilen => { s with ilen := v }
  | .rlen => { s with rlen := v, rpos := 0 }
  | .alpha j => { s with alpha := s.alpha.set j v }
  | .result0 | .result1 | .status | .olen | .wsize | .rpos | .ibufCapR | .obufCapR | .rbufCapR
  | .wsCapR | .unlisted => s

/-- A host read of a byte (20_memory.md R73 to R75): 0 at and above the space's size; `WSB` is the
byte image of the write stream, 0 past it. -/
def State.readByte (s : State) : Space → Nat → Byte
  | .ibuf, a => if a < s.params.ibufCap then s.ibufByte a else 0
  | .obuf, a => if a < s.params.obufCap then s.obufByte a else 0
  | .rbuf, a => if a < s.params.rbufCap then s.rbufByte a else 0
  | .wsb, a => wsByte s.ws a

/-- A host write of a byte (20_memory.md R74): ignored at and above the space's size, and in `OBUF`
and `WSB`. A write of an `RBUF` byte does not move `RPOS` (70_reset_and_hazards.md R353). -/
def State.writeByte (s : State) (b : Byte) : Space → Nat → State
  | .ibuf, a => if a < s.params.ibufCap then { s with ibuf := s.ibuf.store a b } else s
  | .rbuf, a => if a < s.params.rbufCap then { s with rbuf := s.rbuf.store a b } else s
  | .obuf, _ => s
  | .wsb, _ => s

/-- Reset (70_reset_and_hazards.md R340, R341): every register and stream at its reset value, the
pending command discarded, the buffers' contents unspecified anew. The parameters are the block's,
and the moves and replies are the host's (log 16). -/
def State.assertReset (s : State) : State :=
  { State.powerOn s.params with
    moves := s.moves, replies := s.replies, resets := s.resets + 1, fails := s.fails }

end Sys2Proof.Machine
end

