-- ==== Sys2Proof/Machine/BitStream.lean ====
section
/-!
DEFINITION. NOP (30_encoding.md R111), an illegal command word (60_exceptions.md R308) and the
BitStream commands (40_bitstream.md).
-/

namespace Sys2Proof.Machine

/-- `NOP` (30_encoding.md R111): no effect, `ERR` kept; the engine is done, so `BUSY` returns to 0. -/
def execNop (s : State) : StepOutcome := .next s.retire

/-- An illegal command word (30_encoding.md R105, 60_exceptions.md R308): `ILLEGAL_COMMAND`, and no
other effect. -/
def illegalCommand (s : State) : StepOutcome := .next (s.raise .illegalCommand)

/-- `WS_CLEAR` (40_bitstream.md R138). -/
def execWsClear (s : State) : StepOutcome :=
  .next { s with ws := [], result0 := 0, result1 := 0 }.succeed

/-- `WS_BIT` (40_bitstream.md R132). -/
def execWsBit (s : State) : StepOutcome :=
  if s.arg0 = 0 then s.finishWrite (wsPut s.params.wsCap s.ws false)
  else if s.arg0 = 1 then s.finishWrite (wsPut s.params.wsCap s.ws true)
  else .next (s.raise .invalidBitValue)

/-- `WS_BITS` (40_bitstream.md R133). -/
def execWsBits (s : State) : StepOutcome :=
  let n := s.arg1.toNat
  if 32 < s.arg2.toNat then .next (s.raise .domainError)
  else if s.ws.length + n ≤ s.params.wsCap then
    s.finishWrite (.ok (s.ws ++ seqBits s.arg0 s.arg2.toNat n))
  else .next (s.raise .capacityExceeded)

/-- `WS_INT` (40_bitstream.md R135). -/
def execWsInt (s : State) : StepOutcome :=
  s.finishWrite (wsPutInt s.params.wsCap s.ws s.arg0.toNat s.arg1.toNat)

/-- `RS_LOAD` with `F = 0`: `RBUF` becomes the byte image of the write stream (40_bitstream.md R140). -/
def loadStream (s : State) : StepOutcome :=
  let bytes := toByteArray s.ws
  if s.params.rbufCap < bytes.length then .next (s.raise .capacityExceeded)
  else
    .next { s with rbuf := s.rbuf.storeRange 0 bytes, rlen := BitVec.ofNat 32 bytes.length, rpos := 0,
                   result0 := BitVec.ofNat 32 (8 * bytes.length), result1 := 0 }.succeed

/-- `RS_LOAD.R`, `F = 1`: rewind (40_bitstream.md R140). -/
def rewindStream (s : State) : StepOutcome :=
  if s.params.rbufCap < s.rlen.toNat then .next (s.raise .capacityExceeded)
  else
    .next { s with rpos := 0, result0 := BitVec.ofNat 32 (8 * s.rlen.toNat), result1 := 0 }.succeed

/-- `RS_LOAD` (40_bitstream.md R140). -/
def execRsLoad (f : Bool) (s : State) : StepOutcome := if f then rewindStream s else loadStream s

/-- `RS_BIT` (40_bitstream.md R142). -/
def execRsBit (s : State) : StepOutcome :=
  s.readCommand fun r => do
    let (b, r) ← r.get
    .ok (b.toNat, r)

/-- `RS_BITS` (40_bitstream.md R143): clamped to what is available. -/
def execRsBits (s : State) : StepOutcome :=
  s.readCommand fun r =>
    let n := s.arg1.toNat
    if 32 < n then .error .domainError
    else do
      let (bs, r) ← r.getBits (min n r.available)
      .ok (natOfBits bs, r)

/-- `RS_INT` (40_bitstream.md R145): not clamped. -/
def execRsInt (s : State) : StepOutcome :=
  s.readCommand fun r =>
    let n := s.arg1.toNat
    if 32 < n then .error .domainError else r.getInt n

end Sys2Proof.Machine
end

