-- ==== Sys2Proof/Machine/Monotonous.lean ====
section
/-!
DEFINITION. The monotonous integer coder (41_monotonous.md): `Mono`, `Unmono` and their commands.
-/

namespace Sys2Proof.Machine

/-- The bits `Mono(i)` appends for `i ≥ 1` (41_monotonous.md R160): `k` ones, a zero, and the `k`
mantissa bits, least significant first. -/
def monoBits (i : Nat) : List Bool :=
  let k := floorLog2 i
  List.replicate k true ++ false :: intBits (i - 2 ^ k) k

/-- Read ones up to the first zero, and count them. After `limit` ones without a zero it fails with
`e` (41_monotonous.md R162, R163). -/
def countOnes (e : ErrCode) : Nat → Reader → Except ErrCode (Nat × Reader)
  | 0, _ => .error e
  | limit + 1, r => do
    let (b, r) ← r.get
    if b then
      let (k, r) ← countOnes e limit r
      .ok (k + 1, r)
    else .ok (0, r)

/-- `Unmono` (41_monotonous.md R162). The limit is one more than the bits left, so the stream always
ends first. -/
def unmono (r : Reader) : Except ErrCode (Nat × Reader) := do
  let (k, r) ← countOnes .streamExhausted (r.available + 1) r
  let (m, r) ← r.getInt k
  .ok (2 ^ k + m, r)

/-- The value `MONO_DEC` reads: a prefix of 32 ones is `DOMAIN_ERROR` (41_monotonous.md R163). -/
def unmono32 (r : Reader) : Except ErrCode (Nat × Reader) := do
  let (k, r) ← countOnes .domainError 32 r
  let (m, r) ← r.getInt k
  .ok (2 ^ k + m, r)

/-- `MONO_ENC` (41_monotonous.md R161). -/
def execMonoEnc (s : State) : StepOutcome :=
  if s.arg0 = 0 then .next (s.raise .domainError)
  else s.finishWrite (wsPutAll s.params.wsCap s.ws (monoBits s.arg0.toNat))

/-- `MONO_DEC` (41_monotonous.md R163). -/
def execMonoDec (s : State) : StepOutcome := s.readCommand unmono32

end Sys2Proof.Machine
end

