-- ==== Sys2Proof/Machine/Lzss.lean ====
section
/-!
DEFINITION. The LZSS coder (43_lzss.md). The window, oldest entry first, and the candidate set are
local to one command (10_state.md R48). The BWT coder calls the same encoder and decoder.
-/

namespace Sys2Proof.Machine

/-- `Trim(W, M)` (43_lzss.md R204): the last `M` entries. -/
def trimWindow (m : Nat) (w : List Byte) : List Byte := w.drop (w.length - m)

/-- The window positions that hold `c` (43_lzss.md R201). -/
def matchStarts (w : List Byte) (c : Byte) : List Nat :=
  (List.range w.length).filter fun p => decide (w[p]? = some c)

/-- `Pick(P)` (43_lzss.md R205): the default takes the least element; any other rule takes some
member, through an open function (log 2). -/
def pickCandidate (k : PickRule) (ps : List Nat) : Nat :=
  match k with
  | .minPosition => ps.foldl min (ps.headD 0)
  | .other n => if Config.openPick n ps ∈ ps then Config.openPick n ps else ps.headD 0

/-- The extension loop (43_lzss.md R202): window, candidates, length so far and the bytes left; it
answers the same four when no candidate survives, the length reaches `m`, or the input ends. -/
def extendMatch (m : Nat) : List Byte → List Nat → Nat → List Byte → List Byte × List Nat × Nat × List Byte
  | w, ps, len, [] => (w, ps, len, [])
  | w, ps, len, c :: data =>
    if len < m then
      let ps' := ps.filter fun p => decide (w[p + len]? = some c)
      if ps'.isEmpty then (w, ps, len, c :: data)
      else extendMatch m (w ++ [c]) ps' (len + 1) data
    else (w, ps, len, c :: data)

/-- `LzssEncode(data, M)` from the window `w` (43_lzss.md R207), as the bits it writes. Each pass
consumes a byte, so the fuel is the number of bytes. -/
def lzssBitsFrom (pick : PickRule) (m : Nat) : Nat → List Byte → List Byte → List Bool
  | 0, _, _ => []
  | _, _, [] => []
  | fuel + 1, w, c :: data =>
    let ps := matchStarts w c
    if ps.isEmpty then
      false :: intBits c.toNat 8 ++ lzssBitsFrom pick m fuel (trimWindow m (w ++ [c])) data
    else
      let (w', ps', len, data') := extendMatch m (w ++ [c]) ps 1 data
      true :: intBits (w.length - pickCandidate pick ps' - 1) (bitsFor w.length) ++ monoBits len ++
        lzssBitsFrom pick m fuel (trimWindow m w') data'

/-- `LzssEncode(data, M)` (43_lzss.md R207). -/
def lzssBits (pick : PickRule) (m : Nat) (data : List Byte) : List Bool :=
  lzssBitsFrom pick m data.length [] data

/-- `LZSS_ENC` (43_lzss.md R207). -/
def execLzssEnc (s : State) : StepOutcome :=
  if s.params.ibufCap < s.ilen.toNat then .next (s.raise .capacityExceeded)
  else s.finishWrite (wsPutAll s.params.wsCap s.ws (lzssBits s.params.pick s.arg1.toNat s.inputBytes))

/-- The copy of a match (43_lzss.md R208): `n` times, the entry `dist` before the newest one is
pushed again. It answers the grown window. -/
def copyMatch (dist : Nat) : Nat → List Byte → List Byte
  | 0, w => w
  | n + 1, w => copyMatch dist n (w ++ [w.getD (w.length - dist - 1) 0])

/-- `LzssDecode(N, M)` (43_lzss.md R208) with the window and the output so far. Each pass adds a
byte, so the fuel is the number of bytes still to produce. -/
def lzssDecodeFrom (n m : Nat) : Nat → List Byte → List Byte → Reader → Except ErrCode (List Byte × Reader)
  | 0, _, out, r => .ok (out, r)
  | fuel + 1, w, out, r =>
    if n ≤ out.length then .ok (out, r)
    else do
      let (flag, r) ← r.get
      if flag = false then do
        let (c, r) ← r.getByte
        lzssDecodeFrom n m fuel (trimWindow m (w ++ [c])) (out ++ [c]) r
      else if w.length = 0 then .error .malformedHeader
      else do
        let (dist, r) ← r.getInt (bitsFor w.length)
        if w.length ≤ dist then .error .malformedHeader
        else do
          let (len, r) ← unmono r
          if m < len ∨ n < out.length + len then .error .malformedHeader
          else
            let w' := copyMatch dist len w
            lzssDecodeFrom n m fuel (trimWindow m w') (out ++ w'.drop w.length) r

/-- `LzssDecode(N, M)` (43_lzss.md R208). -/
def lzssDecode (m n : Nat) (r : Reader) : Except ErrCode (List Byte × Reader) :=
  lzssDecodeFrom n m n [] [] r

/-- `LZSS_DEC` (43_lzss.md R208). -/
def execLzssDec (s : State) : StepOutcome := s.decodeCommand (lzssDecode s.arg1.toNat)

end Sys2Proof.Machine
end

