-- ==== Sys2Proof/Machine/Bwt.lean ====
section
/-!
DEFINITION. The BWT composite coder (45_bwt.md). The rotation order and the run lists are local to one
command (10_state.md R48).
-/

namespace Sys2Proof.Machine

/-- `rot_i` (45_bwt.md R260). -/
def rotation (s : List Byte) (i : Nat) : List Byte := s.drop i ++ s.take i

/-- Lexicographic order of byte strings (45_bwt.md R261). -/
def bytesBefore : List Byte → List Byte → Bool
  | [], [] => false
  | [], _ :: _ => true
  | _ :: _, [] => false
  | a :: as, b :: bs => a.toNat < b.toNat || (a == b && bytesBefore as bs)

/-- The order of the key `(rot_i, i)` (45_bwt.md R261). -/
def rotationBefore (s : List Byte) (i j : Nat) : Bool :=
  bytesBefore (rotation s i) (rotation s j) || (rotation s i == rotation s j && i < j)

/-- Insert a rotation index into a sorted sequence. -/
def insertRotation (s : List Byte) (i : Nat) : List Nat → List Nat
  | [] => [i]
  | j :: js => if rotationBefore s i j then i :: j :: js else j :: insertRotation s i js

/-- `σ`: the rotation indices in sorted order (45_bwt.md R261). -/
def sortedRotations (s : List Byte) : List Nat := (List.range s.length).foldr (insertRotation s) []

/-- `L`: the last symbol of each sorted rotation (45_bwt.md R262). -/
def bwtColumn (s : List Byte) : List Byte :=
  (sortedRotations s).map fun i => s.getD ((i + s.length - 1) % s.length) 0

/-- The rank: the position of `rot_0` in sorted order (45_bwt.md R262). -/
def bwtRank (s : List Byte) : Nat := (sortedRotations s).idxOf 0

/-- Append one symbol to the runs, the last run first (45_bwt.md R263). -/
def addToRuns (runs : List (Byte × Nat)) (c : Byte) : List (Byte × Nat) :=
  match runs with
  | (sym, len) :: older => if sym = c ∧ len < 256 then (sym, len + 1) :: older else (c, 1) :: runs
  | [] => [(c, 1)]

/-- The runs of `L`, in order, each at most 256 long (45_bwt.md R263). -/
def bwtRuns (l : List Byte) : List (Byte × Nat) := (l.foldl addToRuns []).reverse

/-- Everything `BWT_ENC` writes (45_bwt.md R264). -/
def bwtBits (pick : PickRule) (m : Nat) (s : List Byte) : List Bool :=
  let runs := bwtRuns (bwtColumn s)
  monoBits runs.length ++ runs.flatMap (fun x => monoBits x.2) ++
    intBits (bwtRank s) (bitsFor s.length) ++ lzssBits pick m (runs.map Prod.fst)

/-- `BWT_ENC` (45_bwt.md R265). -/
def execBwtEnc (s : State) : StepOutcome :=
  if s.params.ibufCap < s.ilen.toNat then .next (s.raise .capacityExceeded)
  else if s.ilen = 0 then .next (s.raise .domainError)
  else s.finishWrite (wsPutAll s.params.wsCap s.ws (bwtBits s.params.pick s.arg1.toNat s.inputBytes))

/-- `BWT_XFORM` (45_bwt.md R266). -/
def execBwtXform (s : State) : StepOutcome :=
  let n := s.ilen.toNat
  if s.params.ibufCap < n then .next (s.raiseSpoiling n .capacityExceeded)
  else if s.params.obufCap < n then .next (s.raiseSpoiling n .capacityExceeded)
  else if n = 0 then .next (s.raiseSpoiling n .domainError)
  else
    .next { s with obuf := s.obuf.storeRange 0 (bwtColumn s.inputBytes), olen := s.ilen,
                   result0 := BitVec.ofNat 32 (bwtRank s.inputBytes), result1 := s.ilen }.succeed

/-! ### The inverse -/

/-- `LF[k]` (45_bwt.md R267). -/
def lastToFirst (l : List Byte) (k : Nat) : Nat :=
  let c := l.getD k 0
  l.countP (fun x => decide (x.toNat < c.toNat)) + (l.take k).count c

/-- The backward walk (45_bwt.md R267): the last `n` bytes of the message are found first. -/
def inverseWalk (l : List Byte) : Nat → Nat → List Byte → List Byte
  | 0, _, acc => acc
  | n + 1, row, acc => inverseWalk l n (lastToFirst l row) (l.getD row 0 :: acc)

/-- `InvBwt(L, rank)` (45_bwt.md R267). -/
def inverseBwt (l : List Byte) (rank : Nat) : List Byte := inverseWalk l l.length rank []

/-- The run lengths, with the running total `total` so far (45_bwt.md R268). -/
def readRunLengths (cap : Nat) : Nat → Nat → Reader → Except ErrCode (List Nat × Reader)
  | 0, _, r => .ok ([], r)
  | k + 1, total, r => do
    let (len, r) ← unmono r
    if 256 < len then .error .malformedHeader
    else if cap < total + len then .error .capacityExceeded
    else do
      let (lens, r) ← readRunLengths cap k (total + len) r
      .ok (len :: lens, r)

/-- The run count and the run lengths (45_bwt.md R268): what `BWT_DEC` reads before it knows `n`. -/
def readRuns (cap : Nat) (r : Reader) : Except ErrCode (List Nat × Reader) := do
  let (count, r) ← unmono r
  if cap < count then .error .capacityExceeded else readRunLengths cap count 0 r

/-- `L`: each symbol repeated by its run length (45_bwt.md R268). -/
def expandRuns (syms : List Byte) (lens : List Nat) : List Byte :=
  (syms.zip lens).flatMap fun x => List.replicate x.2 x.1

/-- The rest of the decoder, once `n` is known: the rank, the symbols and the inverse
(45_bwt.md R268). -/
def readMessage (m n : Nat) (lens : List Nat) (r : Reader) : Except ErrCode (List Byte × Reader) := do
  let (rank, r) ← r.getInt (bitsFor n)
  if n ≤ rank then .error .malformedHeader
  else do
    let (syms, r) ← lzssDecode m lens.length r
    .ok (inverseBwt (expandRuns syms lens) rank, r)

/-- `BWT_DEC` (45_bwt.md R268). A failure before `n` is known leaves all of `OBUF` unspecified
(log 4). -/
def execBwtDec (s : State) : StepOutcome :=
  if s.params.rbufCap < s.rlen.toNat then .next (s.raiseSpoiling s.params.obufCap .capacityExceeded)
  else
    match readRuns s.params.obufCap s.reader with
    | .error e => .next (s.raiseSpoiling s.params.obufCap e)
    | .ok (lens, r) =>
      match readMessage s.arg1.toNat lens.sum lens r with
      | .error e => .next (s.raiseSpoiling lens.sum e)
      | .ok (out, r) => .next (s.deliver lens.sum out r)

end Sys2Proof.Machine
end

