-- ==== Sys2Proof/Machine/Huffman.lean ====
section
/-!
DEFINITION. The canonical Huffman coder (42_huffman.md). The tree, the levels and the code table are
local to one command (10_state.md R48).
-/

namespace Sys2Proof.Machine

/-! ### The tree -/

/-- A node of the merge tree (42_huffman.md R172). Only the depths of its leaves are used. -/
inductive HuffTree where
  | leaf (s : Byte)
  | node (child0 child1 : HuffTree)
deriving DecidableEq, Repr

/-- A node waiting in the priority structure, with its key (42_huffman.md R172). -/
structure HuffItem where
  freq : Nat
  order : Nat
  tree : HuffTree
deriving DecidableEq, Repr

/-- The order of the priority structure: `(frequency, creation order)`, lexicographically. -/
def HuffItem.before (a b : HuffItem) : Bool := a.freq < b.freq || (a.freq == b.freq && a.order < b.order)

/-- Insert into the queue, which is kept smallest first. -/
def huffInsert (t : HuffItem) : List HuffItem → List HuffItem
  | [] => [t]
  | u :: q => if t.before u then t :: u :: q else u :: huffInsert t q

/-- The distinct symbols `S`, ascending (42_huffman.md R171). -/
def distinctSymbols (data : List Byte) : List Byte :=
  ((List.range 256).map (BitVec.ofNat 8)).filter fun s => data.contains s

/-- The queue of leaves: the `r`-th smallest symbol has creation order `r` (42_huffman.md R171). -/
def huffLeaves (data : List Byte) : List HuffItem :=
  ((distinctSymbols data).zipIdx.map fun (s, r) => { freq := data.count s, order := r, tree := .leaf s }).foldr
    huffInsert []

/-- Merge the two smallest nodes until one is left (42_huffman.md R172). `next` is the creation order
of the next node; the fuel is the queue's length, since each pass shortens it by one. -/
def huffMerge : Nat → Nat → List HuffItem → Option HuffTree
  | fuel + 1, next, a :: b :: q =>
    huffMerge fuel (next + 1)
      (huffInsert { freq := a.freq + b.freq, order := next, tree := .node a.tree b.tree } q)
  | _, _, [a] => some a.tree
  | _, _, _ => none

/-- The leaves under a node at depth `d`, each with its depth (42_huffman.md R173). -/
def HuffTree.depths (d : Nat) : HuffTree → List (Byte × Nat)
  | .leaf s => [(s, d)]
  | .node l r => l.depths (d + 1) ++ r.depths (d + 1)

/-- The depth of each leaf of the input's tree. -/
def leafDepths (data : List Byte) : List (Byte × Nat) :=
  match huffMerge (huffLeaves data).length (huffLeaves data).length (huffLeaves data) with
  | some t => t.depths 0
  | none => []

/-! ### The canonical code -/

/-- The symbols of each depth `0 .. D`, ascending within a depth (42_huffman.md R173 to R175). Their
concatenation is `LR` and their lengths are `c_0 .. c_D`. -/
def huffLevels (data : List Byte) : List (List Byte) :=
  let depths := leafDepths data
  let deepest := (depths.map Prod.snd).foldl max 0
  (List.range (deepest + 1)).map fun d =>
    (distinctSymbols data).filter fun s => depths.contains (s, d)

/-- The `d` bits of `v`, most significant first (42_huffman.md R176). -/
def msbBits (v d : Nat) : List Bool := (intBits v d).reverse

/-- The code of every symbol: `first` is `first_d` of the first level given (42_huffman.md R176). -/
def huffCodes (d first : Nat) : List (List Byte) → List (Byte × List Bool)
  | [] => []
  | syms :: levels =>
    (syms.zipIdx.map fun (s, j) => (s, msbBits (first + j) d)) ++
      huffCodes (d + 1) (2 * (first + syms.length)) levels

/-- The header fields of the counts given, `m` being `maxLeafs` at the first of them
(42_huffman.md R174, R177). -/
def huffHeader (m : Nat) : List Nat → List Bool
  | [] => []
  | c :: cs => intBits c (bitsFor (m + 1)) ++ huffHeader (2 * (m - c)) cs

/-- The code of one symbol in a code table. -/
def codeOf (codes : List (Byte × List Bool)) (s : Byte) : List Bool := (codes.lookup s).getD []

/-- Everything `HUF_ENC` writes: the header, the symbol list and the body (42_huffman.md R177 to
R179). -/
def huffBits (data : List Byte) : List Bool :=
  let levels := huffLevels data
  huffHeader 1 (levels.map List.length) ++
    levels.flatten.flatMap (fun s => intBits s.toNat 8) ++
    data.flatMap (codeOf (huffCodes 0 0 levels))

/-- `HUF_ENC` (42_huffman.md R180). -/
def execHufEnc (s : State) : StepOutcome :=
  if s.params.ibufCap < s.ilen.toNat then .next (s.raise .capacityExceeded)
  else if s.ilen = 0 then .next (s.raise .domainError)
  else s.finishWrite (wsPutAll s.params.wsCap s.ws (huffBits s.inputBytes))

/-! ### Decoding -/

/-- One depth of a header: `c_d` and `first_d` (42_huffman.md R183). -/
structure HuffLevel where
  count : Nat
  first : Nat
deriving DecidableEq, Repr

/-- `ReadHuffHeader` (42_huffman.md R183): `m` open slots, `tot` leaves so far, `f` the first code of
the depth. It answers the levels and the number of leaves. At most 257 passes are made (R183), so the
fuel `readHuffHeader` gives never runs out (log 14). -/
def huffHeaderLoop : Nat → Nat → Nat → Nat → Reader → Except ErrCode (List HuffLevel × Nat × Reader)
  | 0, _, _, _, _ => .error .malformedHeader
  | fuel + 1, m, tot, f, r =>
    if m = 0 then .ok ([], tot, r)
    else if 256 < tot + m then .error .malformedHeader
    else do
      let (c, r) ← r.getInt (bitsFor (m + 1))
      if m < c then .error .malformedHeader
      else do
        let (levels, total, r) ← huffHeaderLoop fuel (2 * (m - c)) (tot + c) (2 * (f + c)) r
        .ok ({ count := c, first := f } :: levels, total, r)

/-- The header from its start: one slot at depth 0, no leaf yet. -/
def readHuffHeader (r : Reader) : Except ErrCode (List HuffLevel × Nat × Reader) :=
  huffHeaderLoop 258 1 0 0 r

/-- `n` symbols of 8 bits (42_huffman.md R178, R182). -/
def readSymbols : Nat → Reader → Except ErrCode (List Byte × Reader)
  | 0, r => .ok ([], r)
  | n + 1, r => do
    let (c, r) ← r.getByte
    let (cs, r) ← readSymbols n r
    .ok (c :: cs, r)

/-- Walk down the levels to a leaf and answer its slot in `LR`: `v` is the code value so far and
`base` the leaves above this depth (42_huffman.md R182). A header that passed R183 ends in a depth
with no internal slot, so the levels never run out (log 14). -/
def walkLevels : List HuffLevel → Nat → Nat → Reader → Except ErrCode (Nat × Reader)
  | [], _, _, _ => .error .malformedHeader
  | l :: levels, v, base, r =>
    if v - l.first < l.count then .ok (base + (v - l.first), r)
    else do
      let (b, r) ← r.get
      walkLevels levels (2 * v + b.toNat) (base + l.count) r

/-- Decode `n` symbols (42_huffman.md R182). -/
def huffBody (levels : List HuffLevel) (syms : List Byte) : Nat → Reader → Except ErrCode (List Byte × Reader)
  | 0, r => .ok ([], r)
  | n + 1, r => do
    let (slot, r) ← walkLevels levels 0 0 r
    let (out, r) ← huffBody levels syms n r
    .ok (syms.getD slot 0 :: out, r)

/-- The Huffman decoder: header, symbol list and `n` codes (42_huffman.md R182 to R184). -/
def huffDecode (n : Nat) (r : Reader) : Except ErrCode (List Byte × Reader) := do
  let (levels, total, r) ← readHuffHeader r
  let (syms, r) ← readSymbols total r
  huffBody levels syms n r

/-- `HUF_DEC` (42_huffman.md R182). -/
def execHufDec (s : State) : StepOutcome := s.decodeCommand huffDecode

end Sys2Proof.Machine
end

