-- ==== Sys2Proof/Machine/Lzw.lean ====
section
/-!
DEFINITION. The LZW coder, variant V (44_lzw.md). The trie and the decoder's table are local to one
command (10_state.md R48). A node other than the root is named by its id, which no other node of the
command has (44_lzw.md R231; log 17).
-/

namespace Sys2Proof.Machine

/-- An edge of the trie: from a node (`none` is the root) by a symbol to the node with id `id`. -/
structure LzwEdge where
  parent : Option Nat
  sym : Byte
  id : Nat
deriving DecidableEq, Repr

/-- The match state (44_lzw.md R235). -/
inductive LzwCur where
  | start
  | node (t : Nat)
  | virt (c : Byte)
deriving DecidableEq, Repr

/-- The encoder's state: the trie as edges, newest first, the id counter, `MR`, the current match and
the write stream. -/
structure LzwEnc where
  edges : List LzwEdge
  nextId : Nat
  mr : Option Nat
  cur : LzwCur
  ws : List Bool
deriving DecidableEq, Repr

/-- `t.child[c]`: the newest edge, since a re-pointed edge replaces the old one (44_lzw.md R237). -/
def LzwEnc.child (e : LzwEnc) (t : Option Nat) (c : Byte) : Option Nat :=
  (e.edges.find? fun x => x.parent = t && x.sym = c).map LzwEdge.id

/-- `Alloc(t, c)` (44_lzw.md R237). The new node's id is the old `nextId`. -/
def LzwEnc.alloc (e : LzwEnc) (t : Option Nat) (c : Byte) : LzwEnc :=
  { e with edges := { parent := t, sym := c, id := e.nextId } :: e.edges, nextId := e.nextId + 1,
           mr := some e.nextId }

/-- The initial dictionary (44_lzw.md R232): seeds in ascending order, never `MR` (R233). -/
def lzwSeed (esc : Bool) (alphabet : List Byte) (ws : List Bool) : LzwEnc :=
  let base := if esc then 1 else 0
  { edges := (alphabet.zipIdx.map fun (c, j) => { parent := none, sym := c, id := base + j }),
    nextId := base + alphabet.length, mr := none, cur := .start, ws := ws }

/-- `Begin(c)` (44_lzw.md R235). -/
def LzwEnc.begin (esc : Bool) (e : LzwEnc) (c : Byte) : Except ErrCode LzwEnc :=
  match e.child none c with
  | some t => .ok { e with cur := .node t }
  | none => if esc then .ok { e with cur := .virt c } else .error .unknownSymbol

/-- `Emit(cur)` (44_lzw.md R234, R237), and the node it answers; `none` for no match, which writes
nothing. -/
def LzwEnc.emit (cap : Nat) (e : LzwEnc) : Except ErrCode (LzwEnc × Option Nat) :=
  match e.cur with
  | .start => .ok (e, none)
  | .node t => do
    let ws ← wsPutInt cap e.ws t (bitsFor e.nextId)
    .ok ({ e with ws := ws }, some t)
  | .virt c => do
    let ws ← wsPutInt cap e.ws 0 (bitsFor e.nextId)
    let ws ← wsPutInt cap ws c.toNat 8
    .ok ({ e with ws := ws }.alloc none c, some e.nextId)

/-- The extension of the current match by `c`, where it succeeds (44_lzw.md R236): an edge exists,
and in escape mode it does not lead to `MR`. -/
def LzwEnc.extension (esc : Bool) (e : LzwEnc) (c : Byte) : Option Nat :=
  match e.cur with
  | .node t =>
    match e.child (some t) c with
    | some u => if esc && e.mr = some u then none else some u
    | none => none
  | .start | .virt _ => none

/-- The step for one byte (44_lzw.md R236). -/
def LzwEnc.byte (esc : Bool) (cap : Nat) (e : LzwEnc) (c : Byte) : Except ErrCode LzwEnc :=
  match e.cur with
  | .start => e.begin esc c
  | .node _ | .virt _ =>
    match e.extension esc c with
    | some u => .ok { e with cur := .node u }
    | none => do
      let (e, t) ← e.emit cap
      (e.alloc t c).begin esc c

/-- The step for each byte in turn (44_lzw.md R236). -/
def LzwEnc.bytes (esc : Bool) (cap : Nat) : LzwEnc → List Byte → Except ErrCode LzwEnc
  | e, [] => .ok e
  | e, c :: data => do
    let e ← e.byte esc cap c
    LzwEnc.bytes esc cap e data

/-- `LzwEncode(data, A, ESC)` (44_lzw.md R238): the grown write stream. -/
def lzwEncode (esc : Bool) (alphabet : List Byte) (cap : Nat) (ws : List Bool) (data : List Byte) :
    Except ErrCode (List Bool) := do
  let e ← (lzwSeed esc alphabet ws).bytes esc cap data
  let (e, _) ← e.emit cap
  .ok e.ws

/-- `LZW_ENC` (44_lzw.md R239). -/
def execLzwEnc (esc : Bool) (s : State) : StepOutcome :=
  if s.params.ibufCap < s.ilen.toNat then .next (s.raise .capacityExceeded)
  else s.finishWrite (lzwEncode esc s.alphabet s.params.wsCap s.ws s.inputBytes)

/-! ### Decoding -/

/-- The decoder's dictionary (44_lzw.md R241): `table` maps ids to phrases, newest first, and `pend`
is the entry whose last byte is not known yet, with its id and the phrase before that byte. -/
structure LzwDec where
  table : List (Nat × List Byte)
  nextId : Nat
  pend : Option (Nat × List Byte)
deriving DecidableEq, Repr

/-- The table before the first code (44_lzw.md R241). -/
def lzwDecSeed (esc : Bool) (alphabet : List Byte) : LzwDec :=
  let base := if esc then 1 else 0
  { table := alphabet.zipIdx.map fun (c, j) => (base + j, [c]), nextId := base + alphabet.length,
    pend := none }

/-- Complete the pending entry with the byte `c` (44_lzw.md R241). -/
def LzwDec.settlePend (d : LzwDec) (c : Byte) : LzwDec :=
  match d.pend with
  | some (id, stem) => { d with table := (id, stem ++ [c]) :: d.table, pend := none }
  | none => d

/-- The phrase that code `x` names: an entry of the table, or the pending entry, which ends in its
own first byte (44_lzw.md R241). -/
def LzwDec.phrase (d : LzwDec) (x : Nat) : Option (List Byte) :=
  match d.table.lookup x with
  | some ph => some ph
  | none =>
    match d.pend with
    | some (id, stem) => if x = id then some (stem ++ [stem.headD 0]) else none
    | none => none

/-- One emission (44_lzw.md R241): the phrase it stands for, and the dictionary after it. -/
def LzwDec.emission (esc : Bool) (d : LzwDec) (r : Reader) :
    Except ErrCode (List Byte × LzwDec × Reader) := do
  let (x, r) ← r.getInt (bitsFor d.nextId)
  if esc = true ∧ x = 0 then do
    let (c, r) ← r.getByte
    let d := d.settlePend c
    .ok ([c], { table := (d.nextId, [c]) :: d.table, nextId := d.nextId + 2,
                pend := some (d.nextId + 1, [c]) }, r)
  else
    match d.phrase x with
    | none => .error .malformedHeader
    | some ph =>
      let d := d.settlePend (ph.headD 0)
      .ok (ph, { d with nextId := d.nextId + 1, pend := some (d.nextId, ph) }, r)

/-- `LzwDecode` with the output so far (44_lzw.md R241). Each pass adds a byte, so the fuel is the
number of bytes still to produce. -/
def lzwDecodeFrom (esc : Bool) (n : Nat) : Nat → LzwDec → List Byte → Reader → Except ErrCode (List Byte × Reader)
  | 0, _, out, r => .ok (out, r)
  | fuel + 1, d, out, r =>
    if n ≤ out.length then .ok (out, r)
    else do
      let (ph, d, r) ← d.emission esc r
      if n < out.length + ph.length then .error .malformedHeader
      else lzwDecodeFrom esc n fuel d (out ++ ph) r

/-- `LzwDecode(N, A, ESC)` (44_lzw.md R241). -/
def lzwDecode (esc : Bool) (alphabet : List Byte) (n : Nat) (r : Reader) : Except ErrCode (List Byte × Reader) :=
  lzwDecodeFrom esc n n (lzwDecSeed esc alphabet) [] r

/-- `LZW_DEC` (44_lzw.md R240). -/
def execLzwDec (esc : Bool) (s : State) : StepOutcome := s.decodeCommand (lzwDecode esc s.alphabet)

end Sys2Proof.Machine
end

