-- ==== Sys2Proof/Machine/Dispatch.lean ====
section
/-!
DEFINITION. The execution of a decoded command (30_encoding.md R100, R102): one arm per command.
-/

namespace Sys2Proof.Machine

def exec (i : Instr) (s : State) : Host.Outcome State Fault Refusal :=
  match i with
  | .nop => Sys2Proof.Machine.execNop s
  | .wsClear => Sys2Proof.Machine.execWsClear s
  | .wsBit => Sys2Proof.Machine.execWsBit s
  | .wsBits => Sys2Proof.Machine.execWsBits s
  | .wsInt => Sys2Proof.Machine.execWsInt s
  | .rsLoad f => Sys2Proof.Machine.execRsLoad f s
  | .rsBit => Sys2Proof.Machine.execRsBit s
  | .rsBits => Sys2Proof.Machine.execRsBits s
  | .rsInt => Sys2Proof.Machine.execRsInt s
  | .monoEnc => Sys2Proof.Machine.execMonoEnc s
  | .monoDec => Sys2Proof.Machine.execMonoDec s
  | .hufEnc => Sys2Proof.Machine.execHufEnc s
  | .hufDec => Sys2Proof.Machine.execHufDec s
  | .lzssEnc => Sys2Proof.Machine.execLzssEnc s
  | .lzssDec => Sys2Proof.Machine.execLzssDec s
  | .lzwEnc esc => Sys2Proof.Machine.execLzwEnc esc s
  | .lzwDec esc => Sys2Proof.Machine.execLzwDec esc s
  | .bwtEnc => Sys2Proof.Machine.execBwtEnc s
  | .bwtDec => Sys2Proof.Machine.execBwtDec s
  | .bwtXform => Sys2Proof.Machine.execBwtXform s

end Sys2Proof.Machine
end

