-- ==== Sys2Proof/Machine/HostPort.lean ====
section
/-!
DEFINITION. The moves of the host and the platform (70_reset_and_hazards.md R356): what each does
while BUSY = 0, and the ones allowed while BUSY = 1 (R350).
-/

namespace Sys2Proof.Machine

/-- The host gets a value back. -/
def State.answer (s : State) (v : Reply) : State := { s with replies := s.replies ++ [v] }

/-- A move made while BUSY = 0 (70_reset_and_hazards.md R356). A WAIT ends at once: STATUS reads with
BUSY = 0. -/
def idleMove (s : State) : Move → State
  | .writeReg k v => s.writeReg v (Reg.atWord k)
  | .readReg k => s.answer (.word (s.readReg (Reg.atWord k)))
  | .writeByte sp a b => s.writeByte b sp a
  | .readByte sp a => s.answer (.byte (s.readByte sp a))
  | .wait => s
  | .reset => s.assertReset

/-- A move made while BUSY = 1: a read of STATUS, or reset. The spec gives the host no other
(70_reset_and_hazards.md R350). A WAIT is the engine's turn, which `step` gives it. -/
def busyMove (s : State) : Move → StepOutcome
  | .readReg k =>
    if Reg.atWord k = .status then .next (s.answer (.word s.statusWord))
    else .refused .hostAccessWhileBusy
  | .reset => .next s.assertReset
  | .writeReg _ _ | .writeByte _ _ _ | .readByte _ _ | .wait => .refused .hostAccessWhileBusy

end Sys2Proof.Machine
end

