-- ==== Sys2Proof/Machine/Step.lean ====
section
/-!
DEFINITION. One step of the machine. While a command is pending, the engine executes it when the host
waits or has no further move (30_encoding.md R100, R109), and the host may read STATUS before
(70_reset_and_hazards.md R350). While none is pending, the host makes its next move; with none left,
the run has ended and nothing changes (R355; log 7).
-/

namespace Sys2Proof.Machine

/-- The engine executes the pending word `w` (30_encoding.md R100): decode first, then the command. -/
def engineStep (w : Word) (s : State) : Host.Outcome State Fault Refusal :=
  match decode w with
  | .error _ => illegalCommand s
  | .ok i => exec i s

/-- One step. -/
def step (s : State) : Host.Outcome State Fault Refusal :=
  match s.pending, s.moves with
  | some w, [] => engineStep w s
  | some w, .wait :: ms => engineStep w { s with moves := ms }
  | some _, m :: ms => busyMove { s with moves := ms } m
  | none, [] => .next s
  | none, m :: ms => .next (idleMove { s with moves := ms } m)

/-- The state after the host has written the word `w` to CMD (10_state.md R36), with the engine's
turn as the very next thing to happen (log 5). -/
def State.withFetchWord (s : State) (_nbits w : Nat) : State :=
  { s with cmd := BitVec.ofNat 32 w, pending := some (BitVec.ofNat 32 w), moves := .wait :: s.moves }

end Sys2Proof.Machine
end

