-- ==== Sys2Proof/Safety.lean ====
section
/-!
DEFINITION. What counts as a good state and a safe run, in the terms the statements use: the
invariant, what a command may reach of OBUF, and running commands one after the other.
-/

namespace Sys2Proof.Machine

/-- The capacities and cursors are in the ranges the spec gives: 00_scope.md R7, 10_state.md R45
(`size(WS) ≤ WS_CAP`), R41 (`RPOS ≤ 8·RLEN`) and R38 with 60_exceptions.md R301 (`OLEN ≤ OBUF_CAP`). -/
abbrev State.countsInRange (s : State) : Prop :=
  s.params.legal ∧ s.ws.length ≤ s.params.wsCap ∧ s.rpos.toNat ≤ 8 * s.rlen.toNat ∧
    s.olen.toNat ≤ s.params.obufCap

/-- Every buffer is in canonical form and lists no address outside its space (20_memory.md R73, R74). -/
abbrev State.buffersInRange (s : State) : Prop :=
  (s.ibuf.wf ∧ s.ibuf.within s.params.ibufCap) ∧ (s.obuf.wf ∧ s.obuf.within s.params.obufCap) ∧
    (s.rbuf.wf ∧ s.rbuf.within s.params.rbufCap)

/-- The invariant of the machine. -/
abbrev State.Inv (s : State) : Prop := s.countsInRange ∧ s.buffersInRange

/-- Success since reset, as a claim about a program takes it (70_reset_and_hazards.md R355):
`STICKY = 0` and no command pending. -/
def State.succeeded (s : State) : Bool := !s.sticky && !s.busy

/-- The state error entry leaves of the state a command started in, for a command that does not write
OBUF (60_exceptions.md R305): `ERR`, `STICKY` and `PENDING` change, and nothing else. -/
def State.failedWith (s : State) (e : ErrCode) : State :=
  { s with err := e, sticky := true, pending := none }

/-- `t` is what error entry leaves of `s` for a command that would have written `n` bytes of OBUF
(60_exceptions.md R305): as `failedWith`, and OBUF is open below `n` only. The field `fails` is the
model's own. -/
def State.failedSpoiling (s : State) (n : Nat) (e : ErrCode) (t : State) : Prop :=
  t = { s with err := e, sticky := true, pending := none, obuf := t.obuf, fails := t.fails } ∧
    ∀ a, n ≤ a → t.obufByte a = s.obufByte a

/-- Read-stream bit `k`: bit `k mod 8` of `RBUF[k div 8]` (20_memory.md R70, 10_state.md R46). -/
def State.streamBit (s : State) (k : Nat) : Bool := (s.rbufByte (k / 8)).getLsbD (k % 8)

/-- The bits still to be read start with `bits` (10_state.md R41). -/
abbrev State.holdsBits (s : State) (bits : List Bool) : Prop :=
  s.rpos.toNat + bits.length ≤ 8 * s.rlen.toNat ∧
    ∀ k, k < bits.length → s.streamBit (s.rpos.toNat + k) = bits.getD k false

/-- The bits still to be read start with `bits`, and end before `n` more (60_exceptions.md R302). -/
abbrev State.endsWithin (s : State) (bits : List Bool) (n : Nat) : Prop :=
  s.holdsBits bits ∧ 8 * s.rlen.toNat < s.rpos.toNat + bits.length + n

/-- The bits still to be read start with `bits`, and end inside the monotonous code after them: before the
zero of its prefix, or among the `k` bits of its mantissa (41_monotonous.md R160, R162). -/
abbrev State.endsInCode (s : State) (bits : List Bool) : Prop :=
  ∃ k, s.endsWithin (bits ++ List.replicate k true) 1 ∨ s.endsWithin (bits ++ List.replicate k true ++ [false]) k

/-- A symbol as a raw 8-bit field, least significant bit first (20_memory.md R71). -/
def symbolBits (c : Byte) : List Bool := (List.range 8).map fun k => c.getLsbD k

/-- A raw integer field of width `n`: the low `n` bits of `v`, least significant first (20_memory.md R71). -/
def fieldBits (v n : Nat) : List Bool := (List.range n).map v.testBit

/-- The monotonous code of `i ≥ 1` (41_monotonous.md R160): `k = floor(log2 i)` ones, a zero, and the `k`
bits below the leading one. -/
def monoCode (i : Nat) : List Bool :=
  List.replicate (Nat.log2 i) true ++ false :: fieldBits i (Nat.log2 i)

/-- The header fields of the counts `cs`, `m` being the open slots at the first of them
(42_huffman.md R177, R183). -/
def headerFields (m : Nat) : List Nat → List Bool
  | [] => []
  | c :: cs => fieldBits c (bitsFor (m + 1)) ++ headerFields (2 * (m - c)) cs

/-- The open slots after the counts `cs`, from `m` of them on (42_huffman.md R183). -/
def openSlots (m : Nat) : List Nat → Nat
  | [] => m
  | c :: cs => openSlots (2 * (m - c)) cs

/-- The counts `cs` pass the checks of 42_huffman.md R183, from `m` open slots and `tot` leaves on. -/
def headerAccepted (m tot : Nat) : List Nat → Bool
  | [] => true
  | c :: cs => m ≠ 0 && tot + m ≤ 256 && c ≤ m && headerAccepted (2 * (m - c)) (tot + c) cs

/-- `σ` is the sequence of 45_bwt.md R261: the rotation indices of `data`, in ascending order of
`(rot_i, i)`. -/
def sortsRotations (data : List Byte) (σ : List Nat) : Prop :=
  σ.Perm (List.range data.length) ∧
    σ.Pairwise fun i j =>
      rotation data i < rotation data j ∨ (rotation data i = rotation data j ∧ i < j)

/-- `a` leaves the queue before `b`, as leaves of the input `data` (42_huffman.md R171, R172): by frequency,
then by symbol, which is the leaves' creation order. -/
abbrev leafBefore (data : List Byte) (a b : Byte) : Prop :=
  data.count a < data.count b ∨ (data.count a = data.count b ∧ a.toNat < b.toNat)

/-- The state a write command or encoder leaves that appends `bits` (40_bitstream.md R130): nothing else
changes. -/
def State.appended (s : State) (bits : List Bool) : State :=
  { s with ws := s.ws ++ bits, result0 := BitVec.ofNat 32 (s.ws.length + bits.length),
           result1 := BitVec.ofNat 32 bits.length, err := .noError, pending := none }

/-- A word that 30_encoding.md R105 calls illegal: `RSV ≠ 0`, or an opcode not in the table of R102, or
`F = 1` with an opcode other than those of RS_LOAD, LZW_ENC and LZW_DEC. -/
abbrev illegalWord (w : Word) : Prop :=
  w >>> 9 ≠ 0 ∨
    w.extractLsb' 0 8 ∉ ([0x00, 0x01, 0x02, 0x03, 0x04, 0x08, 0x09, 0x0A, 0x0B, 0x10, 0x11, 0x20, 0x21, 0x30,
      0x31, 0x40, 0x41, 0x50, 0x51, 0x52] : List Byte) ∨
    (w.getLsbD 8 = true ∧ w.extractLsb' 0 8 ∉ ([0x08, 0x40, 0x41] : List Byte))

/-- The state after a command (`exec` always answers a next state; the other two arms stay put). -/
def after (i : Instr) (s : State) : State :=
  match exec i s with
  | .next t => t
  | .fault _ => s
  | .refused _ => s

/-- How much of OBUF a command may write, or leave unspecified when it fails (60_exceptions.md R305):
its output length `N`, `n` or `ILEN`; for `BWT_DEC`, all of OBUF until the run lengths give `n` (log 4);
0 for a command that does not write OBUF. -/
def obufReach (i : Instr) (s : State) : Nat :=
  match i with
  | .hufDec | .lzssDec | .lzwDec _ => s.arg0.toNat
  | .bwtXform => s.ilen.toNat
  | .bwtDec =>
    if s.params.rbufCap < s.rlen.toNat then s.params.obufCap
    else
      match readRuns s.params.obufCap s.reader with
      | .ok (lens, _) => lens.sum
      | .error _ => s.params.obufCap
  | .nop | .wsClear | .wsBit | .wsBits | .wsInt | .rsLoad _ | .rsBit | .rsBits | .rsInt | .monoEnc
  | .monoDec | .hufEnc | .lzssEnc | .lzwEnc _ | .bwtEnc => 0

end Sys2Proof.Machine
end

