-- ==== Sys2Proof/Certificates/Slice0/Obligations.lean ====
section
/-!
DEFINITION. The statements for the provers. Each is over all states, and so over all capacities and
over every LZSS_PICK, since the parameters are part of the state. A state in a conclusion is written
out in full, so it says what the command leaves unchanged as well as what it changes.
-/

open Sys2Proof Sys2Proof.Machine

/-! ### Encoding (30_encoding.md) -/

/-- R102, R103: every row of the opcode map, with each value of `F` it allows, decodes to its command.
The words are written out from the map. -/
def Obligations.DecodeReadsTheOpcodeMap : Prop :=
  decode 0x00000000 = .ok .nop ∧ decode 0x00000001 = .ok .wsClear ∧ decode 0x00000002 = .ok .wsBit ∧
  decode 0x00000003 = .ok .wsBits ∧ decode 0x00000004 = .ok .wsInt ∧
  decode 0x00000008 = .ok (.rsLoad false) ∧ decode 0x00000108 = .ok (.rsLoad true) ∧
  decode 0x00000009 = .ok .rsBit ∧ decode 0x0000000A = .ok .rsBits ∧ decode 0x0000000B = .ok .rsInt ∧
  decode 0x00000010 = .ok .monoEnc ∧ decode 0x00000011 = .ok .monoDec ∧
  decode 0x00000020 = .ok .hufEnc ∧ decode 0x00000021 = .ok .hufDec ∧
  decode 0x00000030 = .ok .lzssEnc ∧ decode 0x00000031 = .ok .lzssDec ∧
  decode 0x00000040 = .ok (.lzwEnc false) ∧ decode 0x00000140 = .ok (.lzwEnc true) ∧
  decode 0x00000041 = .ok (.lzwDec false) ∧ decode 0x00000141 = .ok (.lzwDec true) ∧
  decode 0x00000050 = .ok .bwtEnc ∧ decode 0x00000051 = .ok .bwtDec ∧ decode 0x00000052 = .ok .bwtXform

/-- Decode and encode agree, both ways: a word decodes to a command exactly when the command is
well-formed and the word is its encoding. -/
def Obligations.DecodeInvertsEncode : Prop :=
  ∀ (i : Instr) (w : Word), decode w = .ok i ↔ (i.wellFormed = true ∧ encode i = w)

/-- R105, R308: a word decodes exactly when it is not illegal; an illegal pending word raises
ILLEGAL_COMMAND, and changes nothing else. That a WAIT with a command pending is one step, the engine's
turn, with no poll recorded, and that the engine also goes when no move is left, is the model's choice
(log 9). -/
def Obligations.IllegalWordsRaise : Prop :=
  ∀ w : Word,
    ((∃ i, decode w = .ok i) ↔ ¬ illegalWord w) ∧
    ∀ s : State, s.pending = some w → illegalWord w →
      (s.moves = [] → step s = .next (s.failedWith .illegalCommand)) ∧
      (∀ ms, s.moves = .wait :: ms →
        step s = .next ({ s with moves := ms }.failedWith .illegalCommand))

/-- R100: when the pending word decodes to a command, a step of the engine is `exec` of it. Around it a
step only takes the host's WAIT off the list of moves. R109's WAIT is a loop of STATUS reads; that it is one
step here, with no poll recorded, and that the engine also goes when no move is left, is the model's choice
(log 9). -/
def Obligations.StepRunsTheDecodedCommand : Prop :=
  ∀ (s : State) (w : Word) (i : Instr), s.pending = some w → decode w = .ok i →
    (s.moves = [] → step s = exec i s) ∧
    (∀ ms, s.moves = .wait :: ms → step s = exec i { s with moves := ms })

/-! ### Every command -/

/-- R354, R36, R32, R37, R47: every command, in every state, completes with BUSY = 0, and leaves alone
what only the host writes (the last four fields are the parameters and the model's host side). -/
def Obligations.CommandsCompleteAndKeepHostState : Prop :=
  ∀ (i : Instr) (s : State), ∃ t, exec i s = .next t ∧ t.pending = none ∧
    t.cmd = s.cmd ∧ t.arg0 = s.arg0 ∧ t.arg1 = s.arg1 ∧ t.arg2 = s.arg2 ∧ t.ilen = s.ilen ∧
    t.alpha = s.alpha ∧ t.ibuf = s.ibuf ∧ t.params = s.params ∧ t.moves = s.moves ∧
    t.replies = s.replies ∧ t.resets = s.resets

/-- R305: what a failed command leaves. `obufReach` is R305's `N`; for `BWT_DEC` failing before its run
lengths give `n`, it is all of OBUF, which is the model's choice (log 4). -/
def Obligations.FailedCommandRollsBack : Prop :=
  ∀ (i : Instr) (s t : State), exec i s = .next t → i ≠ .nop → t.err ≠ .noError →
    t.sticky = true ∧ t.pending = none ∧ t.ws = s.ws ∧ t.rpos = s.rpos ∧ t.result0 = s.result0 ∧
    t.result1 = s.result1 ∧ t.olen = s.olen ∧ t.rlen = s.rlen ∧ t.rbuf = s.rbuf ∧ t.arg0 = s.arg0 ∧
    t.arg1 = s.arg1 ∧ t.arg2 = s.arg2 ∧ t.ilen = s.ilen ∧ t.alpha = s.alpha ∧ t.ibuf = s.ibuf ∧
    ∀ a, obufReach i s ≤ a → t.obufByte a = s.obufByte a

/-- R300, the columns "code" and "raised by": each error is raised only by the commands listed for it,
and ILLEGAL_COMMAND by no command at all. -/
def Obligations.ErrorsAreRaisedAsListed : Prop :=
  ([.noError, .streamExhausted, .invalidBitValue, .unknownSymbol, .malformedHeader, .domainError,
    .capacityExceeded, .illegalCommand] : List ErrCode).map ErrCode.code = [0, 1, 2, 3, 4, 5, 6, 7] ∧
  ∀ (i : Instr) (s t : State), exec i s = .next t → i ≠ .nop →
    (t.err = .streamExhausted →
      i ∈ ([.rsBit, .rsInt, .monoDec, .hufDec, .lzssDec, .lzwDec false, .lzwDec true, .bwtDec] : List Instr)) ∧
    (t.err = .invalidBitValue → i = .wsBit) ∧
    (t.err = .unknownSymbol → i = .lzwEnc false) ∧
    (t.err = .malformedHeader →
      i ∈ ([.hufDec, .lzssDec, .lzwDec false, .lzwDec true, .bwtDec] : List Instr)) ∧
    (t.err = .domainError →
      i ∈ ([.wsBits, .rsBits, .rsInt, .monoEnc, .monoDec, .hufEnc, .bwtEnc, .bwtXform] : List Instr)) ∧
    (t.err = .capacityExceeded → i ≠ .wsClear) ∧
    t.err ≠ .illegalCommand

/-- R35, R49: a command other than NOP sets STICKY exactly when it raises an error, and never clears it. -/
def Obligations.StickyRecordsErrors : Prop :=
  ∀ (i : Instr) (s t : State), exec i s = .next t → i ≠ .nop →
    t.sticky = (s.sticky || decide (t.err ≠ .noError))

/-- R49, R311: STICKY stays 1 until reset, whatever the engine or the host does. -/
def Obligations.StickyStaysUntilReset : Prop :=
  ∀ s t : State, step s = .next t → s.sticky = true → (∀ ms, s.moves ≠ .reset :: ms) → t.sticky = true

/-- R104: an unused operand register is not read: with another value in it, a command does the same and
leaves that value there. That two such runs also agree on the bytes the spec leaves unspecified (OBUF after
a failed command, buffer bytes never written) is the model's choice: its free values are keyed alike in both
(log 4 and log 3, each unsafe for a claim that compares two runs). -/
def Obligations.UnusedArgumentsHaveNoEffect : Prop :=
  ∀ (i : Instr) (s t : State) (v : Word), exec i s = .next t →
    (i ∉ ([.wsBit, .wsBits, .wsInt, .monoEnc, .hufDec, .lzssDec, .lzwDec false, .lzwDec true] : List Instr) →
      exec i { s with arg0 := v } = .next { t with arg0 := v }) ∧
    (i ∉ ([.wsBits, .wsInt, .rsBits, .rsInt, .lzssEnc, .lzssDec, .bwtEnc, .bwtDec] : List Instr) →
      exec i { s with arg1 := v } = .next { t with arg1 := v }) ∧
    (i ≠ .wsBits → exec i { s with arg2 := v } = .next { t with arg2 := v })

/-! ### Frames -/

/-- R45, R130, R305: the write commands and the encoders change the write stream, the two result
registers and the flags, and nothing else. So every byte of IBUF, OBUF and RBUF, RLEN, RPOS and OLEN
stay. R131: bits already in the write stream stay too; only WS_CLEAR empties it. -/
def Obligations.WriteCommandsFrame : Prop :=
  ∀ (i : Instr) (s t : State), exec i s = .next t →
    i ∈ ([.wsClear, .wsBit, .wsBits, .wsInt, .monoEnc, .hufEnc, .lzssEnc, .lzwEnc false, .lzwEnc true,
      .bwtEnc] : List Instr) →
    t = { s with ws := t.ws, result0 := t.result0, result1 := t.result1, err := t.err, sticky := t.sticky,
                 pending := none } ∧
    (i ≠ .wsClear → s.ws <+: t.ws)

/-- R41, R139: the read commands change the cursor, the two result registers and the flags, and nothing
else. In particular RBUF is "immutable". -/
def Obligations.ReadCommandsFrame : Prop :=
  ∀ (i : Instr) (s t : State), exec i s = .next t →
    i ∈ ([.rsBit, .rsBits, .rsInt, .monoDec] : List Instr) →
    t = { s with rpos := t.rpos, result0 := t.result0, result1 := t.result1, err := t.err,
                 sticky := t.sticky, pending := none }

/-- R38, R139, R352: the decode commands and BWT_XFORM change OBUF, OLEN, the cursor, the two result
registers and the flags, and nothing else (`fails` is the model's own); of OBUF, the bytes at and above
the output length stay (for a `BWT_DEC` that fails early, `obufReach` is the model's choice, log 4);
BWT_XFORM leaves the cursor too. -/
def Obligations.DecodeCommandsFrame : Prop :=
  ∀ (i : Instr) (s t : State), exec i s = .next t →
    i ∈ ([.hufDec, .lzssDec, .lzwDec false, .lzwDec true, .bwtDec, .bwtXform] : List Instr) →
    t = { s with obuf := t.obuf, olen := t.olen, rpos := t.rpos, result0 := t.result0,
                 result1 := t.result1, err := t.err, sticky := t.sticky, pending := none,
                 fails := t.fails } ∧
    (∀ a, obufReach i s ≤ a → t.obufByte a = s.obufByte a) ∧
    (i = .bwtXform → t.rpos = s.rpos)

/-! ### NOP and the BitStream commands (30_encoding.md, 40_bitstream.md) -/

/-- R111: the word 0 is NOP, and has no effect but that BUSY returns to 0; any other word with `OPC = 0`
is no NOP and raises ILLEGAL_COMMAND. -/
def Obligations.NopHasNoEffect : Prop :=
  (∀ w : Word, decode w = .ok .nop ↔ w = 0x00000000) ∧
  (∀ s : State, exec .nop s = .next { s with pending := none }) ∧
  ∀ (s : State) (w : Word), w.extractLsb' 0 8 = 0 → w ≠ 0 →
    engineStep w s = .next (s.failedWith .illegalCommand)

/-- R138. -/
def Obligations.WsClearEmptiesTheStream : Prop :=
  decode 0x00000001 = .ok .wsClear ∧
  ∀ s : State,
    exec .wsClear s =
      .next { s with ws := [], result0 := 0, result1 := 0, err := .noError, pending := none }

/-- R132, with R131 and R309: one bit is appended when ARG0 is 0 or 1 and there is room; any other ARG0 is
INVALID_BIT_VALUE, room or not; a full stream is CAPACITY_EXCEEDED. -/
def Obligations.WsBitAppendsOneBit : Prop :=
  decode 0x00000002 = .ok .wsBit ∧
  ∀ s : State,
    (∀ b : Bool, s.arg0 = (if b then 1 else 0) → s.ws.length < s.params.wsCap →
      exec .wsBit s =
        .next { s with ws := s.ws ++ [b], result0 := BitVec.ofNat 32 (s.ws.length + 1), result1 := 1,
                       err := .noError, pending := none }) ∧
    (s.arg0 ≠ 0 → s.arg0 ≠ 1 → exec .wsBit s = .next (s.failedWith .invalidBitValue)) ∧
    (s.arg0 = 0 ∨ s.arg0 = 1 → s.ws.length = s.params.wsCap →
      exec .wsBit s = .next (s.failedWith .capacityExceeded))

/-- R133: exactly `n` bits are appended, element `k` of the sequence for `k < L` and 0 after it;
`L > 32` is DOMAIN_ERROR, and otherwise bits that do not fit are CAPACITY_EXCEEDED. -/
def Obligations.WsBitsAppendsTheSequence : Prop :=
  decode 0x00000003 = .ok .wsBits ∧
  ∀ s : State,
    (s.arg2.toNat ≤ 32 → s.ws.length + s.arg1.toNat ≤ s.params.wsCap →
      exec .wsBits s =
        .next { s with
          ws := s.ws ++ (List.range s.arg1.toNat).map fun k => decide (k < s.arg2.toNat) && s.arg0.getLsbD k,
          result0 := BitVec.ofNat 32 (s.ws.length + s.arg1.toNat), result1 := s.arg1,
          err := .noError, pending := none }) ∧
    (32 < s.arg2.toNat → exec .wsBits s = .next (s.failedWith .domainError)) ∧
    (s.arg2.toNat ≤ 32 → s.params.wsCap < s.ws.length + s.arg1.toNat →
      exec .wsBits s = .next (s.failedWith .capacityExceeded))

/-- R134, R135: the low `n` bits of ARG0 are appended, least significant first, zeros from bit 32 on;
bits that do not fit are CAPACITY_EXCEEDED. -/
def Obligations.WsIntAppendsTheLowBits : Prop :=
  decode 0x00000004 = .ok .wsInt ∧
  ∀ s : State,
    (s.ws.length + s.arg1.toNat ≤ s.params.wsCap →
      exec .wsInt s =
        .next { s with
          ws := s.ws ++ (List.range s.arg1.toNat).map fun k => s.arg0.toNat.testBit k,
          result0 := BitVec.ofNat 32 (s.ws.length + s.arg1.toNat), result1 := s.arg1,
          err := .noError, pending := none }) ∧
    (s.params.wsCap < s.ws.length + s.arg1.toNat →
      exec .wsInt s = .next (s.failedWith .capacityExceeded))

/-- R140, R75: with `F = 0`, RBUF gets the byte image of the write stream and keeps its other bytes, RLEN
its length, RPOS 0; an image longer than RBUF is CAPACITY_EXCEEDED. With `F = 1`, RPOS goes to 0 and
RBUF stays; RLEN above RBUF_CAP is CAPACITY_EXCEEDED. -/
def Obligations.RsLoadCopiesOrRewinds : Prop :=
  decode 0x00000008 = .ok (.rsLoad false) ∧ decode 0x00000108 = .ok (.rsLoad true) ∧
  ∀ s : State, ∀ nb : Nat, nb = (s.ws.length + 7) / 8 →
    (nb ≤ s.params.rbufCap →
      ∃ t, exec (.rsLoad false) s = .next t ∧
        t = { s with rbuf := t.rbuf, rlen := BitVec.ofNat 32 nb, rpos := 0,
                     result0 := BitVec.ofNat 32 (8 * nb), result1 := 0, err := .noError,
                     pending := none } ∧
        (∀ j, j < nb → ∀ i, i < 8 → (t.rbufByte j).getLsbD i = s.ws.getD (8 * j + i) false) ∧
        ∀ j, nb ≤ j → t.rbufByte j = s.rbufByte j) ∧
    (s.params.rbufCap < nb → exec (.rsLoad false) s = .next (s.failedWith .capacityExceeded)) ∧
    (s.rlen.toNat ≤ s.params.rbufCap →
      exec (.rsLoad true) s =
        .next { s with rpos := 0, result0 := BitVec.ofNat 32 (8 * s.rlen.toNat), result1 := 0,
                       err := .noError, pending := none }) ∧
    (s.params.rbufCap < s.rlen.toNat → exec (.rsLoad true) s = .next (s.failedWith .capacityExceeded))

/-- R142, R141, R139: the bit at the cursor is delivered and the cursor moves by one; no bit left is
STREAM_EXHAUSTED; RLEN above RBUF_CAP is CAPACITY_EXCEEDED, whatever is left. -/
def Obligations.RsBitReadsOneBit : Prop :=
  decode 0x00000009 = .ok .rsBit ∧
  ∀ s : State,
    (s.rlen.toNat ≤ s.params.rbufCap → s.rpos.toNat < 8 * s.rlen.toNat →
      exec .rsBit s =
        .next { s with rpos := s.rpos + 1, result0 := if s.streamBit s.rpos.toNat then 1 else 0,
                       result1 := 1, err := .noError, pending := none }) ∧
    (s.rlen.toNat ≤ s.params.rbufCap → 8 * s.rlen.toNat ≤ s.rpos.toNat →
      exec .rsBit s = .next (s.failedWith .streamExhausted)) ∧
    (s.params.rbufCap < s.rlen.toNat → exec .rsBit s = .next (s.failedWith .capacityExceeded))

/-- R143: at most `n ≤ 32` bits are read, clamped to what is available, and bit `k` of RESULT0 is the
`k`-th of them; `n > 32` is DOMAIN_ERROR. It never raises STREAM_EXHAUSTED. -/
def Obligations.RsBitsClamps : Prop :=
  decode 0x0000000A = .ok .rsBits ∧
  ∀ s : State, s.rlen.toNat ≤ s.params.rbufCap →
    (∀ m, s.arg1.toNat ≤ 32 → m = min s.arg1.toNat (8 * s.rlen.toNat - s.rpos.toNat) →
      ∃ t, exec .rsBits s = .next t ∧
        t = { s with rpos := s.rpos + BitVec.ofNat 32 m, result0 := t.result0,
                     result1 := BitVec.ofNat 32 m, err := .noError, pending := none } ∧
        ∀ k, k < 32 → t.result0.getLsbD k = (decide (k < m) && s.streamBit (s.rpos.toNat + k))) ∧
    (32 < s.arg1.toNat → exec .rsBits s = .next (s.failedWith .domainError))

/-- R145, R144: exactly `n ≤ 32` bits are read as an unsigned integer, least significant first; fewer
than `n` left is STREAM_EXHAUSTED, `n > 32` is DOMAIN_ERROR. -/
def Obligations.RsIntReadsAnInteger : Prop :=
  decode 0x0000000B = .ok .rsInt ∧
  ∀ s : State, s.rlen.toNat ≤ s.params.rbufCap →
    (s.arg1.toNat ≤ 32 → s.arg1.toNat ≤ 8 * s.rlen.toNat - s.rpos.toNat →
      ∃ t, exec .rsInt s = .next t ∧
        t = { s with rpos := s.rpos + s.arg1, result0 := t.result0, result1 := s.arg1,
                     err := .noError, pending := none } ∧
        ∀ k, k < 32 →
          t.result0.getLsbD k = (decide (k < s.arg1.toNat) && s.streamBit (s.rpos.toNat + k))) ∧
    (32 < s.arg1.toNat → exec .rsInt s = .next (s.failedWith .domainError)) ∧
    (s.arg1.toNat ≤ 32 → 8 * s.rlen.toNat - s.rpos.toNat < s.arg1.toNat →
      exec .rsInt s = .next (s.failedWith .streamExhausted))

/-- R146, second law: after WS_CLEAR, WS_INT v, k with k ≤ 32, RS_LOAD and RS_INT k, RESULT0 is
`v mod 2^k`. ARG0 and ARG1 hold `v` and `k` throughout. -/
def Obligations.StreamReturnsWhatWasWritten : Prop :=
  ∀ s : State, s.arg1.toNat ≤ 32 → s.arg1.toNat ≤ s.params.wsCap → 4 ≤ s.params.rbufCap →
    ∃ t, exec .rsInt (after (.rsLoad false) (after .wsInt (after .wsClear s))) = .next t ∧
      t.err = .noError ∧ t.result0.toNat = s.arg0.toNat % 2 ^ s.arg1.toNat

/-! ### The monotonous coder (41_monotonous.md) -/

/-- R161, R160: `MONO_ENC i` appends `k = floor(log2 i)` ones, a zero and the `k` low bits of `i`, least
significant first; 0 is DOMAIN_ERROR, room or not; bits that do not fit are CAPACITY_EXCEEDED. -/
def Obligations.MonoEncAppendsTheCode : Prop :=
  decode 0x00000010 = .ok .monoEnc ∧
  ∀ (s : State) (k : Nat), k = Nat.log2 s.arg0.toNat →
    (s.arg0 ≠ 0 → s.ws.length + (2 * k + 1) ≤ s.params.wsCap →
      exec .monoEnc s =
        .next { s with
          ws := s.ws ++ (List.replicate k true ++ [false] ++
            (List.range k).map fun t => s.arg0.toNat.testBit t),
          result0 := BitVec.ofNat 32 (s.ws.length + (2 * k + 1)),
          result1 := BitVec.ofNat 32 (2 * k + 1), err := .noError, pending := none }) ∧
    (s.arg0 = 0 → exec .monoEnc s = .next (s.failedWith .domainError)) ∧
    (s.arg0 ≠ 0 → s.params.wsCap < s.ws.length + (2 * k + 1) →
      exec .monoEnc s = .next (s.failedWith .capacityExceeded))

/-- R163: a stream that goes on with `k < 32` ones, a zero and `k` mantissa bits `bs` gives `2^k` plus
what they spell; 32 ones are DOMAIN_ERROR; a stream that ends inside the code is STREAM_EXHAUSTED. -/
def Obligations.MonoDecReadsTheCode : Prop :=
  decode 0x00000011 = .ok .monoDec ∧
  ∀ s : State, s.rlen.toNat ≤ s.params.rbufCap →
    (∀ (k : Nat) (bs : List Bool), k < 32 → bs.length = k →
      s.holdsBits (List.replicate k true ++ [false] ++ bs) →
      exec .monoDec s =
        .next { s with rpos := s.rpos + BitVec.ofNat 32 (2 * k + 1),
                       result0 := BitVec.ofNat 32 (2 ^ k + natOfBits bs),
                       result1 := BitVec.ofNat 32 (2 * k + 1), err := .noError, pending := none }) ∧
    (s.holdsBits (List.replicate 32 true) → exec .monoDec s = .next (s.failedWith .domainError)) ∧
    (∀ k, k < 32 → s.holdsBits (List.replicate k true) → 8 * s.rlen.toNat = s.rpos.toNat + k →
      exec .monoDec s = .next (s.failedWith .streamExhausted)) ∧
    (∀ k, k < 32 → s.holdsBits (List.replicate k true ++ [false]) →
      8 * s.rlen.toNat < s.rpos.toNat + (2 * k + 1) →
      exec .monoDec s = .next (s.failedWith .streamExhausted))

/-- R164: the code of `i ≥ 1` has `2·floor(log2 i) + 1` bits, and MONO_DEC of it returns `i`. -/
def Obligations.MonoRoundTrip : Prop :=
  ∀ s : State, s.arg0 ≠ 0 → 63 ≤ s.params.wsCap → 8 ≤ s.params.rbufCap →
    (after .monoEnc (after .wsClear s)).ws.length = 2 * Nat.log2 s.arg0.toNat + 1 ∧
    ∃ t, exec .monoDec (after (.rsLoad false) (after .monoEnc (after .wsClear s))) = .next t ∧
      t.err = .noError ∧ t.result0 = s.arg0 ∧ t.result1.toNat = 2 * Nat.log2 s.arg0.toNat + 1

/-! ### Widths and the alphabet -/

/-- R12: `bitsFor(k)` is the least `b` with `2^b ≥ k`. -/
def Obligations.BitsForIsLeastWidth : Prop :=
  ∀ k : Nat, k ≤ 2 ^ bitsFor k ∧ ∀ b, k ≤ 2 ^ b → bitsFor k ≤ b

/-- R42, R230: a symbol is in the alphabet exactly when its bit of ALPHA is 1, and the alphabet is
listed in ascending order. -/
def Obligations.AlphabetIsTheSetBits : Prop :=
  ∀ s : State,
    (∀ (c : Byte) (j : Fin 8), j.val = c.toNat / 32 →
      (c ∈ s.alphabet ↔ (s.alpha[j]).getLsbD (c.toNat % 32) = true)) ∧
    s.alphabet.Pairwise fun a b => a.toNat < b.toNat

/-! ### The encoders -/

/-- R180, R207, R265: HUF_ENC, LZSS_ENC and BWT_ENC append what their coder writes for IBUF[0 .. ILEN)
when it fits; the checks come in the order of the pseudocode. R264: what the BWT coder writes is the run
count and each run length in order as monotonous codes, the rank, which is the place of `rot_0` in sorted
order, in `bitsFor(n)` bits, and the LZSS code of the run symbols; the runs are those of the last symbols of
the sorted rotations (R262, R263). -/
def Obligations.EncodersAppendTheirOutput : Prop :=
  ∀ (i : Instr) (s : State) (bits : List Bool),
    (i = .hufEnc ∧ bits = huffBits s.inputBytes) ∨
      (i = .lzssEnc ∧ bits = lzssBits s.params.pick s.arg1.toNat s.inputBytes) ∨
      (i = .bwtEnc ∧ bits = bwtBits s.params.pick s.arg1.toNat s.inputBytes) →
    (s.ilen.toNat ≤ s.params.ibufCap → s.ilen ≠ 0 ∨ i = .lzssEnc →
      s.ws.length + bits.length ≤ s.params.wsCap →
      exec i s =
        .next { s with ws := s.ws ++ bits, result0 := BitVec.ofNat 32 (s.ws.length + bits.length),
                       result1 := BitVec.ofNat 32 bits.length, err := .noError, pending := none }) ∧
    (s.params.ibufCap < s.ilen.toNat → exec i s = .next (s.failedWith .capacityExceeded)) ∧
    (s.ilen.toNat ≤ s.params.ibufCap → s.ilen = 0 → i ≠ .lzssEnc →
      exec i s = .next (s.failedWith .domainError)) ∧
    (s.ilen.toNat ≤ s.params.ibufCap → s.ilen ≠ 0 ∨ i = .lzssEnc →
      s.params.wsCap < s.ws.length + bits.length → exec i s = .next (s.failedWith .capacityExceeded)) ∧
    ∀ n, i = .bwtEnc → n = s.ilen.toNat → n ≠ 0 →
      ∃ (σ : List Nat) (rank : Nat) (runs : List (Byte × Nat)), sortsRotations s.inputBytes σ ∧
        σ.getD rank n = 0 ∧ runs = bwtRuns (σ.map fun k => s.ibufByte ((k + n - 1) % n)) ∧
        bits = monoCode runs.length ++ runs.flatMap (fun x => monoCode x.2) ++ fieldBits rank (bitsFor n) ++
          lzssBits s.params.pick s.arg1.toNat (runs.map Prod.fst)

/-- R181: `n` copies of one symbol encode to 9 bits, the field `c_0 = 1` and the symbol. By R171 to R179, an
input with exactly two distinct symbols `a < b`, whatever their frequencies (R181 names 3 and 1), gets two codes
of length 1 after the fields `c_0 = 0` in 1 bit and `c_1 = 2` in 2 bits. For three symbols: the one that comes last
by frequency and then by symbol, `z`, has the code 0, and the other two, ascending, the codes 10 and 11, after
the counts 0, 1 and 2 and the list of symbols by depth. And, for four symbols `a < b < c < d` with `c` and `d`
each twice as frequent as `a` and `b`: `c` and `d` were created before the node of `a` and `b`, which is as
frequent as they are, so they are merged with each other and all four codes have length 2. -/
def Obligations.HufEncOneOrTwoSymbols : Prop :=
  ∀ s : State, s.ilen.toNat ≤ s.params.ibufCap →
    (∀ c : Byte, s.ilen ≠ 0 → (∀ k, k < s.ilen.toNat → s.ibufByte k = c) →
      s.ws.length + 9 ≤ s.params.wsCap →
      exec .hufEnc s =
        .next { s with ws := s.ws ++ true :: symbolBits c,
                       result0 := BitVec.ofNat 32 (s.ws.length + 9), result1 := 9, err := .noError,
                       pending := none }) ∧
    (∀ a b : Byte, a.toNat < b.toNat →
      (∀ k, k < s.ilen.toNat → s.ibufByte k = a ∨ s.ibufByte k = b) →
      (∃ k, k < s.ilen.toNat ∧ s.ibufByte k = a) → (∃ k, k < s.ilen.toNat ∧ s.ibufByte k = b) →
      s.ws.length + (19 + s.ilen.toNat) ≤ s.params.wsCap →
      exec .hufEnc s =
        .next { s with
          ws := s.ws ++ ([false] ++ [false, true] ++ symbolBits a ++ symbolBits b ++
            (List.range s.ilen.toNat).map fun k => decide (s.ibufByte k = b)),
          result0 := BitVec.ofNat 32 (s.ws.length + (19 + s.ilen.toNat)),
          result1 := BitVec.ofNat 32 (19 + s.ilen.toNat), err := .noError, pending := none }) ∧
    (∀ (x y z : Byte) (bits : List Bool), x.toNat < y.toNat → x ∈ s.inputBytes → y ∈ s.inputBytes →
      z ∈ s.inputBytes → (∀ e ∈ s.inputBytes, e = x ∨ e = y ∨ e = z) → leafBefore s.inputBytes x z →
      leafBefore s.inputBytes y z →
      bits = [false] ++ [true, false] ++ [false, true] ++ symbolBits z ++ symbolBits x ++ symbolBits y ++
        s.inputBytes.flatMap (fun e => if e = z then [false] else [true, decide (e = y)]) →
      s.ws.length + bits.length ≤ s.params.wsCap → exec .hufEnc s = .next (s.appended bits)) ∧
    ∀ (a b c d : Byte) (f : Nat) (bits : List Bool), a.toNat < b.toNat → b.toNat < c.toNat →
      c.toNat < d.toNat → (∀ e ∈ s.inputBytes, e = a ∨ e = b ∨ e = c ∨ e = d) → f ≠ 0 →
      s.inputBytes.count a = f → s.inputBytes.count b = f → s.inputBytes.count c = 2 * f →
      s.inputBytes.count d = 2 * f →
      bits = [false] ++ [false, false] ++ [false, false, true] ++ symbolBits a ++ symbolBits b ++
        symbolBits c ++ symbolBits d ++
        s.inputBytes.flatMap (fun e => [decide (e = c ∨ e = d), decide (e = b ∨ e = d)]) →
      s.ws.length + bits.length ≤ s.params.wsCap → exec .hufEnc s = .next (s.appended bits)

/-- R207, corner case `M = 0`: the window stays empty, so every byte is a literal of 9 bits. -/
def Obligations.LzssEncWindowZeroIsLiterals : Prop :=
  ∀ s : State, s.arg1 = 0 → s.ilen.toNat ≤ s.params.ibufCap →
    s.ws.length + 9 * s.ilen.toNat ≤ s.params.wsCap →
    exec .lzssEnc s =
      .next { s with
        ws := s.ws ++ (List.range s.ilen.toNat).flatMap fun k => false :: symbolBits (s.ibufByte k),
        result0 := BitVec.ofNat 32 (s.ws.length + 9 * s.ilen.toNat),
        result1 := BitVec.ofNat 32 (9 * s.ilen.toNat), err := .noError, pending := none }

/-- R202, R203, R204, R207: emissions with a match. A run of `n` equal bytes is a literal and, with a window
bound of at least `n − 1`, one overlapping match of length `n − 1` at distance 0, in 0 bits; with bound 1,
`n − 1` matches of length 1. The alternation of two bytes is two literals and one match of the rest at
distance 1, in 1 bit. These hold for every LZSS_PICK, since one candidate survives. And R207's example:
eight alternating bytes with bound 4 and the default pick are two literals, a match of length 4 at distance
1, and one of length 2 at distance 3 in 2 bits. -/
def Obligations.LzssEncEmitsMatches : Prop :=
  ∀ (s : State) (n : Nat) (bits : List Bool), n = s.ilen.toNat → n ≤ s.params.ibufCap →
    s.ws.length + bits.length ≤ s.params.wsCap →
    (∀ c, (∀ k, k < n → s.ibufByte k = c) →
      (2 ≤ n → n ≤ s.arg1.toNat + 1 → bits = false :: symbolBits c ++ true :: monoCode (n - 1) →
        exec .lzssEnc s = .next (s.appended bits)) ∧
      (1 ≤ n → s.arg1 = 1 → bits = false :: symbolBits c ++ (List.replicate (n - 1) [true, false]).flatten →
        exec .lzssEnc s = .next (s.appended bits))) ∧
    ∀ a b, a ≠ b → (∀ k, k < n → s.ibufByte k = if k % 2 = 0 then a else b) →
      (3 ≤ n → 2 ≤ s.arg1.toNat → n ≤ s.arg1.toNat + 2 →
        bits = false :: symbolBits a ++ false :: symbolBits b ++ [true, true] ++ monoCode (n - 2) →
        exec .lzssEnc s = .next (s.appended bits)) ∧
      (s.params.pick = .minPosition → n = 8 → s.arg1 = 4 →
        bits = false :: symbolBits a ++ false :: symbolBits b ++ [true, true] ++ monoCode 4 ++
          [true, true, true] ++ monoCode 2 →
        exec .lzssEnc s = .next (s.appended bits))

/-- R205: the default choice is the least candidate, and every choice is a candidate. -/
def Obligations.LzssPickTakesACandidate : Prop :=
  ∀ (rule : PickRule) (ps : List Nat), ps ≠ [] →
    pickCandidate rule ps ∈ ps ∧ (rule = .minPosition → ∀ p ∈ ps, pickCandidate rule ps ≤ p)

/-- R239, R231: LZW_ENC completes in escape mode on any input, and without escape on an input over its
alphabet, when there is room for its longest output: 34 bits a byte, a code of at most 26 and a symbol. It
appends what its coder writes. And, by R232 to R237, three inputs that extend a match: `ababab` in escape
mode with an empty alphabet (R239's example) is escape `a`, escape `b`, id 2 and id 2; `cccc` there is an
escape and three codes of id 1, since it may not land on the newest node; and `cccc` without escape over the
alphabet `c` is id 0, id 1 and id 0. -/
def Obligations.LzwEncCompletes : Prop :=
  (∀ (esc : Bool) (s : State), s.params.legal → s.ilen.toNat ≤ s.params.ibufCap →
    (esc = true ∨ ∀ a, a < s.ilen.toNat → s.ibufByte a ∈ s.alphabet) →
    s.ws.length + 34 * s.ilen.toNat ≤ s.params.wsCap →
    ∃ (t : State) (bits : List Bool), exec (.lzwEnc esc) s = .next t ∧
      bits.length ≤ 34 * s.ilen.toNat ∧
      lzwEncode esc s.alphabet s.params.wsCap s.ws s.inputBytes = .ok (s.ws ++ bits) ∧
      t = s.appended bits) ∧
  (∀ (s : State) (a b : Byte), s.ilen.toNat = 6 → 6 ≤ s.params.ibufCap → (∀ c, c ∉ s.alphabet) → a ≠ b →
    (∀ k, k < 6 → s.ibufByte k = if k % 2 = 0 then a else b) → s.ws.length + 24 ≤ s.params.wsCap →
    exec (.lzwEnc true) s =
      .next (s.appended (symbolBits a ++ [false, false] ++ symbolBits b ++ [false, true, false] ++
        [false, true, false]))) ∧
  ∀ (s : State) (c : Byte), s.ilen.toNat = 4 → 4 ≤ s.params.ibufCap → (∀ k, k < 4 → s.ibufByte k = c) →
    ((∀ x, x ∉ s.alphabet) → s.ws.length + 15 ≤ s.params.wsCap →
      exec (.lzwEnc true) s =
        .next (s.appended (symbolBits c ++ [true, false] ++ [true, false] ++ [true, false, false]))) ∧
    (s.alphabet = [c] → s.ws.length + 3 ≤ s.params.wsCap →
      exec (.lzwEnc false) s = .next (s.appended [true, false, false]))

/-- R304: UNKNOWN_SYMBOL is raised only by LZW_ENC with `F = 0` on an input with a byte outside `A`, and
it is raised for every such input when there is room for 34 bits a byte. R309: without that room the error is
the one the coder meets first. A first byte outside `A` comes before any bit; of two bytes with only the second
outside `A`, the first byte's code is written before (R234 to R236), so CAPACITY_EXCEEDED is raised when that
does not fit, and UNKNOWN_SYMBOL when it does. R239: an input the coder can encode, in either mode, raises
CAPACITY_EXCEEDED when what it would write does not fit (`cap` is a capacity with room for it). -/
def Obligations.UnknownSymbolExactly : Prop :=
  (∀ (i : Instr) (s t : State), exec i s = .next t → i ≠ .nop → t.err = .unknownSymbol →
    i = .lzwEnc false ∧ ∃ a, a < s.ilen.toNat ∧ s.ibufByte a ∉ s.alphabet) ∧
  (∀ s : State, s.params.legal → s.ilen.toNat ≤ s.params.ibufCap →
    (∃ a, a < s.ilen.toNat ∧ s.ibufByte a ∉ s.alphabet) →
    s.ws.length + 34 * s.ilen.toNat ≤ s.params.wsCap →
    exec (.lzwEnc false) s = .next (s.failedWith .unknownSymbol)) ∧
  (∀ s : State, 1 ≤ s.ilen.toNat → s.ilen.toNat ≤ s.params.ibufCap → s.ibufByte 0 ∉ s.alphabet →
    exec (.lzwEnc false) s = .next (s.failedWith .unknownSymbol)) ∧
  (∀ s : State, s.ilen = 2 → 2 ≤ s.params.ibufCap → s.ibufByte 0 ∈ s.alphabet → s.ibufByte 1 ∉ s.alphabet →
    (s.params.wsCap < s.ws.length + bitsFor s.alphabet.length →
      exec (.lzwEnc false) s = .next (s.failedWith .capacityExceeded)) ∧
    (s.ws.length + bitsFor s.alphabet.length ≤ s.params.wsCap →
      exec (.lzwEnc false) s = .next (s.failedWith .unknownSymbol))) ∧
  ∀ (esc : Bool) (s : State) (cap : Nat) (bits : List Bool), s.ilen.toNat ≤ s.params.ibufCap →
    s.ws.length ≤ s.params.wsCap →
    lzwEncode esc s.alphabet cap s.ws s.inputBytes = .ok (s.ws ++ bits) →
    s.params.wsCap < s.ws.length + bits.length →
    exec (.lzwEnc esc) s = .next (s.failedWith .capacityExceeded)

/-- R266, R260, R261, R262: BWT_XFORM delivers the last symbols of the rotations in sorted order and the
position of the message among them: `σ` is an arrangement of `0 .. n−1` in ascending order of
`(rot_i, i)`. R266, R307: an empty message is DOMAIN_ERROR. -/
def Obligations.BwtXformSortsRotations : Prop :=
  (∀ (s : State) (n : Nat), n = s.ilen.toNat → n ≤ s.params.ibufCap → n ≤ s.params.obufCap → n ≠ 0 →
    ∃ (t : State) (σ : List Nat), exec .bwtXform s = .next t ∧ sortsRotations s.inputBytes σ ∧
      (∀ k, k < n → t.obufByte k = s.ibufByte ((σ.getD k 0 + n - 1) % n)) ∧
      (∀ a, n ≤ a → t.obufByte a = s.obufByte a) ∧
      σ.getD t.result0.toNat n = 0 ∧
      t = { s with obuf := t.obuf, olen := s.ilen, result0 := t.result0, result1 := s.ilen,
                   err := .noError, pending := none }) ∧
  ∀ s : State, s.ilen = 0 → ∃ t, exec .bwtXform s = .next t ∧ s.failedSpoiling 0 .domainError t

/-- R263: the runs spell `L`, each run is 1 to 256 long, and a run is followed by one of the same symbol
only when it was split at 256. -/
def Obligations.RunsSpellTheColumn : Prop :=
  ∀ l : List Byte,
    (bwtRuns l).flatMap (fun x => List.replicate x.2 x.1) = l ∧
    (∀ x ∈ bwtRuns l, 1 ≤ x.2 ∧ x.2 ≤ 256) ∧
    (bwtRuns l).IsChain fun x y => x.1 ≠ y.1 ∨ x.2 = 256

/-! ### The decoders -/

/-- R182, R208, R240, R268: a decoder that accepts the stream delivers its output: OBUF[0 .. n), OLEN,
RESULT0 and the bits consumed; the other bytes of OBUF stay. -/
def Obligations.DecodersDeliverTheirOutput : Prop :=
  ∀ (i : Instr) (s : State) (n : Nat) (out : List Byte) (r : Reader),
    s.rlen.toNat ≤ s.params.rbufCap → n ≤ s.params.obufCap → out.length = n →
    (n = s.arg0.toNat ∧
        ((i = .hufDec ∧ huffDecode n s.reader = .ok (out, r)) ∨
          (i = .lzssDec ∧ lzssDecode s.arg1.toNat n s.reader = .ok (out, r)) ∨
          ∃ esc, i = .lzwDec esc ∧ lzwDecode esc s.alphabet n s.reader = .ok (out, r))) ∨
      (i = .bwtDec ∧ ∃ lens r', readRuns s.params.obufCap s.reader = .ok (lens, r') ∧ n = lens.sum ∧
        readMessage s.arg1.toNat n lens r' = .ok (out, r)) →
    ∃ t, exec i s = .next t ∧ (∀ a, t.obufByte a = if a < n then out.getD a 0 else s.obufByte a) ∧
      t = { s with obuf := t.obuf, olen := BitVec.ofNat 32 n, rpos := BitVec.ofNat 32 r.pos,
                   result0 := BitVec.ofNat 32 n,
                   result1 := BitVec.ofNat 32 (r.pos - s.rpos.toNat), err := .noError,
                   pending := none }

/-- R182, corner case `c_0 = 1`: the header bit 1 and one symbol decode to `N` copies of it, and only
those 9 bits are read. R183: after any counts `cs` that pass, a count above the open slots is
MALFORMED_HEADER, and so is a depth where the leaves so far and the open slots are more than 256; the least
such header, 3 leaves where 2 slots are open, is spelled out. R182, R302: a stream that ends inside a field
of the header, in the symbol list, or, with two leaves, where the next of the `N` codes should stand, is
STREAM_EXHAUSTED. -/
def Obligations.HufDecOneLeafOrOverfull : Prop :=
  ∀ s : State, s.rlen.toNat ≤ s.params.rbufCap → s.arg0.toNat ≤ s.params.obufCap →
    (∀ c : Byte, s.holdsBits (true :: symbolBits c) →
      ∃ t, exec .hufDec s = .next t ∧
        (∀ a, t.obufByte a = if a < s.arg0.toNat then c else s.obufByte a) ∧
        t = { s with obuf := t.obuf, olen := s.arg0, rpos := s.rpos + 9, result0 := s.arg0,
                     result1 := 9, err := .noError, pending := none }) ∧
    (s.holdsBits [false, true, true] →
      ∃ t, exec .hufDec s = .next t ∧ s.failedSpoiling s.arg0.toNat .malformedHeader t) ∧
    (∀ (a b : Byte) (codes : List Bool), codes.length < s.arg0.toNat →
      s.endsWithin ([false, false, true] ++ symbolBits a ++ symbolBits b ++ codes) 1 →
      ∃ t, exec .hufDec s = .next t ∧ s.failedSpoiling s.arg0.toNat .streamExhausted t) ∧
    ∀ (cs : List Nat) (m : Nat), headerAccepted 1 0 cs = true → m = openSlots 1 cs →
      (∀ c, cs.sum + m ≤ 256 → m ≠ 0 → m < c → c < 2 ^ bitsFor (m + 1) →
        s.holdsBits (headerFields 1 cs ++ fieldBits c (bitsFor (m + 1))) →
        ∃ t, exec .hufDec s = .next t ∧ s.failedSpoiling s.arg0.toNat .malformedHeader t) ∧
      (256 < cs.sum + m → m ≠ 0 → s.holdsBits (headerFields 1 cs) →
        ∃ t, exec .hufDec s = .next t ∧ s.failedSpoiling s.arg0.toNat .malformedHeader t) ∧
      (cs.sum + m ≤ 256 → m ≠ 0 → s.endsWithin (headerFields 1 cs) (bitsFor (m + 1)) →
        ∃ t, exec .hufDec s = .next t ∧ s.failedSpoiling s.arg0.toNat .streamExhausted t) ∧
      (m = 0 → s.endsWithin (headerFields 1 cs) (8 * cs.sum) →
        ∃ t, exec .hufDec s = .next t ∧ s.failedSpoiling s.arg0.toNat .streamExhausted t)

/-- R208: `N` literals decode to their symbols, for every window bound, and 9 bits are read for each. -/
def Obligations.LzssDecReadsLiterals : Prop :=
  ∀ (s : State) (data : List Byte), s.rlen.toNat ≤ s.params.rbufCap →
    s.arg0.toNat ≤ s.params.obufCap → data.length = s.arg0.toNat →
    s.holdsBits (data.flatMap fun c => false :: symbolBits c) →
    ∃ t, exec .lzssDec s = .next t ∧
      (∀ a, t.obufByte a = if a < s.arg0.toNat then data.getD a 0 else s.obufByte a) ∧
      t = { s with obuf := t.obuf, olen := s.arg0, rpos := s.rpos + BitVec.ofNat 32 (9 * data.length),
                   result0 := s.arg0, result1 := BitVec.ofNat 32 (9 * data.length), err := .noError,
                   pending := none }

/-- R208, R306: after fewer than `N` literals `data`, when the window holds the last `w = min(M, len)` of
them, a match is MALFORMED_HEADER when the window is empty, when its distance is not below `w`, and when its
length is above `M` or would pass `N`. R208, R302: a stream that ends before the next flag, inside a literal,
inside a distance, or inside the length's code is STREAM_EXHAUSTED. -/
def Obligations.LzssDecRejectsMatchWithoutWindow : Prop :=
  ∀ (s : State) (data : List Byte) (lits : List Bool) (w : Nat), s.rlen.toNat ≤ s.params.rbufCap →
    s.arg0.toNat ≤ s.params.obufCap → data.length < s.arg0.toNat →
    lits = (data.flatMap fun c => false :: symbolBits c) → w = min s.arg1.toNat data.length →
    (w = 0 → s.holdsBits (lits ++ [true]) →
      ∃ t, exec .lzssDec s = .next t ∧ s.failedSpoiling s.arg0.toNat .malformedHeader t) ∧
    (∀ dist, w ≠ 0 → w ≤ dist → dist < 2 ^ bitsFor w →
      s.holdsBits (lits ++ true :: fieldBits dist (bitsFor w)) →
      ∃ t, exec .lzssDec s = .next t ∧ s.failedSpoiling s.arg0.toNat .malformedHeader t) ∧
    (∀ dist len, dist < w → 1 ≤ len → s.arg1.toNat < len ∨ s.arg0.toNat < data.length + len →
      s.holdsBits (lits ++ true :: fieldBits dist (bitsFor w) ++ monoCode len) →
      ∃ t, exec .lzssDec s = .next t ∧ s.failedSpoiling s.arg0.toNat .malformedHeader t) ∧
    (s.endsWithin lits 1 ∨ s.endsWithin (lits ++ [false]) 8 ∨
      (w ≠ 0 ∧ s.endsWithin (lits ++ [true]) (bitsFor w)) ∨
      (∃ dist, dist < w ∧ s.endsInCode (lits ++ true :: fieldBits dist (bitsFor w))) →
      ∃ t, exec .lzssDec s = .next t ∧ s.failedSpoiling s.arg0.toNat .streamExhausted t)

/-- R240, R241: with `ESC = 1` and an empty alphabet, one escaped symbol, whose code takes no bits, is
read as its 8 bits; with `ESC = 0` and an empty alphabet every `N > 0` is MALFORMED_HEADER. -/
def Obligations.LzwDecWithEmptyAlphabet : Prop :=
  ∀ s : State, s.rlen.toNat ≤ s.params.rbufCap → s.arg0.toNat ≤ s.params.obufCap →
    (∀ c : Byte, c ∉ s.alphabet) →
    (∀ c, s.arg0 = 1 → s.holdsBits (symbolBits c) →
      ∃ t, exec (.lzwDec true) s = .next t ∧
        (∀ a, t.obufByte a = if a = 0 then c else s.obufByte a) ∧
        t = { s with obuf := t.obuf, olen := 1, rpos := s.rpos + 8, result0 := 1, result1 := 8,
                     err := .noError, pending := none }) ∧
    (s.arg0 ≠ 0 →
      ∃ t, exec (.lzwDec false) s = .next t ∧ s.failedSpoiling s.arg0.toNat .malformedHeader t)

/-- R241, R306, over any alphabet, with `n0` the first id that no seeded symbol has: a first code not below
`n0` names no entry, and so does a second code above `n0`; a second code `n0` names the pending entry, the
first symbol twice, which is MALFORMED_HEADER when it would pass `N = 2`, and is delivered when `N = 3`. R240,
R302: a stream that ends inside the first code, inside an escaped symbol, or inside the second code is
STREAM_EXHAUSTED. R240: `N = 0` reads nothing. -/
def Obligations.LzwDecChecksItsCodes : Prop :=
  ∀ (s : State) (esc : Bool) (base n0 : Nat), s.rlen.toNat ≤ s.params.rbufCap →
    s.arg0.toNat ≤ s.params.obufCap → base = (if esc then 1 else 0) → n0 = base + s.alphabet.length →
    (∀ x, s.arg0 ≠ 0 → n0 ≤ x → x < 2 ^ bitsFor n0 → s.holdsBits (fieldBits x (bitsFor n0)) →
      ∃ t, exec (.lzwDec esc) s = .next t ∧ s.failedSpoiling s.arg0.toNat .malformedHeader t) ∧
    (s.arg0 ≠ 0 →
      s.endsWithin [] (bitsFor n0) ∨ (esc = true ∧ s.endsWithin (fieldBits 0 (bitsFor n0)) 8) →
      ∃ t, exec (.lzwDec esc) s = .next t ∧ s.failedSpoiling s.arg0.toNat .streamExhausted t) ∧
    (s.arg0 = 0 →
      exec (.lzwDec esc) s =
        .next { s with olen := 0, result0 := 0, result1 := 0, err := .noError, pending := none }) ∧
    ∀ x, base ≤ x → x < n0 →
      (2 ≤ s.arg0.toNat → s.endsWithin (fieldBits x (bitsFor n0)) (bitsFor (n0 + 1)) →
        ∃ t, exec (.lzwDec esc) s = .next t ∧ s.failedSpoiling s.arg0.toNat .streamExhausted t) ∧
      (∀ y, 2 ≤ s.arg0.toNat → n0 < y → y < 2 ^ bitsFor (n0 + 1) →
        s.holdsBits (fieldBits x (bitsFor n0) ++ fieldBits y (bitsFor (n0 + 1))) →
        ∃ t, exec (.lzwDec esc) s = .next t ∧ s.failedSpoiling s.arg0.toNat .malformedHeader t) ∧
      (s.arg0 = 2 → s.holdsBits (fieldBits x (bitsFor n0) ++ fieldBits n0 (bitsFor (n0 + 1))) →
        ∃ t, exec (.lzwDec esc) s = .next t ∧ s.failedSpoiling 2 .malformedHeader t) ∧
      (∀ len, s.arg0 = 3 → len = bitsFor n0 + bitsFor (n0 + 1) →
        s.holdsBits (fieldBits x (bitsFor n0) ++ fieldBits n0 (bitsFor (n0 + 1))) →
        ∃ t, exec (.lzwDec esc) s = .next t ∧
          (∀ a, t.obufByte a = if a < 3 then s.alphabet.getD (x - base) 0 else s.obufByte a) ∧
          t = { s with obuf := t.obuf, olen := 3, rpos := s.rpos + BitVec.ofNat 32 len, result0 := 3,
                       result1 := BitVec.ofNat 32 len, err := .noError, pending := none })

/-- R268, the message of one byte: `Mono(1) Mono(1)`, a rank of 0 bits and one literal. -/
def Obligations.BwtDecOneByte : Prop :=
  ∀ (s : State) (c : Byte), s.rlen.toNat ≤ s.params.rbufCap → 1 ≤ s.params.obufCap →
    s.holdsBits ([false, false, false] ++ symbolBits c) →
    ∃ t, exec .bwtDec s = .next t ∧ (∀ a, t.obufByte a = if a = 0 then c else s.obufByte a) ∧
      t = { s with obuf := t.obuf, olen := 1, rpos := s.rpos + 11, result0 := 1, result1 := 11,
                   err := .noError, pending := none }

/-- R268, R301, R306: BWT_DEC's checks, each after the fields before it have passed: a run count above
OBUF_CAP; then, among run lengths `lens` that pass, a run length above 256, or one that takes the total above
OBUF_CAP; then, with all `R` lengths read, a rank not below their total `n`, or a match flag at the start of
the symbols. R268, R302: a stream that ends inside the run count, a run length, the rank, or the first flag
or literal of the symbols is STREAM_EXHAUSTED. That a failure before `n` is known leaves all of OBUF open is
the model's choice (log 4). -/
def Obligations.BwtDecChecksItsFields : Prop :=
  ∀ (s : State) (count : Nat), s.rlen.toNat ≤ s.params.rbufCap → 1 ≤ count →
    (s.params.obufCap < count → s.holdsBits (monoCode count) →
      ∃ t, exec .bwtDec s = .next t ∧ s.failedSpoiling s.params.obufCap .capacityExceeded t) ∧
    (s.endsInCode [] →
      ∃ t, exec .bwtDec s = .next t ∧ s.failedSpoiling s.params.obufCap .streamExhausted t) ∧
    ∀ (lens : List Nat) (runs : List Bool), count ≤ s.params.obufCap → (∀ l ∈ lens, 1 ≤ l ∧ l ≤ 256) →
      lens.sum ≤ s.params.obufCap → runs = monoCode count ++ lens.flatMap monoCode →
      (∀ len, lens.length < count → 256 < len → s.holdsBits (runs ++ monoCode len) →
        ∃ t, exec .bwtDec s = .next t ∧ s.failedSpoiling s.params.obufCap .malformedHeader t) ∧
      (∀ len, lens.length < count → 1 ≤ len → len ≤ 256 → s.params.obufCap < lens.sum + len →
        s.holdsBits (runs ++ monoCode len) →
        ∃ t, exec .bwtDec s = .next t ∧ s.failedSpoiling s.params.obufCap .capacityExceeded t) ∧
      (∀ rank, lens.length = count → lens.sum ≤ rank → rank < 2 ^ bitsFor lens.sum →
        s.holdsBits (runs ++ fieldBits rank (bitsFor lens.sum)) →
        ∃ t, exec .bwtDec s = .next t ∧ s.failedSpoiling lens.sum .malformedHeader t) ∧
      (∀ rank, lens.length = count → rank < lens.sum →
        s.holdsBits (runs ++ fieldBits rank (bitsFor lens.sum) ++ [true]) →
        ∃ t, exec .bwtDec s = .next t ∧ s.failedSpoiling lens.sum .malformedHeader t) ∧
      (lens.length < count → s.endsInCode runs →
        ∃ t, exec .bwtDec s = .next t ∧ s.failedSpoiling s.params.obufCap .streamExhausted t) ∧
      (lens.length = count → s.endsWithin runs (bitsFor lens.sum) →
        ∃ t, exec .bwtDec s = .next t ∧ s.failedSpoiling lens.sum .streamExhausted t) ∧
      ∀ rank, lens.length = count → rank < lens.sum →
        s.endsWithin (runs ++ fieldBits rank (bitsFor lens.sum)) 1 ∨
          s.endsWithin (runs ++ fieldBits rank (bitsFor lens.sum) ++ [false]) 8 →
        ∃ t, exec .bwtDec s = .next t ∧ s.failedSpoiling lens.sum .streamExhausted t

/-- R37, R139, R301: a command that reads IBUF or the read stream, or is told to write more of OBUF than
there is, raises CAPACITY_EXCEEDED before anything else. For RS_BITS and RS_INT with `n > 32` as well, that
this check comes before DOMAIN_ERROR is the model's reading of R139's "first" (log 10). That BWT_DEC then
leaves all of OBUF open is the model's choice (log 4). -/
def Obligations.CapacityIsCheckedFirst : Prop :=
  ∀ (i : Instr) (s : State),
    (s.params.ibufCap < s.ilen.toNat →
      i ∈ ([.hufEnc, .lzssEnc, .lzwEnc false, .lzwEnc true, .bwtEnc] : List Instr) →
      exec i s = .next (s.failedWith .capacityExceeded)) ∧
    (s.params.ibufCap < s.ilen.toNat ∨ s.params.obufCap < s.ilen.toNat → i = .bwtXform →
      ∃ t, exec i s = .next t ∧ s.failedSpoiling s.ilen.toNat .capacityExceeded t) ∧
    (s.params.rbufCap < s.rlen.toNat → i ∈ ([.rsBit, .rsBits, .rsInt, .monoDec] : List Instr) →
      exec i s = .next (s.failedWith .capacityExceeded)) ∧
    (s.params.rbufCap < s.rlen.toNat ∨ s.params.obufCap < s.arg0.toNat →
      i ∈ ([.hufDec, .lzssDec, .lzwDec false, .lzwDec true] : List Instr) →
      ∃ t, exec i s = .next t ∧ s.failedSpoiling s.arg0.toNat .capacityExceeded t) ∧
    (s.params.rbufCap < s.rlen.toNat → i = .bwtDec →
      ∃ t, exec i s = .next t ∧ s.failedSpoiling s.params.obufCap .capacityExceeded t)

/-! ### Round trips -/

/-- R185: after WS_CLEAR, HUF_ENC of a non-empty input and RS_LOAD, HUF_DEC with `N = ILEN` gives the
input back and reads exactly the bits written, whenever neither command raised CAPACITY_EXCEEDED. -/
def Obligations.HuffmanRoundTrip : Prop :=
  ∀ s t2 t3 : State, s.params.legal → s.arg0 = s.ilen → s.ilen ≠ 0 →
    s.ilen.toNat ≤ s.params.ibufCap → s.ilen.toNat ≤ s.params.obufCap →
    t2 = after .hufEnc (after .wsClear s) → t2.err ≠ .capacityExceeded →
    t3 = after (.rsLoad false) t2 → t3.err ≠ .capacityExceeded →
    ∃ t4, exec .hufDec t3 = .next t4 ∧ t4.err = .noError ∧ t4.olen = s.ilen ∧
      t4.rpos.toNat = t2.ws.length ∧ ∀ a, a < s.ilen.toNat → t4.obufByte a = s.ibufByte a

/-- R209, R205: LZSS_DEC with `N = ILEN` and the same window bound inverts LZSS_ENC, for every bound and
every choice of candidates. -/
def Obligations.LzssRoundTrip : Prop :=
  ∀ s t2 t3 : State, s.params.legal → s.arg0 = s.ilen → s.ilen.toNat ≤ s.params.obufCap →
    t2 = after .lzssEnc (after .wsClear s) → t2.err = .noError →
    t3 = after (.rsLoad false) t2 → t3.err = .noError →
    ∃ t4, exec .lzssDec t3 = .next t4 ∧ t4.err = .noError ∧ t4.olen = s.ilen ∧
      t4.rpos.toNat = t2.ws.length ∧ ∀ a, a < s.ilen.toNat → t4.obufByte a = s.ibufByte a

/-- R242: LZW_DEC with `N = ILEN` and the same mode and alphabet inverts LZW_ENC, wherever that succeeds. -/
def Obligations.LzwRoundTrip : Prop :=
  ∀ (esc : Bool) (s t2 t3 : State), s.params.legal → s.arg0 = s.ilen →
    s.ilen.toNat ≤ s.params.obufCap →
    t2 = after (.lzwEnc esc) (after .wsClear s) → t2.err = .noError →
    t3 = after (.rsLoad false) t2 → t3.err = .noError →
    ∃ t4, exec (.lzwDec esc) t3 = .next t4 ∧ t4.err = .noError ∧ t4.olen = s.ilen ∧
      t4.rpos.toNat = t2.ws.length ∧ ∀ a, a < s.ilen.toNat → t4.obufByte a = s.ibufByte a

/-- R269: BWT_DEC with the same window bound inverts BWT_ENC; the stream carries the length. -/
def Obligations.BwtRoundTrip : Prop :=
  ∀ s t2 t3 : State, s.params.legal → s.ilen.toNat ≤ s.params.obufCap →
    t2 = after .bwtEnc (after .wsClear s) → t2.err = .noError →
    t3 = after (.rsLoad false) t2 → t3.err = .noError →
    ∃ t4, exec .bwtDec t3 = .next t4 ∧ t4.err = .noError ∧ t4.olen = s.ilen ∧
      t4.rpos.toNat = t2.ws.length ∧ ∀ a, a < s.ilen.toNat → t4.obufByte a = s.ibufByte a

/-! ### The host (10_state.md, 20_memory.md, 70_reset_and_hazards.md) -/

/-- R356, R36, R40, R77: with BUSY = 0 a host write of a register or a byte steps to what the write does
(RegisterMapReadsAndWrites and BufferBytesReadAndWrite say what that is), and to nothing else. The two
writes with a side effect are spelled out. A write of CMD while BUSY = 0 stores the word,
makes it pending and sets BUSY, and a read of CMD returns the last word written; a write of RLEN also
sets RPOS to 0. -/
def Obligations.HostWritesWithSideEffects : Prop :=
  (∀ (s : State) (v : Word) (ms : List Move), s.pending = none →
    (∀ k, s.moves = .writeReg k v :: ms →
      step s = .next ({ s with moves := ms }.writeReg v (Reg.atWord k))) ∧
    (∀ sp a b, s.moves = .writeByte sp a b :: ms →
      step s = .next ({ s with moves := ms }.writeByte b sp a)) ∧
    (s.moves = .writeReg 0 v :: ms →
      step s = .next { s with moves := ms, cmd := v, pending := some v }) ∧
    (s.moves = .writeReg 10 v :: ms → step s = .next { s with moves := ms, rlen := v, rpos := 0 })) ∧
  ∀ s : State, s.readReg (Reg.atWord 0) = s.cmd ∧ (s.busy = true ↔ s.pending ≠ none)

/-- R31, R39, R43, R44: the registers by word number of REG, a quarter of R31's byte offset: which register
each word reads; a read-write register holds any value written; a read-only one and an unlisted offset
ignore the write; an unlisted offset reads 0, a capacity register its constant; and a write leaves what every
other register reads as, but that a write of RLEN clears RPOS and a write of CMD shows in STATUS. The last
clause is the frame of a register write: streams, buffers, results and flags stay. -/
def Obligations.RegisterMapReadsAndWrites : Prop :=
  ∀ (s : State) (k j : Fin 64) (v : Word),
    (k ∈ ([0, 1, 2, 3, 7, 10, 12, 13, 14, 15, 16, 17, 18, 19] : List (Fin 64)) →
      (s.writeReg v (Reg.atWord k)).readReg (Reg.atWord k) = v) ∧
    (k ∉ ([0, 1, 2, 3, 7, 10, 12, 13, 14, 15, 16, 17, 18, 19] : List (Fin 64)) →
      s.writeReg v (Reg.atWord k) = s) ∧
    (24 ≤ k.val → s.readReg (Reg.atWord k) = 0) ∧
    s.readReg (Reg.atWord 0) = s.cmd ∧ s.readReg (Reg.atWord 1) = s.arg0 ∧
    s.readReg (Reg.atWord 2) = s.arg1 ∧ s.readReg (Reg.atWord 3) = s.arg2 ∧
    s.readReg (Reg.atWord 4) = s.result0 ∧ s.readReg (Reg.atWord 5) = s.result1 ∧
    s.readReg (Reg.atWord 6) = s.statusWord ∧ s.readReg (Reg.atWord 7) = s.ilen ∧
    s.readReg (Reg.atWord 8) = s.olen ∧ s.readReg (Reg.atWord 10) = s.rlen ∧
    s.readReg (Reg.atWord 11) = s.rpos ∧
    (∀ i : Fin 8, k.val = 12 + i.val → s.readReg (Reg.atWord k) = s.alpha[i]) ∧
    s.readReg (Reg.atWord 20) = BitVec.ofNat 32 s.params.ibufCap ∧
    s.readReg (Reg.atWord 21) = BitVec.ofNat 32 s.params.obufCap ∧
    s.readReg (Reg.atWord 22) = BitVec.ofNat 32 s.params.rbufCap ∧
    s.readReg (Reg.atWord 23) = BitVec.ofNat 32 s.params.wsCap ∧
    s.readReg (Reg.atWord 9) = BitVec.ofNat 32 s.ws.length ∧
    (j ≠ k → ¬ (k = 10 ∧ j = 11) → ¬ (k = 0 ∧ j = 6) →
      (s.writeReg v (Reg.atWord k)).readReg (Reg.atWord j) = s.readReg (Reg.atWord j)) ∧
    ∃ t, s.writeReg v (Reg.atWord k) = t ∧
      t = { s with cmd := t.cmd, pending := t.pending, arg0 := t.arg0, arg1 := t.arg1, arg2 := t.arg2,
                   ilen := t.ilen, rlen := t.rlen, rpos := t.rpos, alpha := t.alpha }

/-- R35: the fields of STATUS; the reserved bits [7:2] and [31:12] read 0. -/
def Obligations.StatusWordFields : Prop :=
  ∀ s : State,
    s.readReg (Reg.atWord 6) = s.statusWord ∧
    s.statusWord.getLsbD 0 = s.busy ∧ s.statusWord.getLsbD 1 = s.sticky ∧
    s.statusWord.extractLsb' 8 4 = s.err.code ∧
    ∀ k, (2 ≤ k ∧ k < 8) ∨ 12 ≤ k → s.statusWord.getLsbD k = false

/-- R74, R73, R78, R80, R353: a byte of IBUF, OBUF or RBUF below the space's size reads as the byte the
engine holds there, the one its commands read or wrote. So a write of an IBUF or RBUF byte below the space's
size is what a command then reads, and what the host then reads; it leaves every other byte of every space; any other byte write is ignored; a byte at or above its space's
size reads 0 (for WSB, in a state whose write stream is within its capacity). A byte write changes IBUF and
RBUF only. -/
def Obligations.BufferBytesReadAndWrite : Prop :=
  ∀ (s : State) (b : Byte) (a k : Nat) (sp : Space),
    (a < s.params.ibufCap → s.readByte .ibuf a = s.ibufByte a) ∧
    (a < s.params.obufCap → s.readByte .obuf a = s.obufByte a) ∧
    (a < s.params.rbufCap → s.readByte .rbuf a = s.rbufByte a) ∧
    (a < s.params.ibufCap → (s.writeByte b .ibuf a).readByte .ibuf a = b) ∧
    (a < s.params.rbufCap → (s.writeByte b .rbuf a).readByte .rbuf a = b) ∧
    (∀ sp', ¬ (sp' = sp ∧ k = a) → (s.writeByte b sp a).readByte sp' k = s.readByte sp' k) ∧
    (s.params.ibufCap ≤ a → s.writeByte b .ibuf a = s ∧ s.readByte .ibuf a = 0) ∧
    (s.params.rbufCap ≤ a → s.writeByte b .rbuf a = s ∧ s.readByte .rbuf a = 0) ∧
    s.writeByte b .obuf a = s ∧ (s.params.obufCap ≤ a → s.readByte .obuf a = 0) ∧
    s.writeByte b .wsb a = s ∧
    (s.ws.length ≤ s.params.wsCap → (s.params.wsCap + 7) / 8 ≤ a → s.readByte .wsb a = 0) ∧
    ∃ t, s.writeByte b sp a = t ∧ t = { s with ibuf := t.ibuf, rbuf := t.rbuf }

/-- R75, R70: WSB shows write-stream bit `8j + i` in bit `i` of byte `j`, and 0 past the stream. -/
def Obligations.WsbShowsTheWriteStream : Prop :=
  ∀ (s : State) (j : Nat),
    (∀ i, i < 8 → (s.readByte .wsb j).getLsbD i = s.ws.getD (8 * j + i) false) ∧
    ((s.ws.length + 7) / 8 ≤ j → s.readByte .wsb j = 0)

/-- R77, R356: a host read while BUSY = 0, and a read of STATUS while BUSY = 1, changes no state of the
block: the host gets the value, and nothing else happens. -/
def Obligations.HostReadsChangeNothing : Prop :=
  ∀ (s : State) (ms : List Move),
    (∀ k, s.pending = none → s.moves = .readReg k :: ms →
      step s = .next { s with moves := ms, replies := s.replies ++ [.word (s.readReg (Reg.atWord k))] }) ∧
    (∀ sp a, s.pending = none → s.moves = .readByte sp a :: ms →
      step s = .next { s with moves := ms, replies := s.replies ++ [.byte (s.readByte sp a)] }) ∧
    (s.pending ≠ none → s.moves = .readReg 6 :: ms →
      step s = .next { s with moves := ms, replies := s.replies ++ [.word s.statusWord] })

/-- R350: while BUSY = 1 the host has no move but a read of STATUS, and WAIT and reset, which are not
accesses: `step` refuses any other by name, which is the model's form of the rule (log 8). -/
def Obligations.BusyContractIsEnforced : Prop :=
  ∀ (s : State) (m : Move) (ms : List Move), s.pending ≠ none → s.moves = m :: ms →
    m ≠ .wait → m ≠ .reset → m ≠ .readReg 6 → step s = .refused .hostAccessWhileBusy

/-- R340, R341: reset, at any time, discards a pending command and leaves every register and stream at
its reset value. That the host's moves and replies stay is the model's choice (log 16), and so is the form
of unspecified buffer contents, a buffer with no byte listed (log 3); `resets` and `fails` are the model's. -/
def Obligations.ResetLeavesTheResetValues : Prop :=
  ∀ (s : State) (ms : List Move), s.moves = .reset :: ms →
    ∃ t, step s = .next t ∧
      t = { cmd := 0, arg0 := 0, arg1 := 0, arg2 := 0, result0 := 0, result1 := 0, sticky := false,
            err := .noError, ilen := 0, olen := 0, rlen := 0, rpos := 0, alpha := t.alpha, ws := [],
            rbuf := [], ibuf := [], obuf := [], pending := none, params := s.params, moves := ms,
            replies := s.replies, resets := t.resets, fails := t.fails } ∧
      (∀ j : Fin 8, t.alpha[j] = 0) ∧ t.statusWord = 0

/-! ### The invariant -/

/-- The state after reset, with the capacities the model chooses (log 1), meets the invariant, and
so does power-on with any legal parameters. -/
def Obligations.ResetMeetsTheInvariant : Prop :=
  State.reset.Inv ∧ ∀ p : Params, p.legal → (State.powerOn p).Inv

/-- Every step keeps the invariant: `size(WS) ≤ WS_CAP` (R45), `RPOS ≤ 8·RLEN` (R41), `OLEN ≤ OBUF_CAP`,
and every buffer canonical and inside its space (R74); and no step, from any state, changes the
capacities or another parameter (R43). -/
def Obligations.StepKeepsTheInvariant : Prop :=
  ∀ s t : State, step s = .next t → (s.Inv → t.Inv) ∧ t.params = s.params
end

