-- ==== Sys2Proof/Laws/Bits.lean ====
section
/-!
SUPPORT. The laws of the bit-level helpers: raw integers and the bits that spell them, field widths,
the write primitives, and the byte image of the write stream.
-/

namespace Sys2Proof.Machine

@[simp] theorem intBits_length (v n : Nat) : (intBits v n).length = n := by
  induction n generalizing v with
  | zero => rfl
  | succ n ih => simp [intBits, ih]

/-- Bit `k` of a raw integer field is bit `k` of the number. -/
theorem intBits_getElem? (v n k : Nat) :
    (intBits v n)[k]? = if k < n then some (v.testBit k) else none := by
  induction n generalizing v k with
  | zero => simp [intBits]
  | succ n ih =>
    cases k with
    | zero => simp [intBits]
    | succ k => simp [intBits, ih, Nat.testBit_succ]

theorem intBits_eq_map (v n : Nat) : intBits v n = (List.range n).map v.testBit := by
  refine List.ext_getElem? fun k => ?_
  rw [intBits_getElem?, List.getElem?_map]
  by_cases hk : k < n
  · simp [hk]
  · simp [hk]

theorem natOfBits_intBits (v n : Nat) : natOfBits (intBits v n) = v % 2 ^ n := by
  induction n generalizing v with
  | zero => simp [intBits, natOfBits, Nat.mod_one]
  | succ n ih =>
    rw [intBits, natOfBits, ih, Nat.pow_succ', Nat.mod_mul, Nat.testBit_zero]
    rcases Nat.mod_two_eq_zero_or_one v with h | h <;> simp [h]

theorem natOfBits_lt (bs : List Bool) : natOfBits bs < 2 ^ bs.length := by
  induction bs with
  | nil => simp [natOfBits]
  | cons b bs ih =>
    have : b.toNat ≤ 1 := Bool.toNat_le b
    simp only [natOfBits, List.length_cons, Nat.pow_succ]; omega

theorem intBits_natOfBits (bs : List Bool) : intBits (natOfBits bs) bs.length = bs := by
  induction bs with
  | nil => rfl
  | cons b bs ih =>
    have h : (b.toNat + 2 * natOfBits bs) / 2 = natOfBits bs := by
      have : b.toNat ≤ 1 := Bool.toNat_le b
      omega
    simp only [natOfBits, List.length_cons, intBits, h, ih]
    cases b <;> simp [Nat.testBit_zero]

/-- Bit `k` of the number a run of bits spells. -/
theorem natOfBits_testBit (bs : List Bool) (k : Nat) : (natOfBits bs).testBit k = bs.getD k false := by
  have h := congrArg (fun l => l[k]?) (intBits_natOfBits bs)
  simp only [intBits_getElem?] at h
  rw [List.getD_eq_getElem?_getD, ← h]
  by_cases hk : k < bs.length
  · simp [hk]
  · have h2 : natOfBits bs < 2 ^ k :=
      lt_of_lt_of_le (natOfBits_lt bs) (Nat.pow_le_pow_right (by decide) (by omega))
    simp [hk, Nat.testBit_lt_two_pow h2]

/-- `bitsFor(k)` bits hold every value in `[0, k)`. -/
theorem le_two_pow_bitsFor (k : Nat) : k ≤ 2 ^ bitsFor k := by
  unfold bitsFor
  split
  · simpa
  · have := @Nat.lt_log2_self (k - 1)
    omega

@[simp] theorem seqBits_length (seq : Word) (len n : Nat) : (seqBits seq len n).length = n := by
  simp [seqBits]

/-! ### The write primitives -/

/-- `wsPutAll` is `WsPut` of each bit in turn, on every stream within its capacity. -/
theorem wsPutAll_eq_foldlM (cap : Nat) (ws bits : List Bool) (h : ws.length ≤ cap) :
    wsPutAll cap ws bits = bits.foldlM (wsPut cap) ws := by
  induction bits generalizing ws with
  | nil => simp [wsPutAll, h]; rfl
  | cons b bits ih =>
    rw [List.foldlM_cons]
    by_cases hc : ws.length = cap
    · simp only [wsPut, hc, if_true, wsPutAll, List.length_cons, bind, Except.bind]
      rw [if_neg (by omega)]
    · have h' : (ws ++ [b]).length ≤ cap := by simp; omega
      simp only [wsPut, hc, if_false, bind, Except.bind]
      rw [← ih _ h']
      simp [wsPutAll, Nat.add_assoc, Nat.add_comm 1]

/-- `wsPutInt` is `wsPutAll` of the field's bits. -/
theorem wsPutInt_eq (cap : Nat) (ws : List Bool) (v n : Nat) :
    wsPutInt cap ws v n = wsPutAll cap ws (intBits v n) := by
  simp [wsPutInt, wsPutAll]

/-- What `wsPutAll` answers. -/
theorem wsPutAll_ok {cap : Nat} {ws bits ws' : List Bool} :
    wsPutAll cap ws bits = .ok ws' ↔ ws.length + bits.length ≤ cap ∧ ws' = ws ++ bits := by
  unfold wsPutAll
  split <;> simp_all [eq_comm]

theorem wsPutAll_error {cap : Nat} {ws bits : List Bool} {e : ErrCode} :
    wsPutAll cap ws bits = .error e ↔ cap < ws.length + bits.length ∧ e = .capacityExceeded := by
  unfold wsPutAll
  split <;> simp_all [eq_comm]

/-! ### The byte image -/

@[simp] theorem toByteArray_length (ws : List Bool) : (toByteArray ws).length = (ws.length + 7) / 8 := by
  simp [toByteArray]

theorem toByteArray_getD (ws : List Bool) {j : Nat} (h : j < (ws.length + 7) / 8) :
    (toByteArray ws).getD j 0 = wsByte ws j := by
  simp [toByteArray, h]

/-- Bit `i` of byte `j` is stream bit `8j + i`, and 0 where the stream has none. -/
theorem wsByte_getLsbD (ws : List Bool) (j : Nat) {i : Nat} (h : i < 8) :
    (wsByte ws j).getLsbD i = ws.getD (8 * j + i) false := by
  unfold wsByte
  rw [BitVec.getLsbD_ofNat, natOfBits_testBit]
  simp [h, List.getD_eq_getElem?_getD, List.getElem?_drop]

end Sys2Proof.Machine
end

