-- ==== Sys2Proof/Laws/Memory.lean ====
section
/-!
SUPPORT. The laws of buffer memory: a read after a write to the same place gives the value written, a
write leaves every other place alone, and every operation keeps the canonical form and the range.
-/

namespace Sys2Proof.Machine

theorem Memory.lookup_store (m : Memory) (a k : Nat) (b : Byte) :
    (m.store a b).lookup k = if a = k then some b else m.lookup k := by
  induction m with
  | nil => simp [Memory.store, Memory.lookup]
  | cons c m ih =>
    obtain ⟨j, v⟩ := c
    simp only [Memory.store]
    split
    · simp [Memory.lookup]
    · split
      · subst_vars; simp only [Memory.lookup]; split <;> simp_all
      · simp only [Memory.lookup, ih]; split <;> split <;> simp_all

theorem Memory.mem_store {m : Memory} {a : Nat} {b : Byte} {c : Host.Cell} (h : c ∈ m.store a b) :
    c = (a, b) ∨ c ∈ m := by
  induction m with
  | nil => simpa [Memory.store] using h
  | cons d m ih =>
    obtain ⟨j, v⟩ := d
    simp only [Memory.store] at h
    split at h
    · simpa using h
    · split at h
      · rcases List.mem_cons.1 h with h | h <;> simp [h]
      · rcases List.mem_cons.1 h with h | h
        · simp [h]
        · rcases ih h with h | h <;> simp [h]

theorem Memory.wf_store {m : Memory} (h : m.wf) (a : Nat) (b : Byte) : (m.store a b).wf := by
  induction m with
  | nil => simp [Memory.store]
  | cons c m ih =>
    obtain ⟨j, v⟩ := c
    simp only [Memory.wf, List.pairwise_cons] at h
    simp only [Memory.store]
    split
    · rename_i hlt
      simp only [Memory.wf, List.pairwise_cons, List.mem_cons]
      refine ⟨?_, h⟩
      rintro c (rfl | hc)
      · exact hlt
      · exact hlt.trans (h.1 c hc)
    · split
      · subst_vars; exact List.pairwise_cons.2 h
      · refine List.pairwise_cons.2 ⟨fun c hc => ?_, ih h.2⟩
        rcases Memory.mem_store hc with rfl | hc
        · show j < a; omega
        · exact h.1 c hc

theorem Memory.within_store {m : Memory} {cap a : Nat} (h : m.within cap) (ha : a < cap) (b : Byte) :
    (m.store a b).within cap := by
  intro c hc
  rcases Memory.mem_store hc with rfl | hc
  · exact ha
  · exact h c hc

theorem Memory.mem_cellsFrom {a : Nat} {bs : List Byte} {c : Host.Cell} (h : c ∈ Memory.cellsFrom a bs) :
    a ≤ c.1 ∧ c.1 < a + bs.length := by
  induction bs generalizing a with
  | nil => simp [Memory.cellsFrom] at h
  | cons b bs ih =>
    rcases List.mem_cons.1 h with rfl | h
    · simp
    · have := ih h; simp only [List.length_cons]; omega

theorem Memory.wf_cellsFrom (a : Nat) (bs : List Byte) : (Memory.cellsFrom a bs).wf := by
  induction bs generalizing a with
  | nil => simp [Memory.cellsFrom]
  | cons b bs ih =>
    refine List.pairwise_cons.2 ⟨fun c hc => ?_, ih _⟩
    have := Memory.mem_cellsFrom hc
    show a < c.1; omega

theorem Memory.lookup_cellsFrom (a k : Nat) (bs : List Byte) :
    (Memory.cellsFrom a bs).lookup k = if a ≤ k then bs[k - a]? else none := by
  induction bs generalizing a with
  | nil => simp [Memory.cellsFrom, Memory.lookup]
  | cons b bs ih =>
    simp only [Memory.cellsFrom, Memory.lookup, ih]
    split
    · subst_vars; simp
    · split
      · rw [if_pos (by omega), show k - a = (k - (a + 1)) + 1 by omega, List.getElem?_cons_succ]
      · rw [if_neg (by omega)]

theorem Memory.lookup_append (m n : Memory) (k : Nat) :
    Memory.lookup (m ++ n) k = (Memory.lookup m k).or (Memory.lookup n k) := by
  induction m with
  | nil => simp [Memory.lookup]
  | cons c m ih =>
    obtain ⟨j, v⟩ := c
    simp only [List.cons_append, Memory.lookup]
    split <;> simp [ih]

theorem Memory.lookup_filter (m : Memory) (p : Nat → Bool) (k : Nat) :
    Memory.lookup (m.filter fun c => p c.1) k = if p k then Memory.lookup m k else none := by
  induction m with
  | nil => simp [Memory.lookup]
  | cons c m ih =>
    obtain ⟨j, v⟩ := c
    by_cases hj : p j
    · simp only [List.filter_cons, hj, if_true, Memory.lookup, ih]
      split <;> simp_all
    · simp only [List.filter_cons, hj, Memory.lookup]
      by_cases hk : j = k
      · subst hk; simpa [hj] using ih
      · simpa [hk] using ih

/-- What a range write leaves at every address. -/
theorem Memory.lookup_storeRange (m : Memory) (a : Nat) (bs : List Byte) (k : Nat) :
    (m.storeRange a bs).lookup k =
      if a ≤ k ∧ k < a + bs.length then bs[k - a]? else m.lookup k := by
  have h1 := Memory.lookup_filter m (fun x => decide (x < a)) k
  have h2 := Memory.lookup_filter m (fun x => decide (a + bs.length ≤ x)) k
  simp only [Memory.storeRange, Memory.lookup_append, Memory.lookup_cellsFrom]
  rw [h1, h2]
  by_cases hk : a ≤ k
  · by_cases hb : k < a + bs.length
    · have : k - a < bs.length := by omega
      simp [hk, hb, List.getElem?_eq_getElem this, show ¬ k < a by omega]
    · have : bs.length ≤ k - a := by omega
      simp [hk, hb, List.getElem?_eq_none this, show ¬ k < a by omega, show a + bs.length ≤ k by omega]
  · have hk' : k < a := by omega
    simp [hk, hk', show ¬ a + bs.length ≤ k by omega]

theorem Memory.wf_storeRange {m : Memory} (h : m.wf) (a : Nat) (bs : List Byte) :
    (m.storeRange a bs).wf := by
  unfold Memory.storeRange
  refine List.pairwise_append.2 ⟨List.pairwise_append.2 ⟨h.filter _, Memory.wf_cellsFrom a bs, ?_⟩,
    h.filter _, ?_⟩
  · intro c hc d hd
    have hc := List.mem_filter.1 hc
    have := Memory.mem_cellsFrom hd
    simp at hc; omega
  · intro c hc d hd
    have hd := List.mem_filter.1 hd
    simp only [decide_eq_true_eq] at hd
    rcases List.mem_append.1 hc with hc | hc
    · have hc := List.mem_filter.1 hc
      simp at hc; omega
    · have := Memory.mem_cellsFrom hc; omega

theorem Memory.within_storeRange {m : Memory} {cap a : Nat} {bs : List Byte} (h : m.within cap)
    (ha : a + bs.length ≤ cap) : (m.storeRange a bs).within cap := by
  intro c hc
  rcases List.mem_append.1 hc with hc | hc
  · rcases List.mem_append.1 hc with hc | hc
    · exact h c (List.mem_filter.1 hc).1
    · have := Memory.mem_cellsFrom hc; omega
  · exact h c (List.mem_filter.1 hc).1

/-- A byte read after a byte write. -/
theorem Memory.byteAt_store (m : Memory) (resets : Nat) (sp : Space) (a k : Nat) (b : Byte) :
    (m.store a b).byteAt resets sp k = if a = k then b else m.byteAt resets sp k := by
  simp only [Memory.byteAt, Memory.lookup_store]; split <;> simp

/-- A byte read after a range write. -/
theorem Memory.byteAt_storeRange (m : Memory) (resets : Nat) (sp : Space) (a k : Nat) (bs : List Byte) :
    (m.storeRange a bs).byteAt resets sp k =
      if a ≤ k ∧ k < a + bs.length then bs.getD (k - a) 0 else m.byteAt resets sp k := by
  simp only [Memory.byteAt, Memory.lookup_storeRange]
  split
  · have : k - a < bs.length := by omega
    simp [List.getElem?_eq_getElem this]
  · rfl

end Sys2Proof.Machine
end

