-- ==== Sys2Proof/Laws/Reader.lean ====
section
/-!
SUPPORT. The read stream seen as the list of bits still to be read: each primitive takes bits from its
front, leaves the buffer and its length alone, and fails with STREAM_EXHAUSTED only.
-/

namespace Sys2Proof.Machine

/-- The reader advanced by `n` bits. -/
abbrev Reader.skip (r : Reader) (n : Nat) : Reader := { r with pos := r.pos + n }

/-- The `n` stream bits from the cursor on. -/
def Reader.peek (r : Reader) (n : Nat) : List Bool := (List.range n).map fun k => r.bit (r.pos + k)

@[simp] theorem Reader.peek_length (r : Reader) (n : Nat) : (r.peek n).length = n := by
  simp [Reader.peek]

theorem Reader.peek_succ (r : Reader) (n : Nat) :
    r.peek (n + 1) = r.bit r.pos :: (r.skip 1).peek n := by
  simp only [Reader.peek, List.range_succ_eq_map, List.map_cons, List.map_map, Nat.add_zero]
  congr 1
  refine List.map_congr_left fun k _ => ?_
  simp only [Function.comp, Reader.bit, Nat.succ_eq_add_one]
  rw [show r.pos + (k + 1) = r.pos + 1 + k by omega]

theorem Reader.get_ok {r r' : Reader} {b : Bool} :
    r.get = .ok (b, r') ↔ r.pos < 8 * r.len ∧ b = r.bit r.pos ∧ r' = r.skip 1 := by
  unfold Reader.get
  split
  · simp; omega
  · simp [eq_comm]; omega

theorem Reader.get_error {r : Reader} {e : ErrCode} :
    r.get = .error e ↔ 8 * r.len ≤ r.pos ∧ e = .streamExhausted := by
  unfold Reader.get
  split <;> simp_all [eq_comm]

/-- `n` bits are read exactly when `n` bits are left, and they are the next `n`. -/
theorem Reader.getBits_eq (n : Nat) (r : Reader) :
    r.getBits n = if n ≤ r.available then .ok (r.peek n, r.skip n) else .error .streamExhausted := by
  induction n generalizing r with
  | zero => simp [Reader.getBits, Reader.peek]; rfl
  | succ n ih =>
    have hav : (r.skip 1).available = r.available - 1 := by simp [Reader.available]; omega
    by_cases h : r.pos < 8 * r.len
    · have hg : r.get = .ok (r.bit r.pos, r.skip 1) := Reader.get_ok.2 ⟨h, rfl, rfl⟩
      have hpos : 0 < r.available := by simp [Reader.available]; omega
      simp only [Reader.getBits, hg, bind, Except.bind, ih, hav]
      by_cases hn : n + 1 ≤ r.available
      · rw [if_pos (by omega), if_pos (by omega)]
        simp [Reader.peek_succ, Nat.add_assoc, Nat.add_comm 1]
      · rw [if_neg (by omega), if_neg (by omega)]
    · have hg : r.get = .error .streamExhausted := Reader.get_error.2 ⟨by omega, rfl⟩
      have hz : r.available = 0 := by simp [Reader.available]; omega
      simp only [Reader.getBits, hg, bind, Except.bind]
      rw [if_neg (by omega)]

/-- `RsGetInt(n)`: the number the next `n` bits spell, or STREAM_EXHAUSTED. -/
theorem Reader.getInt_eq (n : Nat) (r : Reader) :
    r.getInt n =
      if n ≤ r.available then .ok (natOfBits (r.peek n), r.skip n) else .error .streamExhausted := by
  unfold Reader.getInt
  by_cases h : r.available < n
  · rw [if_pos h, if_neg (by omega)]
  · rw [if_neg h, if_pos (by omega), Reader.getBits_eq, if_pos (by omega)]; rfl

/-- `RsGetInt(8)` as a symbol. -/
theorem Reader.getByte_eq (r : Reader) :
    r.getByte =
      if 8 ≤ r.available then .ok (BitVec.ofNat 8 (natOfBits (r.peek 8)), r.skip 8)
      else .error .streamExhausted := by
  unfold Reader.getByte
  rw [Reader.getInt_eq]
  split <;> rfl

/-- A sequence of two readings succeeds when both do: the shape every decoder is taken apart with. -/
theorem except_bind_ok {α β : Type} {x : Except ErrCode α} {f : α → Except ErrCode β} {b : β} :
    (x >>= f) = .ok b ↔ ∃ a, x = .ok a ∧ f a = .ok b := by
  cases x <;> simp [bind, Except.bind]

/-- ... and fails when the first fails, or the second does. -/
theorem except_bind_error {α β : Type} {x : Except ErrCode α} {f : α → Except ErrCode β} {e : ErrCode} :
    (x >>= f) = .error e ↔ x = .error e ∨ ∃ a, x = .ok a ∧ f a = .error e := by
  cases x <;> simp [bind, Except.bind]

end Sys2Proof.Machine
end

