-- ==== Sys2Proof/Laws/State.lean ====
section
/-!
SUPPORT. One lemma per field for each named update of State, so that no later proof unfolds a record
update. Each says what the field holds after the update.
-/

namespace Sys2Proof.Machine

variable (s : State)

/-! ### `State.retire` -/

@[simp] theorem State.retire_cmd : (s.retire).cmd = s.cmd := rfl
@[simp] theorem State.retire_arg0 : (s.retire).arg0 = s.arg0 := rfl
@[simp] theorem State.retire_arg1 : (s.retire).arg1 = s.arg1 := rfl
@[simp] theorem State.retire_arg2 : (s.retire).arg2 = s.arg2 := rfl
@[simp] theorem State.retire_result0 : (s.retire).result0 = s.result0 := rfl
@[simp] theorem State.retire_result1 : (s.retire).result1 = s.result1 := rfl
@[simp] theorem State.retire_sticky : (s.retire).sticky = s.sticky := rfl
@[simp] theorem State.retire_err : (s.retire).err = s.err := rfl
@[simp] theorem State.retire_ilen : (s.retire).ilen = s.ilen := rfl
@[simp] theorem State.retire_olen : (s.retire).olen = s.olen := rfl
@[simp] theorem State.retire_rlen : (s.retire).rlen = s.rlen := rfl
@[simp] theorem State.retire_rpos : (s.retire).rpos = s.rpos := rfl
@[simp] theorem State.retire_alpha : (s.retire).alpha = s.alpha := rfl
@[simp] theorem State.retire_ws : (s.retire).ws = s.ws := rfl
@[simp] theorem State.retire_rbuf : (s.retire).rbuf = s.rbuf := rfl
@[simp] theorem State.retire_ibuf : (s.retire).ibuf = s.ibuf := rfl
@[simp] theorem State.retire_obuf : (s.retire).obuf = s.obuf := rfl
@[simp] theorem State.retire_pending : (s.retire).pending = none := rfl
@[simp] theorem State.retire_params : (s.retire).params = s.params := rfl
@[simp] theorem State.retire_moves : (s.retire).moves = s.moves := rfl
@[simp] theorem State.retire_replies : (s.retire).replies = s.replies := rfl
@[simp] theorem State.retire_resets : (s.retire).resets = s.resets := rfl
@[simp] theorem State.retire_fails : (s.retire).fails = s.fails := rfl

/-! ### `State.succeed` -/

@[simp] theorem State.succeed_cmd : (s.succeed).cmd = s.cmd := rfl
@[simp] theorem State.succeed_arg0 : (s.succeed).arg0 = s.arg0 := rfl
@[simp] theorem State.succeed_arg1 : (s.succeed).arg1 = s.arg1 := rfl
@[simp] theorem State.succeed_arg2 : (s.succeed).arg2 = s.arg2 := rfl
@[simp] theorem State.succeed_result0 : (s.succeed).result0 = s.result0 := rfl
@[simp] theorem State.succeed_result1 : (s.succeed).result1 = s.result1 := rfl
@[simp] theorem State.succeed_sticky : (s.succeed).sticky = s.sticky := rfl
@[simp] theorem State.succeed_err : (s.succeed).err = .noError := rfl
@[simp] theorem State.succeed_ilen : (s.succeed).ilen = s.ilen := rfl
@[simp] theorem State.succeed_olen : (s.succeed).olen = s.olen := rfl
@[simp] theorem State.succeed_rlen : (s.succeed).rlen = s.rlen := rfl
@[simp] theorem State.succeed_rpos : (s.succeed).rpos = s.rpos := rfl
@[simp] theorem State.succeed_alpha : (s.succeed).alpha = s.alpha := rfl
@[simp] theorem State.succeed_ws : (s.succeed).ws = s.ws := rfl
@[simp] theorem State.succeed_rbuf : (s.succeed).rbuf = s.rbuf := rfl
@[simp] theorem State.succeed_ibuf : (s.succeed).ibuf = s.ibuf := rfl
@[simp] theorem State.succeed_obuf : (s.succeed).obuf = s.obuf := rfl
@[simp] theorem State.succeed_pending : (s.succeed).pending = none := rfl
@[simp] theorem State.succeed_params : (s.succeed).params = s.params := rfl
@[simp] theorem State.succeed_moves : (s.succeed).moves = s.moves := rfl
@[simp] theorem State.succeed_replies : (s.succeed).replies = s.replies := rfl
@[simp] theorem State.succeed_resets : (s.succeed).resets = s.resets := rfl
@[simp] theorem State.succeed_fails : (s.succeed).fails = s.fails := rfl

/-! ### `State.raise` -/

@[simp] theorem State.raise_cmd (e : ErrCode) : (s.raise e).cmd = s.cmd := rfl
@[simp] theorem State.raise_arg0 (e : ErrCode) : (s.raise e).arg0 = s.arg0 := rfl
@[simp] theorem State.raise_arg1 (e : ErrCode) : (s.raise e).arg1 = s.arg1 := rfl
@[simp] theorem State.raise_arg2 (e : ErrCode) : (s.raise e).arg2 = s.arg2 := rfl
@[simp] theorem State.raise_result0 (e : ErrCode) : (s.raise e).result0 = s.result0 := rfl
@[simp] theorem State.raise_result1 (e : ErrCode) : (s.raise e).result1 = s.result1 := rfl
@[simp] theorem State.raise_sticky (e : ErrCode) : (s.raise e).sticky = true := rfl
@[simp] theorem State.raise_err (e : ErrCode) : (s.raise e).err = e := rfl
@[simp] theorem State.raise_ilen (e : ErrCode) : (s.raise e).ilen = s.ilen := rfl
@[simp] theorem State.raise_olen (e : ErrCode) : (s.raise e).olen = s.olen := rfl
@[simp] theorem State.raise_rlen (e : ErrCode) : (s.raise e).rlen = s.rlen := rfl
@[simp] theorem State.raise_rpos (e : ErrCode) : (s.raise e).rpos = s.rpos := rfl
@[simp] theorem State.raise_alpha (e : ErrCode) : (s.raise e).alpha = s.alpha := rfl
@[simp] theorem State.raise_ws (e : ErrCode) : (s.raise e).ws = s.ws := by simp [State.raise, errorEntry]
@[simp] theorem State.raise_rbuf (e : ErrCode) : (s.raise e).rbuf = s.rbuf := rfl
@[simp] theorem State.raise_ibuf (e : ErrCode) : (s.raise e).ibuf = s.ibuf := rfl
@[simp] theorem State.raise_obuf (e : ErrCode) : (s.raise e).obuf = s.obuf := rfl
@[simp] theorem State.raise_pending (e : ErrCode) : (s.raise e).pending = none := rfl
@[simp] theorem State.raise_params (e : ErrCode) : (s.raise e).params = s.params := rfl
@[simp] theorem State.raise_moves (e : ErrCode) : (s.raise e).moves = s.moves := rfl
@[simp] theorem State.raise_replies (e : ErrCode) : (s.raise e).replies = s.replies := rfl
@[simp] theorem State.raise_resets (e : ErrCode) : (s.raise e).resets = s.resets := rfl
@[simp] theorem State.raise_fails (e : ErrCode) : (s.raise e).fails = s.fails := rfl

/-! ### `State.spoilObuf` -/

@[simp] theorem State.spoilObuf_cmd (n : Nat) : (s.spoilObuf n).cmd = s.cmd := rfl
@[simp] theorem State.spoilObuf_arg0 (n : Nat) : (s.spoilObuf n).arg0 = s.arg0 := rfl
@[simp] theorem State.spoilObuf_arg1 (n : Nat) : (s.spoilObuf n).arg1 = s.arg1 := rfl
@[simp] theorem State.spoilObuf_arg2 (n : Nat) : (s.spoilObuf n).arg2 = s.arg2 := rfl
@[simp] theorem State.spoilObuf_result0 (n : Nat) : (s.spoilObuf n).result0 = s.result0 := rfl
@[simp] theorem State.spoilObuf_result1 (n : Nat) : (s.spoilObuf n).result1 = s.result1 := rfl
@[simp] theorem State.spoilObuf_sticky (n : Nat) : (s.spoilObuf n).sticky = s.sticky := rfl
@[simp] theorem State.spoilObuf_err (n : Nat) : (s.spoilObuf n).err = s.err := rfl
@[simp] theorem State.spoilObuf_ilen (n : Nat) : (s.spoilObuf n).ilen = s.ilen := rfl
@[simp] theorem State.spoilObuf_olen (n : Nat) : (s.spoilObuf n).olen = s.olen := rfl
@[simp] theorem State.spoilObuf_rlen (n : Nat) : (s.spoilObuf n).rlen = s.rlen := rfl
@[simp] theorem State.spoilObuf_rpos (n : Nat) : (s.spoilObuf n).rpos = s.rpos := rfl
@[simp] theorem State.spoilObuf_alpha (n : Nat) : (s.spoilObuf n).alpha = s.alpha := rfl
@[simp] theorem State.spoilObuf_ws (n : Nat) : (s.spoilObuf n).ws = s.ws := rfl
@[simp] theorem State.spoilObuf_rbuf (n : Nat) : (s.spoilObuf n).rbuf = s.rbuf := rfl
@[simp] theorem State.spoilObuf_ibuf (n : Nat) : (s.spoilObuf n).ibuf = s.ibuf := rfl
@[simp] theorem State.spoilObuf_obuf (n : Nat) : (s.spoilObuf n).obuf = s.obuf.storeRange 0 ((List.range (min n s.params.obufCap)).map fun a => Config.failedByte s.fails a (s.obufByte a)) := rfl
@[simp] theorem State.spoilObuf_pending (n : Nat) : (s.spoilObuf n).pending = s.pending := rfl
@[simp] theorem State.spoilObuf_params (n : Nat) : (s.spoilObuf n).params = s.params := rfl
@[simp] theorem State.spoilObuf_moves (n : Nat) : (s.spoilObuf n).moves = s.moves := rfl
@[simp] theorem State.spoilObuf_replies (n : Nat) : (s.spoilObuf n).replies = s.replies := rfl
@[simp] theorem State.spoilObuf_resets (n : Nat) : (s.spoilObuf n).resets = s.resets := rfl
@[simp] theorem State.spoilObuf_fails (n : Nat) : (s.spoilObuf n).fails = s.fails + 1 := rfl

/-! ### `State.raiseSpoiling` -/

@[simp] theorem State.raiseSpoiling_cmd (n : Nat) (e : ErrCode) : (s.raiseSpoiling n e).cmd = s.cmd := rfl
@[simp] theorem State.raiseSpoiling_arg0 (n : Nat) (e : ErrCode) : (s.raiseSpoiling n e).arg0 = s.arg0 := rfl
@[simp] theorem State.raiseSpoiling_arg1 (n : Nat) (e : ErrCode) : (s.raiseSpoiling n e).arg1 = s.arg1 := rfl
@[simp] theorem State.raiseSpoiling_arg2 (n : Nat) (e : ErrCode) : (s.raiseSpoiling n e).arg2 = s.arg2 := rfl
@[simp] theorem State.raiseSpoiling_result0 (n : Nat) (e : ErrCode) : (s.raiseSpoiling n e).result0 = s.result0 := rfl
@[simp] theorem State.raiseSpoiling_result1 (n : Nat) (e : ErrCode) : (s.raiseSpoiling n e).result1 = s.result1 := rfl
@[simp] theorem State.raiseSpoiling_sticky (n : Nat) (e : ErrCode) : (s.raiseSpoiling n e).sticky = true := rfl
@[simp] theorem State.raiseSpoiling_err (n : Nat) (e : ErrCode) : (s.raiseSpoiling n e).err = e := rfl
@[simp] theorem State.raiseSpoiling_ilen (n : Nat) (e : ErrCode) : (s.raiseSpoiling n e).ilen = s.ilen := rfl
@[simp] theorem State.raiseSpoiling_olen (n : Nat) (e : ErrCode) : (s.raiseSpoiling n e).olen = s.olen := rfl
@[simp] theorem State.raiseSpoiling_rlen (n : Nat) (e : ErrCode) : (s.raiseSpoiling n e).rlen = s.rlen := rfl
@[simp] theorem State.raiseSpoiling_rpos (n : Nat) (e : ErrCode) : (s.raiseSpoiling n e).rpos = s.rpos := rfl
@[simp] theorem State.raiseSpoiling_alpha (n : Nat) (e : ErrCode) : (s.raiseSpoiling n e).alpha = s.alpha := rfl
@[simp] theorem State.raiseSpoiling_ws (n : Nat) (e : ErrCode) : (s.raiseSpoiling n e).ws = s.ws := by simp [State.raiseSpoiling]
@[simp] theorem State.raiseSpoiling_rbuf (n : Nat) (e : ErrCode) : (s.raiseSpoiling n e).rbuf = s.rbuf := rfl
@[simp] theorem State.raiseSpoiling_ibuf (n : Nat) (e : ErrCode) : (s.raiseSpoiling n e).ibuf = s.ibuf := rfl
@[simp] theorem State.raiseSpoiling_obuf (n : Nat) (e : ErrCode) : (s.raiseSpoiling n e).obuf = (s.spoilObuf n).obuf := rfl
@[simp] theorem State.raiseSpoiling_pending (n : Nat) (e : ErrCode) : (s.raiseSpoiling n e).pending = none := rfl
@[simp] theorem State.raiseSpoiling_params (n : Nat) (e : ErrCode) : (s.raiseSpoiling n e).params = s.params := rfl
@[simp] theorem State.raiseSpoiling_moves (n : Nat) (e : ErrCode) : (s.raiseSpoiling n e).moves = s.moves := rfl
@[simp] theorem State.raiseSpoiling_replies (n : Nat) (e : ErrCode) : (s.raiseSpoiling n e).replies = s.replies := rfl
@[simp] theorem State.raiseSpoiling_resets (n : Nat) (e : ErrCode) : (s.raiseSpoiling n e).resets = s.resets := rfl
@[simp] theorem State.raiseSpoiling_fails (n : Nat) (e : ErrCode) : (s.raiseSpoiling n e).fails = s.fails + 1 := rfl

/-! ### `State.deliver` -/

@[simp] theorem State.deliver_cmd (n : Nat) (out : List Byte) (r : Reader) : (s.deliver n out r).cmd = s.cmd := rfl
@[simp] theorem State.deliver_arg0 (n : Nat) (out : List Byte) (r : Reader) : (s.deliver n out r).arg0 = s.arg0 := rfl
@[simp] theorem State.deliver_arg1 (n : Nat) (out : List Byte) (r : Reader) : (s.deliver n out r).arg1 = s.arg1 := rfl
@[simp] theorem State.deliver_arg2 (n : Nat) (out : List Byte) (r : Reader) : (s.deliver n out r).arg2 = s.arg2 := rfl
@[simp] theorem State.deliver_result0 (n : Nat) (out : List Byte) (r : Reader) : (s.deliver n out r).result0 = BitVec.ofNat 32 n := rfl
@[simp] theorem State.deliver_result1 (n : Nat) (out : List Byte) (r : Reader) : (s.deliver n out r).result1 = BitVec.ofNat 32 (r.pos - s.rpos.toNat) := rfl
@[simp] theorem State.deliver_sticky (n : Nat) (out : List Byte) (r : Reader) : (s.deliver n out r).sticky = s.sticky := rfl
@[simp] theorem State.deliver_err (n : Nat) (out : List Byte) (r : Reader) : (s.deliver n out r).err = .noError := rfl
@[simp] theorem State.deliver_ilen (n : Nat) (out : List Byte) (r : Reader) : (s.deliver n out r).ilen = s.ilen := rfl
@[simp] theorem State.deliver_olen (n : Nat) (out : List Byte) (r : Reader) : (s.deliver n out r).olen = BitVec.ofNat 32 n := rfl
@[simp] theorem State.deliver_rlen (n : Nat) (out : List Byte) (r : Reader) : (s.deliver n out r).rlen = s.rlen := rfl
@[simp] theorem State.deliver_rpos (n : Nat) (out : List Byte) (r : Reader) : (s.deliver n out r).rpos = BitVec.ofNat 32 r.pos := rfl
@[simp] theorem State.deliver_alpha (n : Nat) (out : List Byte) (r : Reader) : (s.deliver n out r).alpha = s.alpha := rfl
@[simp] theorem State.deliver_ws (n : Nat) (out : List Byte) (r : Reader) : (s.deliver n out r).ws = s.ws := rfl
@[simp] theorem State.deliver_rbuf (n : Nat) (out : List Byte) (r : Reader) : (s.deliver n out r).rbuf = s.rbuf := rfl
@[simp] theorem State.deliver_ibuf (n : Nat) (out : List Byte) (r : Reader) : (s.deliver n out r).ibuf = s.ibuf := rfl
@[simp] theorem State.deliver_obuf (n : Nat) (out : List Byte) (r : Reader) : (s.deliver n out r).obuf = s.obuf.storeRange 0 out := rfl
@[simp] theorem State.deliver_pending (n : Nat) (out : List Byte) (r : Reader) : (s.deliver n out r).pending = none := rfl
@[simp] theorem State.deliver_params (n : Nat) (out : List Byte) (r : Reader) : (s.deliver n out r).params = s.params := rfl
@[simp] theorem State.deliver_moves (n : Nat) (out : List Byte) (r : Reader) : (s.deliver n out r).moves = s.moves := rfl
@[simp] theorem State.deliver_replies (n : Nat) (out : List Byte) (r : Reader) : (s.deliver n out r).replies = s.replies := rfl
@[simp] theorem State.deliver_resets (n : Nat) (out : List Byte) (r : Reader) : (s.deliver n out r).resets = s.resets := rfl
@[simp] theorem State.deliver_fails (n : Nat) (out : List Byte) (r : Reader) : (s.deliver n out r).fails = s.fails := rfl

/-! ### `State.answer` -/

@[simp] theorem State.answer_cmd (v : Reply) : (s.answer v).cmd = s.cmd := rfl
@[simp] theorem State.answer_arg0 (v : Reply) : (s.answer v).arg0 = s.arg0 := rfl
@[simp] theorem State.answer_arg1 (v : Reply) : (s.answer v).arg1 = s.arg1 := rfl
@[simp] theorem State.answer_arg2 (v : Reply) : (s.answer v).arg2 = s.arg2 := rfl
@[simp] theorem State.answer_result0 (v : Reply) : (s.answer v).result0 = s.result0 := rfl
@[simp] theorem State.answer_result1 (v : Reply) : (s.answer v).result1 = s.result1 := rfl
@[simp] theorem State.answer_sticky (v : Reply) : (s.answer v).sticky = s.sticky := rfl
@[simp] theorem State.answer_err (v : Reply) : (s.answer v).err = s.err := rfl
@[simp] theorem State.answer_ilen (v : Reply) : (s.answer v).ilen = s.ilen := rfl
@[simp] theorem State.answer_olen (v : Reply) : (s.answer v).olen = s.olen := rfl
@[simp] theorem State.answer_rlen (v : Reply) : (s.answer v).rlen = s.rlen := rfl
@[simp] theorem State.answer_rpos (v : Reply) : (s.answer v).rpos = s.rpos := rfl
@[simp] theorem State.answer_alpha (v : Reply) : (s.answer v).alpha = s.alpha := rfl
@[simp] theorem State.answer_ws (v : Reply) : (s.answer v).ws = s.ws := rfl
@[simp] theorem State.answer_rbuf (v : Reply) : (s.answer v).rbuf = s.rbuf := rfl
@[simp] theorem State.answer_ibuf (v : Reply) : (s.answer v).ibuf = s.ibuf := rfl
@[simp] theorem State.answer_obuf (v : Reply) : (s.answer v).obuf = s.obuf := rfl
@[simp] theorem State.answer_pending (v : Reply) : (s.answer v).pending = s.pending := rfl
@[simp] theorem State.answer_params (v : Reply) : (s.answer v).params = s.params := rfl
@[simp] theorem State.answer_moves (v : Reply) : (s.answer v).moves = s.moves := rfl
@[simp] theorem State.answer_replies (v : Reply) : (s.answer v).replies = s.replies ++ [v] := rfl
@[simp] theorem State.answer_resets (v : Reply) : (s.answer v).resets = s.resets := rfl
@[simp] theorem State.answer_fails (v : Reply) : (s.answer v).fails = s.fails := rfl

/-! ### `State.assertReset` -/

@[simp] theorem State.assertReset_cmd : (s.assertReset).cmd = 0 := rfl
@[simp] theorem State.assertReset_arg0 : (s.assertReset).arg0 = 0 := rfl
@[simp] theorem State.assertReset_arg1 : (s.assertReset).arg1 = 0 := rfl
@[simp] theorem State.assertReset_arg2 : (s.assertReset).arg2 = 0 := rfl
@[simp] theorem State.assertReset_result0 : (s.assertReset).result0 = 0 := rfl
@[simp] theorem State.assertReset_result1 : (s.assertReset).result1 = 0 := rfl
@[simp] theorem State.assertReset_sticky : (s.assertReset).sticky = false := rfl
@[simp] theorem State.assertReset_err : (s.assertReset).err = .noError := rfl
@[simp] theorem State.assertReset_ilen : (s.assertReset).ilen = 0 := rfl
@[simp] theorem State.assertReset_olen : (s.assertReset).olen = 0 := rfl
@[simp] theorem State.assertReset_rlen : (s.assertReset).rlen = 0 := rfl
@[simp] theorem State.assertReset_rpos : (s.assertReset).rpos = 0 := rfl
@[simp] theorem State.assertReset_alpha : (s.assertReset).alpha = Vector.replicate 8 0 := rfl
@[simp] theorem State.assertReset_ws : (s.assertReset).ws = [] := rfl
@[simp] theorem State.assertReset_rbuf : (s.assertReset).rbuf = [] := rfl
@[simp] theorem State.assertReset_ibuf : (s.assertReset).ibuf = [] := rfl
@[simp] theorem State.assertReset_obuf : (s.assertReset).obuf = [] := rfl
@[simp] theorem State.assertReset_pending : (s.assertReset).pending = none := rfl
@[simp] theorem State.assertReset_params : (s.assertReset).params = s.params := rfl
@[simp] theorem State.assertReset_moves : (s.assertReset).moves = s.moves := rfl
@[simp] theorem State.assertReset_replies : (s.assertReset).replies = s.replies := rfl
@[simp] theorem State.assertReset_resets : (s.assertReset).resets = s.resets + 1 := rfl
@[simp] theorem State.assertReset_fails : (s.assertReset).fails = s.fails := rfl

end Sys2Proof.Machine
end

