-- ==== Sys2Proof/Laws/Ops.lean ====
section
/-!
SUPPORT. For each shared way a command ends, everything it can do: the state it answers when it
succeeds, and the state it answers when it fails.
-/

namespace Sys2Proof.Machine

/-- Error entry at the state the command started in: only the flags and PENDING change. -/
theorem State.raise_eq (s : State) (e : ErrCode) :
    s.raise e = { s with err := e, sticky := true, pending := none } := by
  simp [State.raise, errorEntry]

/-- A write command either raises the error it was given or installs the stream it was given. -/
theorem State.finishWrite_cases {s t : State} {r : Except ErrCode (List Bool)}
    (h : s.finishWrite r = .next t) :
    (∃ e, r = .error e ∧ t = s.raise e) ∨
      ∃ ws, r = .ok ws ∧
        t = { s with ws := ws, result0 := BitVec.ofNat 32 ws.length,
                     result1 := BitVec.ofNat 32 (ws.length - s.ws.length), err := .noError,
                     pending := none } := by
  cases r with
  | error e => exact .inl ⟨e, rfl, by simpa [State.finishWrite, eq_comm] using h⟩
  | ok ws => exact .inr ⟨ws, rfl, by simpa [State.finishWrite, State.succeed, eq_comm] using h⟩

/-- A read command either raises an error or moves the cursor and delivers a value. -/
theorem State.readCommand_cases {s t : State} {body : Reader → Except ErrCode (Nat × Reader)}
    (h : s.readCommand body = .next t) :
    (s.params.rbufCap < s.rlen.toNat ∧ t = s.raise .capacityExceeded) ∨
      (s.rlen.toNat ≤ s.params.rbufCap ∧
        ((∃ e, body s.reader = .error e ∧ t = s.raise e) ∨
          ∃ v r, body s.reader = .ok (v, r) ∧
            t = { s with rpos := BitVec.ofNat 32 r.pos, result0 := BitVec.ofNat 32 v,
                         result1 := BitVec.ofNat 32 (r.pos - s.rpos.toNat), err := .noError,
                         pending := none })) := by
  unfold State.readCommand at h
  split at h
  · exact .inl ⟨by assumption, by simpa [eq_comm] using h⟩
  · refine .inr ⟨by omega, ?_⟩
    unfold State.finishRead at h
    split at h
    · next e he => exact .inl ⟨e, he, by simpa [eq_comm] using h⟩
    · next v r hr => exact .inr ⟨v, r, hr, by simpa [State.succeed, eq_comm] using h⟩

/-- A decode command either fails, leaving OBUF[0 .. N) unspecified, or delivers its output. -/
theorem State.decodeCommand_cases {s t : State}
    {body : Nat → Reader → Except ErrCode (List Byte × Reader)} (h : s.decodeCommand body = .next t) :
    (∃ e, t = s.raiseSpoiling s.arg0.toNat e ∧
        (e = .capacityExceeded ∨ body s.arg0.toNat s.reader = .error e)) ∨
      (s.arg0.toNat ≤ s.params.obufCap ∧ s.rlen.toNat ≤ s.params.rbufCap ∧
        ∃ out r, body s.arg0.toNat s.reader = .ok (out, r) ∧ t = s.deliver s.arg0.toNat out r) := by
  unfold State.decodeCommand at h
  simp only at h
  split at h
  · exact .inl ⟨_, by simpa [eq_comm] using h, .inl rfl⟩
  · split at h
    · exact .inl ⟨_, by simpa [eq_comm] using h, .inl rfl⟩
    · split at h
      · next e he => exact .inl ⟨e, by simpa [eq_comm] using h, .inr he⟩
      · next out r hr => exact .inr ⟨by omega, by omega, out, r, hr, by simpa [eq_comm] using h⟩

/-- A command that fails and may have written `n` bytes of OBUF leaves the bytes from `n` on alone. -/
theorem State.obufByte_raiseSpoiling {s : State} {n a : Nat} (e : ErrCode) (h : n ≤ a) :
    (s.raiseSpoiling n e).obufByte a = s.obufByte a := by
  unfold State.obufByte
  rw [State.raiseSpoiling_obuf, State.raiseSpoiling_resets, State.spoilObuf_obuf,
    Memory.byteAt_storeRange, if_neg (by simp; omega)]

/-- What a delivered output leaves in OBUF. -/
theorem State.obufByte_deliver (s : State) (n : Nat) (out : List Byte) (r : Reader) (a : Nat) :
    (s.deliver n out r).obufByte a = if a < out.length then out.getD a 0 else s.obufByte a := by
  simp only [State.obufByte, State.deliver_obuf, State.deliver_resets, Memory.byteAt_storeRange]
  simp

end Sys2Proof.Machine
end

