-- ==== Sys2Proof/Laws/PerInstr.lean ====
section
/-!
SUPPORT. The per-instruction family `Encoding`: a command's word is legal, and decoding it gives the
command back.
-/

namespace Sys2Proof.Laws.Encoding

/-- The word of the command is a legal command word and decodes to the command. -/
def Statement (i : Instr) : Prop := i.wellFormed = true ∧ decode (encode i) = .ok i

theorem nop : Statement .nop := ⟨rfl, rfl⟩
theorem wsClear : Statement .wsClear := ⟨rfl, rfl⟩
theorem wsBit : Statement .wsBit := ⟨rfl, rfl⟩
theorem wsBits : Statement .wsBits := ⟨rfl, rfl⟩
theorem wsInt : Statement .wsInt := ⟨rfl, rfl⟩
theorem rsLoad (f : Bool) : Statement (.rsLoad f) := by cases f <;> exact ⟨rfl, rfl⟩
theorem rsBit : Statement .rsBit := ⟨rfl, rfl⟩
theorem rsBits : Statement .rsBits := ⟨rfl, rfl⟩
theorem rsInt : Statement .rsInt := ⟨rfl, rfl⟩
theorem monoEnc : Statement .monoEnc := ⟨rfl, rfl⟩
theorem monoDec : Statement .monoDec := ⟨rfl, rfl⟩
theorem hufEnc : Statement .hufEnc := ⟨rfl, rfl⟩
theorem hufDec : Statement .hufDec := ⟨rfl, rfl⟩
theorem lzssEnc : Statement .lzssEnc := ⟨rfl, rfl⟩
theorem lzssDec : Statement .lzssDec := ⟨rfl, rfl⟩
theorem lzwEnc (esc : Bool) : Statement (.lzwEnc esc) := by cases esc <;> exact ⟨rfl, rfl⟩
theorem lzwDec (esc : Bool) : Statement (.lzwDec esc) := by cases esc <;> exact ⟨rfl, rfl⟩
theorem bwtEnc : Statement .bwtEnc := ⟨rfl, rfl⟩
theorem bwtDec : Statement .bwtDec := ⟨rfl, rfl⟩
theorem bwtXform : Statement .bwtXform := ⟨rfl, rfl⟩

end Sys2Proof.Laws.Encoding
end

