-- ==== Sys2Proof/Laws/Step.lean ====
section
/-!
SUPPORT. Everything a step can do, said once: every invariant is a case analysis on `step_cases`.
-/

namespace Sys2Proof.Machine

/-- A step that answers a next state is one of these: the engine executes the pending word, a move
allowed while BUSY = 1, a move made while BUSY = 0, or nothing at the end of a run. -/
theorem step_cases {s t : State} (h : step s = .next t) :
    (∃ w ms, s.pending = some w ∧ (s.moves = [] ∧ ms = [] ∨ s.moves = .wait :: ms) ∧
        engineStep w { s with moves := ms } = .next t) ∨
      (∃ w m ms, s.pending = some w ∧ s.moves = m :: ms ∧ busyMove { s with moves := ms } m = .next t) ∨
      (∃ m ms, s.pending = none ∧ s.moves = m :: ms ∧ t = idleMove { s with moves := ms } m) ∨
      (s.pending = none ∧ s.moves = [] ∧ t = s) := by
  unfold step at h
  split at h
  · next w hp hm =>
    have hs : ({ s with moves := [] } : State) = s := by rw [← hm]
    exact .inl ⟨w, [], hp, .inl ⟨hm, rfl⟩, by rw [hs]; exact h⟩
  · next w ms hp hm => exact .inl ⟨w, ms, hp, .inr hm, h⟩
  · next w m ms _ hp hm => exact .inr (.inl ⟨w, m, ms, hp, hm, h⟩)
  · next hp hm => exact .inr (.inr (.inr ⟨hp, hm, by simpa [eq_comm] using h⟩))
  · next m ms hp hm => exact .inr (.inr (.inl ⟨m, ms, hp, hm, by simpa [eq_comm] using h⟩))

/-- What the engine's step is. -/
theorem engineStep_cases (w : Word) (s : State) :
    (∃ i, decode w = .ok i ∧ engineStep w s = exec i s) ∨
      ((∃ e, decode w = .error e) ∧ engineStep w s = .next (s.raise .illegalCommand)) := by
  unfold engineStep
  split
  · next e he => exact .inr ⟨⟨e, he⟩, rfl⟩
  · next i hi => exact .inl ⟨i, hi, rfl⟩

/-- The moves allowed while BUSY = 1. -/
theorem busyMove_cases {s t : State} {m : Move} (h : busyMove s m = .next t) :
    (∃ k, m = .readReg k ∧ Reg.atWord k = .status ∧ t = s.answer (.word s.statusWord)) ∨
      (m = .reset ∧ t = s.assertReset) := by
  unfold busyMove at h
  split at h
  · next k =>
    split at h
    · next hk => exact .inl ⟨k, rfl, hk, by simpa [eq_comm] using h⟩
    · cases h
  · exact .inr ⟨rfl, by simpa [eq_comm] using h⟩
  all_goals cases h

end Sys2Proof.Machine
end

