-- ==== Sys2Proof/Laws/Stream.lean ====
section
/-!
SUPPORT. Reading a stream that is known to go on with given bits: each primitive takes its field from the
front and leaves a reader that goes on with the rest. The fields a statement writes out are the ones the
coders write, and the states it writes out are the ones the shared endings leave.
-/

namespace Sys2Proof.Machine

/-! ### The fields of the statements -/

theorem fieldBits_eq_intBits (v n : Nat) : fieldBits v n = intBits v n := (intBits_eq_map v n).symm

theorem symbolBits_eq_intBits (c : Byte) : symbolBits c = intBits c.toNat 8 := by
  rw [intBits_eq_map]; rfl

@[simp] theorem fieldBits_length (v n : Nat) : (fieldBits v n).length = n := by simp [fieldBits]

@[simp] theorem symbolBits_length (c : Byte) : (symbolBits c).length = 8 := by simp [symbolBits]

@[simp] theorem monoCode_length (i : Nat) : (monoCode i).length = 2 * Nat.log2 i + 1 := by
  simp [monoCode]; omega

/-- A header that passes its checks has at most 256 fields: while a slot is open, the leaves and open slots
together grow with every field. -/
theorem length_le_of_headerAccepted {m tot : Nat} {cs : List Nat} (h : headerAccepted m tot cs = true)
    (hcs : cs ≠ []) : tot + m + cs.length ≤ 257 := by
  induction cs generalizing m tot with
  | nil => exact absurd rfl hcs
  | cons c cs ih =>
    simp only [headerAccepted, Bool.and_eq_true, decide_eq_true_eq] at h
    obtain ⟨⟨⟨_, ht⟩, hc⟩, h⟩ := h
    cases cs with
    | nil => simp; omega
    | cons c' cs =>
      have hih := ih h (by simp)
      simp only [headerAccepted, Bool.and_eq_true, decide_eq_true_eq] at h
      have := h.1.1.1
      simp only [List.length_cons] at hih ⊢
      omega

/-- The bits below the leading one of `i` are the bits of `i − 2^k`. -/
theorem monoCode_eq_monoBits {i : Nat} (h : i ≠ 0) : monoCode i = monoBits i := by
  have hlo : 2 ^ Nat.log2 i ≤ i := Nat.log2_self_le h
  have hhi : i < 2 ^ (Nat.log2 i + 1) := Nat.lt_log2_self
  simp only [monoCode, monoBits, floorLog2, fieldBits, intBits_eq_map]
  congr 2
  refine List.map_congr_left fun k hk => ?_
  have hk : k < Nat.log2 i := List.mem_range.1 hk
  conv_lhs => rw [← Nat.add_sub_cancel' hlo]
  exact Nat.testBit_two_pow_add_gt hk _

/-! ### Streams that go on with given bits -/

/-- The reader goes on with `bits`. -/
abbrev Reader.Holds (r : Reader) (bits : List Bool) : Prop :=
  bits.length ≤ r.available ∧ r.peek bits.length = bits

theorem State.reader_holds {s : State} {bits : List Bool} (h : s.holdsBits bits) : s.reader.Holds bits := by
  refine ⟨by have := h.1; simp only [Reader.available, State.reader]; omega, ?_⟩
  refine List.ext_getElem (by simp) fun k _ hk => ?_
  have hb : s.reader.bit (s.reader.pos + k) = bits.getD k false := h.2 k hk
  simpa [Reader.peek, hk] using hb

theorem Reader.peek_add (r : Reader) (m n : Nat) : r.peek (m + n) = r.peek m ++ (r.skip m).peek n := by
  simp only [Reader.peek, List.range_add, List.map_append, List.map_map]
  congr 1
  exact List.map_congr_left fun k _ => by simp [Function.comp, Reader.bit, Nat.add_assoc]

theorem Reader.skip_zero (r : Reader) : r.skip 0 = r := rfl

theorem Reader.skip_skip (r : Reader) (m n : Nat) : (r.skip m).skip n = r.skip (m + n) := by
  simp [Nat.add_assoc]

theorem Reader.skip_available (r : Reader) (n : Nat) : (r.skip n).available = r.available - n := by
  simp only [Reader.available]; omega

/-- A stream that goes on with two runs of bits goes on with the second after the first. -/
theorem Reader.holds_append {r : Reader} {as bs : List Bool} :
    r.Holds (as ++ bs) ↔ r.Holds as ∧ (r.skip as.length).Holds bs := by
  have hp : (r.peek as.length).length = as.length := by simp
  simp only [Reader.Holds, List.length_append, Reader.peek_add, Reader.skip_available]
  constructor
  · rintro ⟨hl, h⟩
    obtain ⟨ha, hb⟩ := List.append_inj h hp
    exact ⟨⟨by omega, ha⟩, by omega, hb⟩
  · rintro ⟨⟨_, ha⟩, _, hb⟩
    exact ⟨by omega, by rw [ha, hb]⟩

theorem Reader.Holds.get {r : Reader} {b : Bool} (h : r.Holds [b]) : r.get = .ok (b, r.skip 1) := by
  obtain ⟨hl, hp⟩ := h
  refine Reader.get_ok.2 ⟨by simp [Reader.available] at hl; omega, ?_, rfl⟩
  simpa [Reader.peek, eq_comm] using hp

theorem Reader.Holds.getInt {r : Reader} {bits : List Bool} (h : r.Holds bits) :
    r.getInt bits.length = .ok (natOfBits bits, r.skip bits.length) := by
  rw [Reader.getInt_eq, if_pos h.1, h.2]

/-- A raw integer field reads as its number. -/
theorem Reader.Holds.getInt_field {r : Reader} {v n : Nat} (h : r.Holds (fieldBits v n)) (hv : v < 2 ^ n) :
    r.getInt n = .ok (v, r.skip n) := by
  have := h.getInt
  rwa [fieldBits_length, fieldBits_eq_intBits, natOfBits_intBits, Nat.mod_eq_of_lt hv] at this

theorem Reader.Holds.getByte {r : Reader} {c : Byte} (h : r.Holds (symbolBits c)) :
    r.getByte = .ok (c, r.skip 8) := by
  have hp := h.2
  rw [symbolBits_length] at hp
  rw [Reader.getByte_eq, if_pos (by simpa using h.1), hp, symbolBits_eq_intBits, natOfBits_intBits,
    Nat.mod_eq_of_lt c.isLt, BitVec.ofNat_toNat, BitVec.setWidth_eq]

/-- A prefix of `k` ones and a zero, below the limit. -/
theorem Reader.Holds.countOnes {r : Reader} {k limit : Nat} (e : ErrCode) (hk : k < limit)
    (h : r.Holds (List.replicate k true ++ [false])) :
    Machine.countOnes e limit r = .ok (k, r.skip (k + 1)) := by
  induction k generalizing r limit with
  | zero =>
    obtain ⟨l, rfl⟩ : ∃ l, limit = l + 1 := ⟨limit - 1, by omega⟩
    simp only [Machine.countOnes, Reader.Holds.get (b := false) h, bind, Except.bind]; rfl
  | succ k ih =>
    obtain ⟨l, rfl⟩ : ∃ l, limit = l + 1 := ⟨limit - 1, by omega⟩
    obtain ⟨h1, h2⟩ := Reader.holds_append (as := [true]).1 h
    simp only [Machine.countOnes, h1.get, bind, Except.bind, if_true, ih (r := r.skip 1) (limit := l) (by omega) h2]
    simp [Nat.add_assoc, Nat.add_comm 1]

/-- A monotonous code reads as its number. -/
theorem Reader.Holds.unmono {r : Reader} {i : Nat} (hi : i ≠ 0) (h : r.Holds (monoCode i)) :
    Machine.unmono r = .ok (i, r.skip (2 * Nat.log2 i + 1)) := by
  have hm : i - 2 ^ Nat.log2 i < 2 ^ Nat.log2 i := by
    have : i < 2 ^ (Nat.log2 i + 1) := Nat.lt_log2_self
    rw [Nat.pow_succ] at this; omega
  have hlen := h.1
  rw [monoCode_length] at hlen
  rw [monoCode_eq_monoBits hi, monoBits, floorLog2, ← fieldBits_eq_intBits, ← List.singleton_append,
    ← List.append_assoc] at h
  obtain ⟨h1, h2⟩ := Reader.holds_append.1 h
  rw [show (List.replicate (Nat.log2 i) true ++ [false]).length = Nat.log2 i + 1 by simp] at h2
  simp only [Machine.unmono, h1.countOnes _ (show Nat.log2 i < r.available + 1 by omega), bind, Except.bind,
    h2.getInt_field hm]
  rw [Nat.add_sub_cancel' (Nat.log2_self_le hi)]
  simp only [Reader.skip, Nat.add_assoc, Except.ok.injEq, Prod.mk.injEq, true_and, Reader.mk.injEq]
  omega

/-! ### Streams that are cut short -/

/-- The reader goes on with `bits`, and ends before `n` more. -/
abbrev Reader.EndsWithin (r : Reader) (bits : List Bool) (n : Nat) : Prop :=
  r.Holds bits ∧ r.available < bits.length + n

theorem State.reader_endsWithin {s : State} {bits : List Bool} {n : Nat} (h : s.endsWithin bits n) :
    s.reader.EndsWithin bits n := by
  refine ⟨State.reader_holds h.1, ?_⟩
  have := h.2
  have := h.1.1
  simp only [Reader.available, State.reader]
  omega

theorem Reader.EndsWithin.append {r : Reader} {as bs : List Bool} {n : Nat} (h : r.EndsWithin (as ++ bs) n) :
    r.Holds as ∧ (r.skip as.length).EndsWithin bs n := by
  obtain ⟨ha, hb⟩ := Reader.holds_append.1 h.1
  refine ⟨ha, hb, ?_⟩
  have := ha.1
  have := h.2
  simp only [List.length_append] at this
  rw [Reader.skip_available]
  omega

theorem Reader.EndsWithin.get {r : Reader} (h : r.EndsWithin [] 1) : r.get = .error .streamExhausted :=
  Reader.get_error.2 ⟨by have := h.2; simp only [Reader.available, List.length_nil] at this; omega, rfl⟩

theorem Reader.EndsWithin.getInt {r : Reader} {n : Nat} (h : r.EndsWithin [] n) :
    r.getInt n = .error .streamExhausted := by
  have := h.2
  rw [Reader.getInt_eq, if_neg (by simp only [List.length_nil] at this; omega)]

theorem Reader.EndsWithin.getByte {r : Reader} (h : r.EndsWithin [] 8) : r.getByte = .error .streamExhausted := by
  have := h.2
  rw [Reader.getByte_eq, if_neg (by simp only [List.length_nil] at this; omega)]

/-- A prefix of ones with no bit after it. -/
theorem Reader.EndsWithin.countOnes {r : Reader} {k limit : Nat} (e : ErrCode) (hk : k < limit)
    (h : r.EndsWithin (List.replicate k true) 1) :
    Machine.countOnes e limit r = .error .streamExhausted := by
  induction k generalizing r limit with
  | zero =>
    obtain ⟨l, rfl⟩ : ∃ l, limit = l + 1 := ⟨limit - 1, by omega⟩
    simp only [Machine.countOnes, Reader.EndsWithin.get h, bind, Except.bind]
  | succ k ih =>
    obtain ⟨l, rfl⟩ : ∃ l, limit = l + 1 := ⟨limit - 1, by omega⟩
    obtain ⟨h1, h2⟩ := Reader.EndsWithin.append (as := [true]) h
    simp only [Machine.countOnes, h1.get, bind, Except.bind, if_true, ih (r := r.skip 1) (limit := l) (by omega) h2]

/-- A monotonous code that is cut short. -/
theorem Reader.unmono_short {r : Reader} {k : Nat}
    (h : r.EndsWithin (List.replicate k true) 1 ∨ r.EndsWithin (List.replicate k true ++ [false]) k) :
    Machine.unmono r = .error .streamExhausted := by
  obtain h | h := h
  · have hk := h.1.1
    rw [List.length_replicate] at hk
    simp only [Machine.unmono, h.countOnes _ (show k < r.available + 1 by omega), bind, Except.bind]
  · obtain ⟨h1, h2⟩ := Reader.EndsWithin.append (bs := []) (by rwa [List.append_nil])
    have hk := h1.1
    rw [List.length_append, List.length_replicate] at hk
    simp only [List.length_append, List.length_replicate, List.length_singleton] at h2
    simp only [Machine.unmono, h1.countOnes _ (show k < r.available + 1 by omega), bind, Except.bind, h2.getInt]

/-- After `bits`, the code is cut short. -/
theorem State.unmono_endsInCode {s : State} {bits : List Bool} (h : s.endsInCode bits) :
    s.reader.Holds bits ∧ Machine.unmono (s.reader.skip bits.length) = .error .streamExhausted := by
  obtain ⟨k, h | h⟩ := h
  · obtain ⟨h1, h2⟩ := (State.reader_endsWithin h).append
    exact ⟨h1, Reader.unmono_short (.inl h2)⟩
  · rw [List.append_assoc] at h
    obtain ⟨h1, h2⟩ := (State.reader_endsWithin h).append
    exact ⟨h1, Reader.unmono_short (.inr h2)⟩

/-! ### The states of the statements -/

/-- A write command that succeeds leaves its stream with the bits appended. -/
theorem State.finishWrite_append (s : State) (bits : List Bool) :
    s.finishWrite (.ok (s.ws ++ bits)) = .next (s.appended bits) := by
  simp [State.finishWrite, State.appended, State.succeed]

/-- Error entry of a command that may have written `n` bytes of OBUF. -/
theorem State.failedSpoiling_raiseSpoiling (s : State) (n : Nat) (e : ErrCode) :
    s.failedSpoiling n e (s.raiseSpoiling n e) :=
  ⟨by simp [State.raiseSpoiling, State.raise_eq, State.spoilObuf], fun _ h => State.obufByte_raiseSpoiling e h⟩

/-- A decode command whose decoder fails. -/
theorem State.decodeCommand_error {s : State} {body : Nat → Reader → Except ErrCode (List Byte × Reader)}
    {e : ErrCode} (hr : s.rlen.toNat ≤ s.params.rbufCap) (hn : s.arg0.toNat ≤ s.params.obufCap)
    (hb : body s.arg0.toNat s.reader = .error e) :
    ∃ t, s.decodeCommand body = .next t ∧ s.failedSpoiling s.arg0.toNat e t := by
  refine ⟨_, ?_, s.failedSpoiling_raiseSpoiling _ e⟩
  simp only [State.decodeCommand]
  rw [if_neg (by omega), if_neg (by omega), hb]

end Sys2Proof.Machine
end

