-- ==== Sys2Proof/Tests/Slice0.lean ====
section
/-!
SUPPORT. Tests of the model: the well-formedness checks, decoding of words written out from
30_encoding.md, one or two vectors of 95_test_vectors.md per command, and, for every statement with
hypotheses, concrete states and operands that meet them. Expected results are the spec's.
-/

-- One proof at a time: in one process, the waiting threads of many kernel checks take too much memory.
set_option Elab.async false

namespace Sys2Proof.Tests

open Sys2Proof Sys2Proof.Machine

/-! ### Well-formedness (30_encoding.md R105) -/

theorem test_wf_reserved_bit : ({ opc := 0x02, f := false, rsv := 1 } : CommandWord).wellFormed = false := by
  decide

theorem test_wf_top_reserved_bit :
    ({ opc := 0x02, f := false, rsv := 0x400000 } : CommandWord).wellFormed = false := by decide

theorem test_wf_unknown_opcode :
    ({ opc := 0x05, f := false, rsv := 0 } : CommandWord).wellFormed = false := by decide

theorem test_wf_flag_not_allowed :
    ({ opc := 0x02, f := true, rsv := 0 } : CommandWord).wellFormed = false := by decide

theorem test_wf_flag_allowed :
    ({ opc := 0x40, f := true, rsv := 0 } : CommandWord).wellFormed = true := by decide

/-! ### Decoding: one word of each command, by hand from the map of R102 and the format of R101 -/

theorem test_decode_nop : decode 0b00000000000000000000000_0_00000000 = .ok .nop := by decide
theorem test_decode_ws_clear : decode 0b00000000000000000000000_0_00000001 = .ok .wsClear := by decide
theorem test_decode_ws_bit : decode 0b00000000000000000000000_0_00000010 = .ok .wsBit := by decide
theorem test_decode_ws_bits : decode 0b00000000000000000000000_0_00000011 = .ok .wsBits := by decide
theorem test_decode_ws_int : decode 0b00000000000000000000000_0_00000100 = .ok .wsInt := by decide
theorem test_decode_rs_load : decode 0b00000000000000000000000_1_00001000 = .ok (.rsLoad true) := by decide
theorem test_decode_rs_bit : decode 0b00000000000000000000000_0_00001001 = .ok .rsBit := by decide
theorem test_decode_rs_bits : decode 0b00000000000000000000000_0_00001010 = .ok .rsBits := by decide
theorem test_decode_rs_int : decode 0b00000000000000000000000_0_00001011 = .ok .rsInt := by decide
theorem test_decode_mono_enc : decode 0b00000000000000000000000_0_00010000 = .ok .monoEnc := by decide
theorem test_decode_mono_dec : decode 0b00000000000000000000000_0_00010001 = .ok .monoDec := by decide
theorem test_decode_huf_enc : decode 0b00000000000000000000000_0_00100000 = .ok .hufEnc := by decide
theorem test_decode_huf_dec : decode 0b00000000000000000000000_0_00100001 = .ok .hufDec := by decide
theorem test_decode_lzss_enc : decode 0b00000000000000000000000_0_00110000 = .ok .lzssEnc := by decide
theorem test_decode_lzss_dec : decode 0b00000000000000000000000_0_00110001 = .ok .lzssDec := by decide
theorem test_decode_lzw_enc : decode 0b00000000000000000000000_1_01000000 = .ok (.lzwEnc true) := by decide
theorem test_decode_lzw_dec : decode 0b00000000000000000000000_0_01000001 = .ok (.lzwDec false) := by decide
theorem test_decode_bwt_enc : decode 0b00000000000000000000000_0_01010000 = .ok .bwtEnc := by decide
theorem test_decode_bwt_dec : decode 0b00000000000000000000000_0_01010001 = .ok .bwtDec := by decide
theorem test_decode_bwt_xform : decode 0b00000000000000000000000_0_01010010 = .ok .bwtXform := by decide

/-- V-CMD: words that R105 calls illegal, each refused by its own name. -/
theorem test_decode_refuses :
    decode 0x00000200 = .error .reservedBits ∧ decode 0x80000001 = .error .reservedBits ∧
    decode 0x00000005 = .error .unknownOpcode ∧ decode 0x000000FF = .error .unknownOpcode ∧
    decode 0x00000053 = .error .unknownOpcode ∧ decode 0x00000100 = .error .flagNotAllowed ∧
    decode 0x00000152 = .error .flagNotAllowed := by decide

theorem test_decode_table_word :
    decodeTableWord 32 0x141 = some (.lzwDec true) ∧ decodeTableWord 32 0x142 = none := by decide

/-! ### A small block -/

/-- A block with small capacities, right after power-on. -/
def small : State :=
  State.powerOn { ibufCap := 16, obufCap := 16, rbufCap := 16, wsCap := 200, pick := .minPosition,
                  blockBase := 0 }

/-- The host has written `bs` to IBUF and ILEN (`LOADIN`, 30_encoding.md R109). -/
def withInput (s : State) (bs : List Byte) : State :=
  { s with ibuf := Memory.cellsFrom 0 bs, ilen := BitVec.ofNat 32 bs.length }

/-- The host has written `bs` to RBUF and RLEN (`LOADRS`, 30_encoding.md R109). -/
def withStream (s : State) (bs : List Byte) : State :=
  { s with rbuf := Memory.cellsFrom 0 bs, rlen := BitVec.ofNat 32 bs.length, rpos := 0 }

/-- The three operand registers. -/
def withArgs (s : State) (a b c : Word) : State := { s with arg0 := a, arg1 := b, arg2 := c }

/-- The alphabet `{A, B}` (`ALPHA`, 30_encoding.md R109). -/
def withAB (s : State) : State := { s with alpha := s.alpha.set 2 0x6 }

/-- The command answers a next state, and the state passes `p`. -/
def answers (i : Instr) (s : State) (p : State → Bool) : Bool :=
  match exec i s with
  | .next t => p t
  | .fault _ => false
  | .refused _ => false

/-- The first `n` bytes of OBUF. -/
def output (s : State) : List Byte := (List.range s.olen.toNat).map s.obufByte

/-! ### Vectors of 95_test_vectors.md -/

/-- R111: a NOP keeps ERR. -/
theorem test_nop_keeps_err :
    answers .nop { small with err := .malformedHeader, pending := some 0 }
      (fun t => t.err == .malformedHeader && !t.busy) = true := by decide

/-- V-BS-11. -/
theorem test_ws_clear :
    answers .wsClear { small with ws := [true, false, true] }
      (fun t => t.ws == [] && t.result0 == 0 && t.readByte .wsb 0 == 0) = true := by decide

/-- V-BS-1. -/
theorem test_ws_bit :
    answers .wsBit (withArgs small 1 0 0)
      (fun t => t.readByte .wsb 0 == 0x01 && t.result0 == 1 && t.result1 == 1) = true := by decide

/-- V-ERR-3. -/
theorem test_ws_bit_rejects_two :
    answers .wsBit (withArgs small 2 0 0) (fun t => t.err == .invalidBitValue && t.ws == []) = true := by
  decide

/-- V-BS-3. -/
theorem test_ws_bits :
    answers .wsBits (withArgs small 3 5 2)
      (fun t => t.ws == [true, true, false, false, false] && t.result0 == 5) = true := by decide

/-- V-BS-8. -/
theorem test_ws_int :
    answers .wsInt (withArgs small 6 2 0) (fun t => t.ws == [false, true] && t.result1 == 2) = true := by
  decide

/-- V-BS-7. -/
theorem test_ws_int_wide :
    answers .wsInt (withArgs small 0xFFFFFFFF 40 0)
      (fun t => toByteArray t.ws == [0xFF, 0xFF, 0xFF, 0xFF, 0x00] && t.result0 == 40) = true := by
  decide +kernel

/-- V-BS-10. -/
theorem test_rs_load :
    answers (.rsLoad false) { small with ws := [true, false, true] }
      (fun t => t.rbufByte 0 == 0x05 && t.rlen == 1 && t.result0 == 8 && t.ws.length == 3) = true := by
  decide

/-- V-BS-18. -/
theorem test_rs_load_rewind :
    answers (.rsLoad true) { small with ws := [true, false, true], rpos := 0 }
      (fun t => t.rlen == 0 && t.result0 == 0 && t.rbuf == []) = true := by decide

/-- V-BS-12. -/
theorem test_rs_bit :
    answers .rsBit (withStream small [0x05]) (fun t => t.result0 == 1 && t.rpos == 1) = true := by decide

/-- V-BS-14: clamped. -/
theorem test_rs_bits :
    answers .rsBits { withArgs (withStream small [0x05]) 0 4 0 with rpos := 6 }
      (fun t => t.result0 == 0 && t.result1 == 2 && t.rpos == 8) = true := by decide

/-- V-BS-17. -/
theorem test_rs_bits_two_bytes :
    answers .rsBits (withArgs (withStream small [0x3D, 0x07]) 0 32 0)
      (fun t => t.result0 == 0x073D && t.result1 == 16) = true := by decide +kernel

/-- V-BS-13. -/
theorem test_rs_int :
    answers .rsInt (withArgs (withStream small [0x05]) 0 3 0)
      (fun t => t.result0 == 5 && t.rpos == 3) = true := by decide

/-- V-ERR-7: not clamped. -/
theorem test_rs_int_exhausted :
    answers .rsInt (withArgs (withStream small [0x05]) 0 9 0)
      (fun t => t.err == .streamExhausted && t.rpos == 0) = true := by decide

/-- V-MONO-6: the mantissa is least significant bit first. -/
theorem test_mono_enc :
    answers .monoEnc (withArgs small 6 0 0)
      (fun t => t.ws == [true, true, false, false, true] && t.result1 == 5) = true := by decide +kernel

/-- V-MONO-12. -/
theorem test_mono_dec :
    answers .monoDec (withStream small [0x13]) (fun t => t.result0 == 6 && t.rpos == 5) = true := by
  decide +kernel

/-- V-MONO-16. -/
theorem test_mono_dec_32_ones :
    answers .monoDec (withStream small [0xFF, 0xFF, 0xFF, 0xFF])
      (fun t => t.err == .domainError && t.rpos == 0) = true := by decide +kernel

/-- V-HUF-6, the input `abc`: the tie order merges `a` and `b` first. -/
theorem test_huf_enc :
    answers .hufEnc (withInput small [0x61, 0x62, 0x63])
      (fun t => toByteArray t.ws == [0x72, 0x2C, 0x4C, 0xAC, 0x01] && t.result0 == 34) = true := by
  decide +kernel

/-- V-HUF-3, the input `abracadabra`. -/
theorem test_huf_enc_levels :
    answers .hufEnc (withInput small [0x61, 0x62, 0x72, 0x61, 0x63, 0x61, 0x64, 0x61, 0x62, 0x72, 0x61])
      (fun t => toByteArray t.ws == [0x82, 0x61, 0x62, 0x63, 0x64, 0x72, 0x72, 0x35, 0x39] &&
        t.result0 == 71) = true := by decide +kernel

/-- V-HUF-7. -/
theorem test_huf_dec :
    answers .hufDec (withArgs (withStream small [0x0C, 0x13, 0x43]) 4 0 0)
      (fun t => output t == [0x61, 0x61, 0x61, 0x62] && t.result1 == 23) = true := by decide +kernel

/-- V-HUF-13: the sixth code is past the end; OLEN stays. -/
theorem test_huf_dec_exhausted :
    answers .hufDec (withArgs (withStream small [0x0C, 0x13, 0x43]) 6 0 0)
      (fun t => t.err == .streamExhausted && t.rpos == 0 && t.olen == 0) = true := by decide +kernel

/-- V-LZSS-1, window 4, the input `ABABABAB`. -/
theorem test_lzss_enc :
    answers .lzssEnc (withArgs (withInput small [0x41, 0x42, 0x41, 0x42, 0x41, 0x42, 0x41, 0x42]) 0 4 0)
      (fun t => toByteArray t.ws == [0x82, 0x08, 0x3D, 0x1E] && t.result0 == 31) = true := by decide +kernel

/-- V-LZSS-2: a match that overlaps its own copy. -/
theorem test_lzss_enc_overlap :
    answers .lzssEnc (withArgs (withInput small [0x41, 0x41, 0x41, 0x41]) 0 4 0)
      (fun t => toByteArray t.ws == [0x82, 0x16] && t.result0 == 13) = true := by decide +kernel

/-- V-LZSS-12. -/
theorem test_lzss_dec :
    answers .lzssDec (withArgs (withStream small [0x82, 0x16]) 4 4 0)
      (fun t => output t == [0x41, 0x41, 0x41, 0x41] && t.result1 == 13) = true := by decide +kernel

/-- V-ERR-19: the padding after the eighth byte reads as a literal that is cut short. -/
theorem test_lzss_dec_exhausted :
    answers .lzssDec (withArgs (withStream small [0x82, 0x08, 0x3D, 0x1E]) 9 4 0)
      (fun t => t.err == .streamExhausted && t.rpos == 0) = true := by decide +kernel

/-- V-LZW-4: escape mode does not extend into the most recently created node. -/
theorem test_lzw_enc_escape :
    answers (.lzwEnc true) (withInput small [0x41, 0x41, 0x41, 0x41])
      (fun t => toByteArray t.ws == [0x41, 0x15] && t.result0 == 15) = true := by decide +kernel

/-- V-LZW-2, the alphabet `{A, B}` without escape. -/
theorem test_lzw_enc_alphabet :
    answers (.lzwEnc false) (withInput (withAB small) [0x41, 0x42, 0x41, 0x42, 0x41, 0x42])
      (fun t => toByteArray t.ws == [0x52] && t.result0 == 8) = true := by decide +kernel

/-- V-LZW-10. -/
theorem test_lzw_dec_escape :
    answers (.lzwDec true) (withArgs (withStream small [0x41, 0x08, 0x49]) 6 0 0)
      (fun t => output t == [0x41, 0x42, 0x41, 0x42, 0x41, 0x42] && t.result1 == 24) = true := by
  decide +kernel

/-- V-LZW-11. -/
theorem test_lzw_dec_alphabet :
    answers (.lzwDec false) (withArgs (withStream (withAB small) [0x52]) 6 0 0)
      (fun t => output t == [0x41, 0x42, 0x41, 0x42, 0x41, 0x42] && t.result1 == 8) = true := by
  decide +kernel

/-- The transform of `banana` (example E8): `nnbaaa`, rank 3. -/
theorem test_bwt_xform :
    answers .bwtXform (withInput small [0x62, 0x61, 0x6E, 0x61, 0x6E, 0x61])
      (fun t => output t == [0x6E, 0x6E, 0x62, 0x61, 0x61, 0x61] && t.result0 == 3) = true := by
  decide +kernel

/-- V-ERR-12. -/
theorem test_bwt_xform_empty :
    answers .bwtXform { small with olen := 5 } (fun t => t.err == .domainError && t.olen == 5) = true := by decide

/-- V-BWT-7, the input `banana`. -/
theorem test_bwt_enc :
    answers .bwtEnc (withArgs (withInput small [0x62, 0x61, 0x6E, 0x61, 0x6E, 0x61]) 0 4 0)
      (fun t => toByteArray t.ws == [0x8D, 0x8E, 0x1B, 0x31, 0x61] && t.result0 == 40) = true := by
  decide +kernel

/-- V-BWT-12. -/
theorem test_bwt_dec :
    answers .bwtDec (withArgs (withStream small [0x8D, 0x8E, 0x1B, 0x31, 0x61]) 0 4 0)
      (fun t => output t == [0x62, 0x61, 0x6E, 0x61, 0x6E, 0x61] && t.result1 == 40) = true := by
  decide +kernel

/-- V-ERR-23: a rank that is not below the length. -/
theorem test_bwt_dec_rank :
    answers .bwtDec (withArgs (withStream small [0x3A]) 0 4 0)
      (fun t => t.err == .malformedHeader && t.rpos == 0) = true := by decide +kernel

/-! ### Steps -/

/-- The table's word for `WS_BIT` runs as the first command after reset: ARG0 is 0. -/
theorem test_step_first_command :
    (match step (State.reset.withFetchWord 32 0x2) with
      | .next t => t.ws == [false] && !t.busy && t.moves == []
      | _ => false) = true := by decide +kernel

/-- Every row of the table answers a next state as the first command after reset. -/
theorem test_step_every_row :
    (([0x00, 0x01, 0x02, 0x03, 0x04, 0x08, 0x09, 0x0A, 0x0B, 0x10, 0x11, 0x20, 0x21, 0x30, 0x31, 0x40, 0x41,
      0x50, 0x51, 0x52] : List Nat).all fun w =>
        match step (State.reset.withFetchWord 32 w) with
        | .next t => !t.busy && t.cmd == BitVec.ofNat 32 w
        | _ => false) = true := by decide +kernel

/-! ### Witnesses: for each statement with hypotheses, a case that meets them -/

theorem witness_IllegalWordsRaise :
    illegalWord 0x00000200 ∧ illegalWord 0x80000040 ∧ illegalWord 0x00000053 ∧ illegalWord 0x00000100 ∧
    ¬ illegalWord 0x00000140 ∧
    (∃ s : State, s.pending = some 0x00000100 ∧ s.moves = []) ∧
    ∃ (s : State) (ms : List Move), s.pending = some 0x00000100 ∧ s.moves = .wait :: ms :=
  ⟨by decide, by decide, by decide, by decide, by decide,
    ⟨{ small with pending := some 0x00000100 }, rfl, rfl⟩,
    ⟨{ small with pending := some 0x00000100, moves := [.wait, .reset] }, [.reset], rfl, rfl⟩⟩

theorem witness_StepRunsTheDecodedCommand :
    decode 0x00000140 = .ok (.lzwEnc true) ∧
    (∃ s : State, s.pending = some 0x00000140 ∧ s.moves = []) ∧
    ∃ (s : State) (ms : List Move), s.pending = some 0x00000140 ∧ s.moves = .wait :: ms :=
  ⟨by decide, ⟨{ small with pending := some 0x00000140 }, rfl, rfl⟩,
    ⟨{ small with pending := some 0x00000140, moves := [.wait] }, [], rfl, rfl⟩⟩

/-- A failing `WS_BIT`, and a failing `HUF_DEC`, which may write OBUF. -/
theorem witness_FailedCommandRollsBack :
    (∃ s t : State, exec .wsBit s = .next t ∧ Instr.wsBit ≠ .nop ∧ t.err ≠ .noError ∧ obufReach .wsBit s = 0) ∧
    ∃ s t : State, exec .hufDec s = .next t ∧ t.err ≠ .noError ∧ obufReach .hufDec s = 1 :=
  ⟨⟨withArgs small 2 0 0, after .wsBit (withArgs small 2 0 0), rfl, by decide, by decide, rfl⟩,
    ⟨withArgs (withStream small [0x06]) 1 0 0, after .hufDec (withArgs (withStream small [0x06]) 1 0 0),
      rfl, by decide +kernel, rfl⟩⟩

/-- Each error, raised by a command (V-ERR-8, 3, 10, 16, 9 and a full stream). -/
theorem witness_ErrorsAreRaisedAsListed :
    answers .rsBit small (fun t => t.err == .streamExhausted) = true ∧
    answers .wsBit (withArgs small 0xFFFFFFFF 0 0) (fun t => t.err == .invalidBitValue) = true ∧
    answers (.lzwEnc false) (withInput (withAB small) [0x41, 0x5A]) (fun t => t.err == .unknownSymbol) = true ∧
    answers .lzssDec (withArgs (withStream small [0x01]) 1 4 0) (fun t => t.err == .malformedHeader) = true ∧
    answers .monoEnc small (fun t => t.err == .domainError) = true ∧
    answers .wsInt (withArgs small 0 201 0) (fun t => t.err == .capacityExceeded) = true := by
  refine ⟨?_, ?_, ?_, ?_, ?_, ?_⟩ <;> decide +kernel

/-- A success that keeps STICKY, and a failure that sets it. -/
theorem witness_StickyRecordsErrors :
    (∃ s t : State, exec .wsClear s = .next t ∧ s.sticky = true ∧ t.sticky = true ∧ t.err = .noError) ∧
    ∃ s t : State, exec .monoEnc s = .next t ∧ s.sticky = false ∧ t.sticky = true :=
  ⟨⟨{ small with sticky := true }, after .wsClear { small with sticky := true }, rfl, rfl, rfl, rfl⟩,
    ⟨small, after .monoEnc small, rfl, rfl, rfl⟩⟩

theorem witness_StickyStaysUntilReset :
    ∃ s t : State, step s = .next t ∧ s.sticky = true ∧ (∀ ms, s.moves ≠ .reset :: ms) :=
  ⟨{ small with sticky := true, pending := some 1 }, after .wsClear { small with sticky := true, pending := some 1 },
    rfl, rfl, fun ms => by simp [small, State.powerOn]⟩

/-- `RS_BIT` uses none of the three operand registers. -/
theorem witness_UnusedArgumentsHaveNoEffect :
    ∃ s t : State, exec .rsBit s = .next t ∧ t.err = .noError :=
  ⟨withStream small [0x05], after .rsBit (withStream small [0x05]), rfl, by decide⟩

theorem witness_WriteCommandsFrame :
    ∃ s t : State, exec .monoEnc s = .next t ∧ Instr.monoEnc ≠ .wsClear ∧ t.ws ≠ s.ws :=
  ⟨withArgs small 6 0 0, after .monoEnc (withArgs small 6 0 0), rfl, by decide, by decide +kernel⟩

theorem witness_ReadCommandsFrame :
    ∃ s t : State, exec .monoDec s = .next t ∧ t.rpos ≠ s.rpos :=
  ⟨withStream small [0x13], after .monoDec (withStream small [0x13]), rfl, by decide +kernel⟩

/-- A decoder that writes four bytes, and the transform. -/
theorem witness_DecodeCommandsFrame :
    (∃ s t : State, exec .lzssDec s = .next t ∧ t.olen = 4 ∧ obufReach .lzssDec s = 4) ∧
    ∃ s t : State, exec .bwtXform s = .next t ∧ t.olen = 4 ∧ obufReach .bwtXform s = 4 :=
  ⟨⟨withArgs (withStream small [0x82, 0x16]) 4 4 0, after .lzssDec (withArgs (withStream small [0x82, 0x16]) 4 4 0),
      rfl, by decide +kernel, rfl⟩,
    ⟨withInput small [0x61, 0x62, 0x61, 0x62], after .bwtXform (withInput small [0x61, 0x62, 0x61, 0x62]),
      rfl, by decide +kernel, by decide⟩⟩

/-- V-CMD-2: `OPC = 0` with `F = 1`. -/
theorem witness_NopHasNoEffect : ∃ w : Word, w.extractLsb' 0 8 = 0 ∧ w ≠ 0 := ⟨0x00000100, by decide, by decide⟩

/-- Both bit values with one place left, a value that is no bit, and a full stream. -/
theorem witness_WsBitAppendsOneBit :
    (∃ s : State, s.arg0 = (if true then 1 else 0) ∧ s.ws.length + 1 = s.params.wsCap) ∧
    (∃ s : State, s.arg0 = (if false then 1 else 0) ∧ s.ws.length < s.params.wsCap) ∧
    (∃ s : State, s.arg0 ≠ 0 ∧ s.arg0 ≠ 1) ∧
    ∃ s : State, s.arg0 = 1 ∧ s.ws.length = s.params.wsCap :=
  ⟨⟨{ withArgs small 1 0 0 with ws := List.replicate 199 true }, rfl, rfl⟩, ⟨small, rfl, by decide⟩,
    ⟨withArgs small 2 0 0, by decide, by decide⟩,
    ⟨{ withArgs small 1 0 0 with ws := List.replicate 200 true }, rfl, rfl⟩⟩

theorem witness_WsBitsAppendsTheSequence :
    (∃ s : State, s.arg2.toNat = 32 ∧ s.ws.length + s.arg1.toNat = s.params.wsCap) ∧
    (∃ s : State, s.arg2.toNat = 33) ∧
    ∃ s : State, s.arg2.toNat ≤ 32 ∧ s.ws.length + s.arg1.toNat = s.params.wsCap + 1 :=
  ⟨⟨withArgs small 0 200 32, rfl, rfl⟩, ⟨withArgs small 0 0 33, rfl⟩,
    ⟨withArgs small 0 201 32, by decide, rfl⟩⟩

theorem witness_WsIntAppendsTheLowBits :
    (∃ s : State, s.ws.length + s.arg1.toNat = s.params.wsCap) ∧
    ∃ s : State, s.ws.length + s.arg1.toNat = s.params.wsCap + 1 :=
  ⟨⟨withArgs small 0 200 0, rfl⟩, ⟨withArgs small 0 201 0, rfl⟩⟩

/-- A stream that just fits RBUF and one that does not; a rewind with RLEN at and above RBUF_CAP. -/
theorem witness_RsLoadCopiesOrRewinds :
    (∃ (s : State) (nb : Nat), nb = (s.ws.length + 7) / 8 ∧ nb = s.params.rbufCap) ∧
    (∃ (s : State) (nb : Nat), nb = (s.ws.length + 7) / 8 ∧ nb = s.params.rbufCap + 1) ∧
    (∃ s : State, s.rlen.toNat = s.params.rbufCap) ∧ ∃ s : State, s.rlen.toNat = s.params.rbufCap + 1 :=
  ⟨⟨{ small with ws := List.replicate 128 true }, 16, by decide +kernel, rfl⟩,
    ⟨{ small with ws := List.replicate 129 true }, 17, by decide +kernel, rfl⟩,
    ⟨{ small with rlen := 16 }, rfl⟩, ⟨{ small with rlen := 17 }, rfl⟩⟩

theorem witness_RsBitReadsOneBit :
    (∃ s : State, s.rlen.toNat ≤ s.params.rbufCap ∧ s.rpos.toNat + 1 = 8 * s.rlen.toNat) ∧
    (∃ s : State, s.rlen.toNat ≤ s.params.rbufCap ∧ 8 * s.rlen.toNat ≤ s.rpos.toNat) ∧
    ∃ s : State, s.params.rbufCap < s.rlen.toNat :=
  ⟨⟨{ small with rlen := 16, rpos := 127 }, by decide, rfl⟩, ⟨{ small with rlen := 16, rpos := 128 }, by decide, by decide⟩,
    ⟨{ small with rlen := 17 }, by decide⟩⟩

theorem witness_RsBitsClamps :
    (∃ (s : State) (m : Nat), s.rlen.toNat ≤ s.params.rbufCap ∧ s.arg1.toNat = 32 ∧ m = 2 ∧
      m = min s.arg1.toNat (8 * s.rlen.toNat - s.rpos.toNat)) ∧
    ∃ s : State, s.rlen.toNat ≤ s.params.rbufCap ∧ s.arg1.toNat = 33 :=
  ⟨⟨{ small with rlen := 1, rpos := 6, arg1 := 32 }, 2, by decide, rfl, rfl, by decide⟩,
    ⟨{ small with arg1 := 33 }, by decide, rfl⟩⟩

theorem witness_RsIntReadsAnInteger :
    (∃ s : State, s.rlen.toNat ≤ s.params.rbufCap ∧ s.arg1.toNat = 32 ∧
      s.arg1.toNat = 8 * s.rlen.toNat - s.rpos.toNat) ∧
    (∃ s : State, s.rlen.toNat ≤ s.params.rbufCap ∧ s.arg1.toNat = 33) ∧
    ∃ s : State, s.rlen.toNat ≤ s.params.rbufCap ∧ s.arg1.toNat ≤ 32 ∧
      8 * s.rlen.toNat - s.rpos.toNat < s.arg1.toNat :=
  ⟨⟨{ small with rlen := 4, arg1 := 32 }, by decide, rfl, rfl⟩, ⟨{ small with arg1 := 33 }, by decide, rfl⟩,
    ⟨{ small with rlen := 1, arg1 := 9 }, by decide, by decide, by decide⟩⟩

theorem witness_StreamReturnsWhatWasWritten :
    ∃ s : State, s.arg1.toNat = 32 ∧ s.arg1.toNat ≤ s.params.wsCap ∧ 4 ≤ s.params.rbufCap :=
  ⟨withArgs small 0xFFFFFFFF 32 0, rfl, by decide, by decide⟩

/-- The longest code, zero, and a code that does not fit by one bit. -/
theorem witness_MonoEncAppendsTheCode :
    (∃ s : State, s.arg0 ≠ 0 ∧ Nat.log2 s.arg0.toNat = 31 ∧ s.ws.length + (2 * 31 + 1) = s.params.wsCap) ∧
    (∃ s : State, s.arg0 = 0) ∧
    ∃ s : State, s.arg0 ≠ 0 ∧ Nat.log2 s.arg0.toNat = 0 ∧ s.params.wsCap < s.ws.length + (2 * 0 + 1) :=
  ⟨⟨{ withArgs small 0xFFFFFFFF 0 0 with ws := List.replicate 137 true }, by decide, by decide +kernel, rfl⟩,
    ⟨small, rfl⟩,
    ⟨{ withArgs small 1 0 0 with ws := List.replicate 200 true }, by decide, by decide +kernel, by decide +kernel⟩⟩

/-- V-MONO-12, V-MONO-15 (31 ones), V-MONO-16, V-MONO-17, and a code cut in its mantissa. -/
theorem witness_MonoDecReadsTheCode :
    (∃ (s : State) (k : Nat) (bs : List Bool), s.rlen.toNat ≤ s.params.rbufCap ∧ k < 32 ∧ bs.length = k ∧
      s.holdsBits (List.replicate k true ++ [false] ++ bs) ∧ k = 2) ∧
    (∃ (s : State) (k : Nat) (bs : List Bool), s.rlen.toNat ≤ s.params.rbufCap ∧ k < 32 ∧ bs.length = k ∧
      s.holdsBits (List.replicate k true ++ [false] ++ bs) ∧ k = 31) ∧
    (∃ s : State, s.rlen.toNat ≤ s.params.rbufCap ∧ s.holdsBits (List.replicate 32 true)) ∧
    (∃ (s : State) (k : Nat), s.rlen.toNat ≤ s.params.rbufCap ∧ k < 32 ∧
      s.holdsBits (List.replicate k true) ∧ 8 * s.rlen.toNat = s.rpos.toNat + k) ∧
    ∃ (s : State) (k : Nat), s.rlen.toNat ≤ s.params.rbufCap ∧ k < 32 ∧
      s.holdsBits (List.replicate k true ++ [false]) ∧ 8 * s.rlen.toNat < s.rpos.toNat + (2 * k + 1) :=
  ⟨⟨withStream small [0x13], 2, [false, true], by decide, by decide, rfl, by decide +kernel, rfl⟩,
    ⟨withStream small [0xFF, 0xFF, 0xFF, 0x7F, 0, 0, 0, 0], 31, List.replicate 31 false, by decide, by decide, rfl,
      by decide +kernel, rfl⟩,
    ⟨withStream small [0xFF, 0xFF, 0xFF, 0xFF], by decide, by decide +kernel⟩,
    ⟨withStream small [0xFF, 0xFF, 0xFF], 24, by decide, by decide, by decide +kernel, rfl⟩,
    ⟨withStream small [0x1F], 5, by decide, by decide, by decide +kernel, by decide⟩⟩

theorem witness_MonoRoundTrip :
    ∃ s : State, s.arg0 ≠ 0 ∧ 63 ≤ s.params.wsCap ∧ 8 ≤ s.params.rbufCap :=
  ⟨withArgs small 0xFFFFFFFF 0 0, by decide, by decide, by decide⟩

/-- The boundary values of `bitsFor` in R12: 4 and 5. -/
theorem witness_BitsForIsLeastWidth : 4 ≤ 2 ^ 2 ∧ bitsFor 4 = 2 ∧ 5 ≤ 2 ^ 3 ∧ bitsFor 5 = 3 := by decide +kernel

/-- `B` is symbol 66: bit 2 of ALPHA2. -/
theorem witness_AlphabetIsTheSetBits :
    ∃ (c : Byte) (j : Fin 8), j.val = c.toNat / 32 ∧ ((withAB small).alpha[j]).getLsbD (c.toNat % 32) = true :=
  ⟨0x42, 2, by decide, by decide⟩

/-- For each of the three encoders, an input it accepts; too long an input; an empty one; a full stream. -/
theorem witness_EncodersAppendTheirOutput :
    (∃ (s : State) (bits : List Bool), bits = huffBits s.inputBytes ∧ s.ilen.toNat ≤ s.params.ibufCap ∧
      s.ilen ≠ 0 ∧ s.ws.length + bits.length ≤ s.params.wsCap) ∧
    (∃ (s : State) (bits : List Bool), bits = lzssBits s.params.pick s.arg1.toNat s.inputBytes ∧
      s.ilen.toNat ≤ s.params.ibufCap ∧ s.ilen = 0 ∧ s.ws.length + bits.length ≤ s.params.wsCap) ∧
    (∃ (s : State) (bits : List Bool), bits = bwtBits s.params.pick s.arg1.toNat s.inputBytes ∧
      s.ilen.toNat ≤ s.params.ibufCap ∧ s.ilen ≠ 0 ∧ s.ws.length + bits.length ≤ s.params.wsCap) ∧
    (∃ s : State, s.ilen.toNat = s.params.ibufCap + 1) ∧
    (∃ s : State, s.ilen.toNat ≤ s.params.ibufCap ∧ s.ilen = 0 ∧ Instr.hufEnc ≠ .lzssEnc) ∧
    ∃ (s : State) (bits : List Bool), bits = huffBits s.inputBytes ∧ s.ilen.toNat ≤ s.params.ibufCap ∧
      s.ilen ≠ 0 ∧ s.params.wsCap < s.ws.length + bits.length :=
  ⟨⟨withInput small [0x61, 0x62], huffBits (withInput small [0x61, 0x62]).inputBytes, rfl, by decide, by decide,
      by decide +kernel⟩,
    ⟨small, [], rfl, by decide, rfl, by decide⟩,
    ⟨withInput small [0x61], bwtBits .minPosition 0 (withInput small [0x61]).inputBytes, rfl, by decide, by decide,
      by decide +kernel⟩,
    ⟨{ small with ilen := 17 }, rfl⟩, ⟨small, by decide, rfl, by decide⟩,
    ⟨{ withInput small [0x61] with ws := List.replicate 192 true }, huffBits (withInput small [0x61]).inputBytes, rfl,
      by decide, by decide, by decide +kernel⟩⟩

/-- V-HUF-1, V-HUF-2, V-HUF-6, and `abccdd`. -/
theorem witness_HufEncOneOrTwoSymbols :
    (∃ (s : State) (c : Byte), s.ilen.toNat ≤ s.params.ibufCap ∧ s.ilen ≠ 0 ∧
      (∀ k, k < s.ilen.toNat → s.ibufByte k = c) ∧ s.ws.length + 9 ≤ s.params.wsCap) ∧
    (∃ (s : State) (a b : Byte), s.ilen.toNat ≤ s.params.ibufCap ∧ a.toNat < b.toNat ∧
      (∀ k, k < s.ilen.toNat → s.ibufByte k = a ∨ s.ibufByte k = b) ∧
      (∃ k, k < s.ilen.toNat ∧ s.ibufByte k = a) ∧ (∃ k, k < s.ilen.toNat ∧ s.ibufByte k = b) ∧
      s.ws.length + (19 + s.ilen.toNat) ≤ s.params.wsCap) ∧
    (∃ (s : State) (x y z : Byte) (bits : List Bool), s.ilen.toNat ≤ s.params.ibufCap ∧ x.toNat < y.toNat ∧
      x ∈ s.inputBytes ∧ y ∈ s.inputBytes ∧ z ∈ s.inputBytes ∧
      (∀ e ∈ s.inputBytes, e = x ∨ e = y ∨ e = z) ∧ leafBefore s.inputBytes x z ∧ leafBefore s.inputBytes y z ∧
      bits = [false] ++ [true, false] ++ [false, true] ++ symbolBits z ++ symbolBits x ++ symbolBits y ++
        s.inputBytes.flatMap (fun e => if e = z then [false] else [true, decide (e = y)]) ∧
      s.ws.length + bits.length ≤ s.params.wsCap) ∧
    ∃ (s : State) (a b c d : Byte) (f : Nat) (bits : List Bool), s.ilen.toNat ≤ s.params.ibufCap ∧
      a.toNat < b.toNat ∧ b.toNat < c.toNat ∧ c.toNat < d.toNat ∧
      (∀ e ∈ s.inputBytes, e = a ∨ e = b ∨ e = c ∨ e = d) ∧ f ≠ 0 ∧ s.inputBytes.count a = f ∧
      s.inputBytes.count b = f ∧ s.inputBytes.count c = 2 * f ∧ s.inputBytes.count d = 2 * f ∧
      bits = [false] ++ [false, false] ++ [false, false, true] ++ symbolBits a ++ symbolBits b ++
        symbolBits c ++ symbolBits d ++
        s.inputBytes.flatMap (fun e => [decide (e = c ∨ e = d), decide (e = b ∨ e = d)]) ∧
      s.ws.length + bits.length ≤ s.params.wsCap :=
  ⟨⟨withInput small [0x61, 0x61, 0x61, 0x61], 0x61, by decide, by decide, by decide +kernel, by decide⟩,
    ⟨withInput small [0x61, 0x61, 0x61, 0x62], 0x61, 0x62, by decide, by decide, by decide +kernel,
      ⟨0, by decide, rfl⟩, ⟨3, by decide, rfl⟩, by decide⟩,
    ⟨withInput small [0x61, 0x62, 0x63], 0x61, 0x62, 0x63, _, by decide, by decide, by decide +kernel,
      by decide +kernel, by decide +kernel, by decide +kernel, by decide +kernel, by decide +kernel, rfl,
      by decide +kernel⟩,
    ⟨withInput small [0x61, 0x62, 0x63, 0x63, 0x64, 0x64], 0x61, 0x62, 0x63, 0x64, 1, _, by decide, by decide,
      by decide, by decide, by decide +kernel, by decide, by decide +kernel, by decide +kernel, by decide +kernel,
      by decide +kernel, rfl, by decide +kernel⟩⟩

/-- V-LZSS-6. -/
theorem witness_LzssEncWindowZeroIsLiterals :
    ∃ s : State, s.arg1 = 0 ∧ s.ilen.toNat = 4 ∧ s.ilen.toNat ≤ s.params.ibufCap ∧
      s.ws.length + 9 * s.ilen.toNat ≤ s.params.wsCap :=
  ⟨withInput small [0x41, 0x42, 0x41, 0x42], rfl, rfl, by decide, by decide⟩

/-- V-LZSS-2, its input with window bound 1, three alternating bytes with window bound 2, and V-LZSS-1. -/
theorem witness_LzssEncEmitsMatches :
    (∃ (s : State) (n : Nat) (bits : List Bool) (c : Byte), n = s.ilen.toNat ∧ n ≤ s.params.ibufCap ∧
      s.ws.length + bits.length ≤ s.params.wsCap ∧ (∀ k, k < n → s.ibufByte k = c) ∧ 2 ≤ n ∧
      n = s.arg1.toNat + 1 ∧ bits = false :: symbolBits c ++ true :: monoCode (n - 1)) ∧
    (∃ (s : State) (n : Nat) (bits : List Bool) (c : Byte), n = s.ilen.toNat ∧ n ≤ s.params.ibufCap ∧
      s.ws.length + bits.length ≤ s.params.wsCap ∧ (∀ k, k < n → s.ibufByte k = c) ∧ 1 ≤ n ∧ s.arg1 = 1 ∧
      bits = false :: symbolBits c ++ (List.replicate (n - 1) [true, false]).flatten) ∧
    (∃ (s : State) (n : Nat) (bits : List Bool) (a b : Byte), n = s.ilen.toNat ∧ n ≤ s.params.ibufCap ∧
      s.ws.length + bits.length ≤ s.params.wsCap ∧ a ≠ b ∧
      (∀ k, k < n → s.ibufByte k = if k % 2 = 0 then a else b) ∧ n = 3 ∧ s.arg1.toNat = 2 ∧
      bits = false :: symbolBits a ++ false :: symbolBits b ++ [true, true] ++ monoCode (n - 2)) ∧
    ∃ (s : State) (n : Nat) (bits : List Bool) (a b : Byte), n = s.ilen.toNat ∧ n ≤ s.params.ibufCap ∧
      s.ws.length + bits.length ≤ s.params.wsCap ∧ a ≠ b ∧
      (∀ k, k < n → s.ibufByte k = if k % 2 = 0 then a else b) ∧ s.params.pick = .minPosition ∧ n = 8 ∧
      s.arg1 = 4 ∧ bits = false :: symbolBits a ++ false :: symbolBits b ++ [true, true] ++ monoCode 4 ++
        [true, true, true] ++ monoCode 2 :=
  ⟨⟨withArgs (withInput small [0x41, 0x41, 0x41, 0x41]) 0 3 0, 4, _, 0x41, rfl, by decide, by decide +kernel,
      by decide +kernel, by decide, rfl, rfl⟩,
    ⟨withArgs (withInput small [0x41, 0x41, 0x41, 0x41]) 0 1 0, 4, _, 0x41, rfl, by decide, by decide +kernel,
      by decide +kernel, by decide, rfl, rfl⟩,
    ⟨withArgs (withInput small [0x41, 0x42, 0x41]) 0 2 0, 3, _, 0x41, 0x42, rfl, by decide, by decide +kernel,
      by decide, by decide +kernel, rfl, rfl, rfl⟩,
    ⟨withArgs (withInput small [0x41, 0x42, 0x41, 0x42, 0x41, 0x42, 0x41, 0x42]) 0 4 0, 8, _, 0x41, 0x42, rfl,
      by decide, by decide +kernel, by decide, by decide +kernel, rfl, rfl, rfl, rfl⟩⟩

theorem witness_LzssPickTakesACandidate : ([3, 1, 2] : List Nat) ≠ [] ∧ pickCandidate .minPosition [3, 1, 2] = 1 := by
  decide

/-- Escape mode on any input; no escape on an input over the alphabet; and the three spelled-out inputs
(V-LZW-1, V-LZW-4, V-LZW-5). -/
theorem witness_LzwEncCompletes :
    (∃ s : State, s.params.legal ∧ s.ilen.toNat ≤ s.params.ibufCap ∧ s.ilen ≠ 0 ∧
      (∀ a, a < s.ilen.toNat → s.ibufByte a ∈ s.alphabet) ∧
      s.ws.length + 34 * s.ilen.toNat ≤ s.params.wsCap) ∧
    (∃ (s : State) (a b : Byte), s.ilen.toNat = 6 ∧ 6 ≤ s.params.ibufCap ∧ (∀ c, c ∉ s.alphabet) ∧ a ≠ b ∧
      (∀ k, k < 6 → s.ibufByte k = if k % 2 = 0 then a else b) ∧ s.ws.length + 24 ≤ s.params.wsCap) ∧
    (∃ (s : State) (c : Byte), s.ilen.toNat = 4 ∧ 4 ≤ s.params.ibufCap ∧ (∀ k, k < 4 → s.ibufByte k = c) ∧
      (∀ x, x ∉ s.alphabet) ∧ s.ws.length + 15 ≤ s.params.wsCap) ∧
    ∃ (s : State) (c : Byte), s.ilen.toNat = 4 ∧ 4 ≤ s.params.ibufCap ∧ (∀ k, k < 4 → s.ibufByte k = c) ∧
      s.alphabet = [c] ∧ s.ws.length + 3 ≤ s.params.wsCap :=
  ⟨⟨withInput (withAB small) [0x41, 0x42, 0x41], by decide, by decide, by decide, by decide +kernel, by decide⟩,
    ⟨withInput small [0x41, 0x42, 0x41, 0x42, 0x41, 0x42], 0x41, 0x42, rfl, by decide,
      by intro c; rw [show State.alphabet _ = [] from by decide +kernel]; simp, by decide, by decide +kernel,
      by decide⟩,
    ⟨withInput small [0x41, 0x41, 0x41, 0x41], 0x41, rfl, by decide, by decide +kernel,
      by intro c; rw [show State.alphabet _ = [] from by decide +kernel]; simp, by decide⟩,
    ⟨withInput { small with alpha := small.alpha.set 2 0x2 } [0x41, 0x41, 0x41, 0x41], 0x41, rfl, by decide,
      by decide +kernel, by decide +kernel, by decide⟩⟩

/-- V-ERR-10: `Z` is outside the alphabet; `Z` first, on a full stream; V-PRI-3, and the same with room for one
bit; and one escaped symbol with room for seven of its eight bits. -/
theorem witness_UnknownSymbolExactly :
    (∃ s t : State, exec (.lzwEnc false) s = .next t ∧ t.err = .unknownSymbol) ∧
    (∃ s : State, s.params.legal ∧ s.ilen.toNat ≤ s.params.ibufCap ∧
      (∃ a, a < s.ilen.toNat ∧ s.ibufByte a ∉ s.alphabet) ∧
      s.ws.length + 34 * s.ilen.toNat ≤ s.params.wsCap) ∧
    (∃ s : State, s.ilen.toNat = 1 ∧ s.ilen.toNat ≤ s.params.ibufCap ∧ s.ibufByte 0 ∉ s.alphabet ∧
      s.ws.length = s.params.wsCap) ∧
    (∃ s : State, s.ilen = 2 ∧ 2 ≤ s.params.ibufCap ∧ s.ibufByte 0 ∈ s.alphabet ∧ s.ibufByte 1 ∉ s.alphabet ∧
      s.ws.length + bitsFor s.alphabet.length = s.params.wsCap + 1) ∧
    (∃ s : State, s.ilen = 2 ∧ 2 ≤ s.params.ibufCap ∧ s.ibufByte 0 ∈ s.alphabet ∧ s.ibufByte 1 ∉ s.alphabet ∧
      s.ws.length + bitsFor s.alphabet.length = s.params.wsCap) ∧
    ∃ (s : State) (cap : Nat) (bits : List Bool), s.ilen.toNat ≤ s.params.ibufCap ∧ s.ws.length ≤ s.params.wsCap ∧
      lzwEncode true s.alphabet cap s.ws s.inputBytes = .ok (s.ws ++ bits) ∧
      s.ws.length + bits.length = s.params.wsCap + 1 :=
  ⟨⟨withInput (withAB small) [0x41, 0x5A], after (.lzwEnc false) (withInput (withAB small) [0x41, 0x5A]), rfl,
      by decide +kernel⟩,
    ⟨withInput (withAB small) [0x41, 0x5A], by decide, by decide, ⟨1, by decide, by decide +kernel⟩, by decide⟩,
    ⟨{ withInput (withAB small) [0x5A] with ws := List.replicate 200 true }, rfl, by decide, by decide +kernel,
      by decide +kernel⟩,
    ⟨{ withInput (withAB small) [0x41, 0x5A] with ws := List.replicate 200 true }, rfl, by decide, by decide +kernel,
      by decide +kernel, by decide +kernel⟩,
    ⟨{ withInput (withAB small) [0x41, 0x5A] with ws := List.replicate 199 true }, rfl, by decide, by decide +kernel,
      by decide +kernel, by decide +kernel⟩,
    ⟨{ withInput small [0x41] with ws := List.replicate 193 true }, 300, symbolBits 0x41, by decide,
      by decide +kernel, by decide +kernel, by decide +kernel⟩⟩

/-- The longest message, and the empty one (V-ERR-12). -/
theorem witness_BwtXformSortsRotations :
    (∃ s : State, s.ilen.toNat = s.params.ibufCap ∧ s.ilen.toNat = s.params.obufCap ∧ s.ilen.toNat ≠ 0) ∧
    ∃ s : State, s.ilen = 0 :=
  ⟨⟨withInput small (List.replicate 16 0x61), rfl, rfl, by decide⟩, ⟨small, rfl⟩⟩

/-- The four decoders, on V-HUF-7, V-LZSS-12, V-LZW-11 and V-BWT-13. -/
theorem witness_DecodersDeliverTheirOutput :
    (∃ (s : State) (out : List Byte) (r : Reader), s.rlen.toNat ≤ s.params.rbufCap ∧
      s.arg0.toNat ≤ s.params.obufCap ∧ out.length = s.arg0.toNat ∧
      huffDecode s.arg0.toNat s.reader = .ok (out, r)) ∧
    (∃ (s : State) (out : List Byte) (r : Reader), s.rlen.toNat ≤ s.params.rbufCap ∧
      s.arg0.toNat ≤ s.params.obufCap ∧ out.length = s.arg0.toNat ∧
      lzssDecode s.arg1.toNat s.arg0.toNat s.reader = .ok (out, r)) ∧
    (∃ (s : State) (out : List Byte) (r : Reader), s.rlen.toNat ≤ s.params.rbufCap ∧
      s.arg0.toNat ≤ s.params.obufCap ∧ out.length = s.arg0.toNat ∧
      lzwDecode false s.alphabet s.arg0.toNat s.reader = .ok (out, r)) ∧
    ∃ (s : State) (n : Nat) (out : List Byte) (r r' : Reader) (lens : List Nat),
      s.rlen.toNat ≤ s.params.rbufCap ∧ n ≤ s.params.obufCap ∧ out.length = n ∧
      readRuns s.params.obufCap s.reader = .ok (lens, r') ∧ n = lens.sum ∧
      readMessage s.arg1.toNat n lens r' = .ok (out, r) :=
  ⟨⟨withArgs (withStream small [0x0C, 0x13, 0x43]) 4 0 0, [0x61, 0x61, 0x61, 0x62],
      { (withStream small [0x0C, 0x13, 0x43]).reader with pos := 23 }, by decide, by decide, rfl, by decide +kernel⟩,
    ⟨withArgs (withStream small [0x82, 0x16]) 4 4 0, [0x41, 0x41, 0x41, 0x41],
      { (withStream small [0x82, 0x16]).reader with pos := 13 }, by decide, by decide, rfl, by decide +kernel⟩,
    ⟨withArgs (withStream (withAB small) [0x52]) 6 0 0, [0x41, 0x42, 0x41, 0x42, 0x41, 0x42],
      { (withStream small [0x52]).reader with pos := 8 }, by decide, by decide, rfl, by decide +kernel⟩,
    ⟨withArgs (withStream small [0x08, 0x03]) 0 4 0, 1, [0x61],
      { (withStream small [0x08, 0x03]).reader with pos := 11 },
      { (withStream small [0x08, 0x03]).reader with pos := 2 }, [1], by decide, by decide, rfl, by decide +kernel, rfl,
      by decide +kernel⟩⟩

/-- V-HUF-8; V-ERR-13; V-HUF-13, the sixth code; a count of 5 at depth 2, where 4 slots are open; V-ERR-14, nine
counts of 0; V-ERR-15, whose ninth count is cut short; and a symbol list that is 3 bits short. -/
theorem witness_HufDecOneLeafOrOverfull :
    (∃ (s : State) (c : Byte), s.rlen.toNat ≤ s.params.rbufCap ∧ s.arg0.toNat ≤ s.params.obufCap ∧
      s.holdsBits (true :: symbolBits c)) ∧
    (∃ s : State, s.rlen.toNat ≤ s.params.rbufCap ∧ s.arg0.toNat ≤ s.params.obufCap ∧
      s.holdsBits [false, true, true]) ∧
    (∃ (s : State) (cs : List Nat) (m c : Nat), s.rlen.toNat ≤ s.params.rbufCap ∧
      s.arg0.toNat ≤ s.params.obufCap ∧ headerAccepted 1 0 cs = true ∧ m = openSlots 1 cs ∧ m = 4 ∧
      cs.sum + m ≤ 256 ∧ c = m + 1 ∧ c < 2 ^ bitsFor (m + 1) ∧
      s.holdsBits (headerFields 1 cs ++ fieldBits c (bitsFor (m + 1)))) ∧
    (∃ (s : State) (cs : List Nat) (m : Nat), s.rlen.toNat ≤ s.params.rbufCap ∧
      s.arg0.toNat ≤ s.params.obufCap ∧ headerAccepted 1 0 cs = true ∧ m = openSlots 1 cs ∧ m = 512 ∧
      256 < cs.sum + m ∧ s.holdsBits (headerFields 1 cs)) ∧
    (∃ (s : State) (a b : Byte) (codes : List Bool), s.rlen.toNat ≤ s.params.rbufCap ∧
      s.arg0.toNat ≤ s.params.obufCap ∧ codes.length + 1 = s.arg0.toNat ∧
      s.endsWithin ([false, false, true] ++ symbolBits a ++ symbolBits b ++ codes) 1) ∧
    (∃ (s : State) (cs : List Nat) (m : Nat), s.rlen.toNat ≤ s.params.rbufCap ∧
      s.arg0.toNat ≤ s.params.obufCap ∧ headerAccepted 1 0 cs = true ∧ m = openSlots 1 cs ∧ cs.sum + m = 256 ∧
      m ≠ 0 ∧ s.endsWithin (headerFields 1 cs) (bitsFor (m + 1))) ∧
    ∃ (s : State) (cs : List Nat), s.rlen.toNat ≤ s.params.rbufCap ∧ s.arg0.toNat ≤ s.params.obufCap ∧
      headerAccepted 1 0 cs = true ∧ 0 = openSlots 1 cs ∧ s.endsWithin (headerFields 1 cs) (8 * cs.sum) :=
  ⟨⟨withArgs (withStream small [0xC3, 0x00]) 4 0 0, 0x61, by decide, by decide, by decide +kernel⟩,
    ⟨withArgs (withStream small [0x06]) 1 0 0, by decide, by decide, by decide +kernel⟩,
    ⟨withArgs (withStream small [0x28]) 1 0 0, [0, 0], 4, 5, by decide, by decide, by decide, by decide, rfl,
      by decide, rfl, by decide +kernel, by decide +kernel⟩,
    ⟨withArgs (withStream small [0, 0, 0, 0, 0, 0]) 1 0 0, List.replicate 9 0, 512, by decide, by decide,
      by decide +kernel, by decide +kernel, rfl, by decide +kernel, by decide +kernel⟩,
    ⟨withArgs (withStream small [0x0C, 0x13, 0x43]) 6 0 0, 0x61, 0x62, [false, false, false, true, false], by decide,
      by decide, rfl, by decide +kernel⟩,
    ⟨withArgs (withStream small [0, 0, 0, 0, 0]) 1 0 0, List.replicate 8 0, 256, by decide, by decide,
      by decide +kernel, by decide +kernel, rfl, by decide, by decide +kernel⟩,
    ⟨withArgs (withStream small [0x0C, 0x13]) 1 0 0, [0, 2], by decide, by decide, by decide, by decide,
      by decide +kernel⟩⟩

/-- V-LZSS-3 as a stream. -/
theorem witness_LzssDecReadsLiterals :
    ∃ (s : State) (data : List Byte), s.rlen.toNat ≤ s.params.rbufCap ∧ s.arg0.toNat ≤ s.params.obufCap ∧
      data.length = s.arg0.toNat ∧ s.holdsBits (data.flatMap fun c => false :: symbolBits c) ∧ data ≠ [] :=
  ⟨withArgs (withStream small [0x82, 0x08, 0x19, 0x02]) 3 4 0, [0x41, 0x42, 0x43], by decide, by decide, rfl,
    by decide +kernel, by decide⟩

/-- V-ERR-16; a match flag after two literals with window bound 0; a distance at the window's size 3; and
V-ERR-17, a length above M, beside one that passes N = 2 by one. Then streams that end after a literal, inside a
literal, before the one bit of a distance, and in the prefix and the mantissa of a length. -/
theorem witness_LzssDecRejectsMatchWithoutWindow :
    (∃ s : State, s.rlen.toNat ≤ s.params.rbufCap ∧ s.arg0.toNat ≤ s.params.obufCap ∧
      ([] : List Byte).length < s.arg0.toNat ∧ 0 = min s.arg1.toNat ([] : List Byte).length ∧
      s.holdsBits [true]) ∧
    (∃ (s : State) (data : List Byte), s.rlen.toNat ≤ s.params.rbufCap ∧ s.arg0.toNat ≤ s.params.obufCap ∧
      data.length = 2 ∧ data.length < s.arg0.toNat ∧ 0 = min s.arg1.toNat data.length ∧
      s.holdsBits ((data.flatMap fun c => false :: symbolBits c) ++ [true])) ∧
    (∃ (s : State) (data : List Byte) (w dist : Nat), s.rlen.toNat ≤ s.params.rbufCap ∧
      s.arg0.toNat ≤ s.params.obufCap ∧ data.length < s.arg0.toNat ∧ w = min s.arg1.toNat data.length ∧ w ≠ 0 ∧
      w = dist ∧ dist < 2 ^ bitsFor w ∧
      s.holdsBits ((data.flatMap fun c => false :: symbolBits c) ++ true :: fieldBits dist (bitsFor w))) ∧
    (∃ (s : State) (data : List Byte) (w dist len : Nat), s.rlen.toNat ≤ s.params.rbufCap ∧
      s.arg0.toNat ≤ s.params.obufCap ∧ data.length < s.arg0.toNat ∧ w = min s.arg1.toNat data.length ∧
      dist < w ∧ len = s.arg1.toNat + 1 ∧ s.holdsBits ((data.flatMap fun c => false :: symbolBits c) ++
        true :: fieldBits dist (bitsFor w) ++ monoCode len)) ∧
    (∃ (s : State) (data : List Byte) (w dist len : Nat), s.rlen.toNat ≤ s.params.rbufCap ∧
      s.arg0.toNat ≤ s.params.obufCap ∧ data.length < s.arg0.toNat ∧ w = min s.arg1.toNat data.length ∧
      dist < w ∧ len ≤ s.arg1.toNat ∧ s.arg0.toNat + 1 = data.length + len ∧
      s.holdsBits ((data.flatMap fun c => false :: symbolBits c) ++
        true :: fieldBits dist (bitsFor w) ++ monoCode len)) ∧
    (∃ (s : State) (data : List Byte), s.rlen.toNat ≤ s.params.rbufCap ∧ s.arg0.toNat ≤ s.params.obufCap ∧
      data.length + 1 = s.arg0.toNat ∧ s.endsWithin (data.flatMap fun c => false :: symbolBits c) 1) ∧
    (∃ s : State, s.rlen.toNat ≤ s.params.rbufCap ∧ s.arg0.toNat ≤ s.params.obufCap ∧
      ([] : List Byte).length < s.arg0.toNat ∧ s.endsWithin [false] 8) ∧
    (∃ (s : State) (data : List Byte) (w : Nat), s.rlen.toNat ≤ s.params.rbufCap ∧
      s.arg0.toNat ≤ s.params.obufCap ∧ data.length < s.arg0.toNat ∧ w = min s.arg1.toNat data.length ∧ w ≠ 0 ∧
      s.endsWithin ((data.flatMap fun c => false :: symbolBits c) ++ [true]) (bitsFor w)) ∧
    ∀ inMantissa : Bool, ∃ (s : State) (data : List Byte) (w dist k : Nat), s.rlen.toNat ≤ s.params.rbufCap ∧
      s.arg0.toNat ≤ s.params.obufCap ∧ data.length < s.arg0.toNat ∧ w = min s.arg1.toNat data.length ∧ dist < w ∧
      if inMantissa then
        s.endsWithin ((data.flatMap fun c => false :: symbolBits c) ++ true :: fieldBits dist (bitsFor w) ++
          List.replicate k true ++ [false]) k
      else
        s.endsWithin ((data.flatMap fun c => false :: symbolBits c) ++ true :: fieldBits dist (bitsFor w) ++
          List.replicate k true) 1 :=
  ⟨⟨withArgs (withStream small [0x01]) 1 4 0, by decide, by decide, by decide, by decide, by decide +kernel⟩,
    ⟨withArgs (withStream small [0x82, 0x08, 0x05]) 3 0 0, [0x41, 0x42], by decide, by decide, rfl, by decide,
      by decide, by decide +kernel⟩,
    ⟨withArgs (withStream small [0x82, 0x08, 0x19, 0x3A]) 4 4 0, [0x41, 0x42, 0x43], 3, 3, by decide, by decide,
      by decide, by decide, by decide, rfl, by decide +kernel, by decide +kernel⟩,
    ⟨withArgs (withStream small [0x82, 0x06]) 3 1 0, [0x41], 1, 0, 2, by decide, by decide, by decide, by decide,
      by decide, rfl, by decide +kernel⟩,
    ⟨withArgs (withStream small [0x82, 0x06]) 2 4 0, [0x41], 1, 0, 2, by decide, by decide, by decide, by decide,
      by decide, by decide, rfl, by decide +kernel⟩,
    ⟨{ withArgs (withStream small [0x00, 0x41]) 2 4 0 with rpos := 7 }, [0x41], by decide, by decide, rfl,
      by decide +kernel⟩,
    ⟨withArgs (withStream small [0x00]) 1 4 0, by decide, by decide, by decide, by decide +kernel⟩,
    ⟨{ withArgs (withStream small [0x40, 0x10, 0xA1]) 3 4 0 with rpos := 5 }, [0x41, 0x42], 2, by decide, by decide,
      by decide, by decide, by decide, by decide +kernel⟩,
    fun b => match b with
      | false => ⟨withArgs (withStream small [0x82, 0xFE]) 2 4 0, [0x41], 1, 0, 6, by decide, by decide, by decide,
          by decide, by decide, by decide +kernel⟩
      | true => ⟨withArgs (withStream small [0x82, 0x1E]) 2 4 0, [0x41], 1, 0, 3, by decide, by decide, by decide,
          by decide, by decide, by decide +kernel⟩⟩

/-- An escaped symbol with the empty alphabet; and `N` at OBUF_CAP without escape. -/
theorem witness_LzwDecWithEmptyAlphabet :
    ∃ (s : State) (c : Byte), s.rlen.toNat ≤ s.params.rbufCap ∧ s.arg0.toNat ≤ s.params.obufCap ∧
      (∀ c : Byte, c ∉ s.alphabet) ∧ s.arg0 = 1 ∧ s.holdsBits (symbolBits c) :=
  ⟨withArgs (withStream small [0x41]) 1 0 0, 0x41, by decide, by decide,
    by intro c; rw [show State.alphabet _ = [] from by decide +kernel]; simp, rfl, by decide +kernel⟩

/-- Over the alphabet `A`, `B`: in escape mode a first code 3 of ids 0 to 2; without escape V-ERR-21, and the
pending entry's code with N = 2 and N = 3. Then an empty stream, an escaped symbol with 7 of its 8 bits, and a
second code with 1 of its 2 bits. -/
theorem witness_LzwDecChecksItsCodes :
    (∃ (s : State) (base n0 x : Nat), s.rlen.toNat ≤ s.params.rbufCap ∧ s.arg0.toNat ≤ s.params.obufCap ∧
      base = (if true then 1 else 0) ∧ n0 = base + s.alphabet.length ∧ s.arg0 ≠ 0 ∧ n0 = x ∧
      x < 2 ^ bitsFor n0 ∧ s.holdsBits (fieldBits x (bitsFor n0))) ∧
    (∃ (s : State) (base n0 x y : Nat), s.rlen.toNat ≤ s.params.rbufCap ∧ s.arg0.toNat ≤ s.params.obufCap ∧
      base = (if false then 1 else 0) ∧ n0 = base + s.alphabet.length ∧ base ≤ x ∧ x < n0 ∧
      2 ≤ s.arg0.toNat ∧ y = n0 + 1 ∧ y < 2 ^ bitsFor (n0 + 1) ∧
      s.holdsBits (fieldBits x (bitsFor n0) ++ fieldBits y (bitsFor (n0 + 1)))) ∧
    (∀ n : Fin 2, ∃ (s : State) (base n0 x : Nat), s.rlen.toNat ≤ s.params.rbufCap ∧
      s.arg0.toNat ≤ s.params.obufCap ∧ base = (if false then 1 else 0) ∧ n0 = base + s.alphabet.length ∧
      base ≤ x ∧ x < n0 ∧ s.arg0 = BitVec.ofNat 32 (2 + n.val) ∧
      s.holdsBits (fieldBits x (bitsFor n0) ++ fieldBits n0 (bitsFor (n0 + 1)))) ∧
    (∃ (s : State) (base n0 : Nat), s.rlen.toNat ≤ s.params.rbufCap ∧ s.arg0.toNat ≤ s.params.obufCap ∧
      base = (if false then 1 else 0) ∧ n0 = base + s.alphabet.length ∧ s.arg0 ≠ 0 ∧
      s.endsWithin [] (bitsFor n0)) ∧
    (∃ (s : State) (base n0 : Nat), s.rlen.toNat ≤ s.params.rbufCap ∧ s.arg0.toNat ≤ s.params.obufCap ∧
      base = (if true then 1 else 0) ∧ n0 = base + s.alphabet.length ∧ s.arg0 ≠ 0 ∧
      s.endsWithin (fieldBits 0 (bitsFor n0)) 8) ∧
    (∃ s : State, s.rlen.toNat ≤ s.params.rbufCap ∧ s.arg0 = 0) ∧
    ∃ (s : State) (base n0 x : Nat), s.rlen.toNat ≤ s.params.rbufCap ∧ s.arg0.toNat ≤ s.params.obufCap ∧
      base = (if false then 1 else 0) ∧ n0 = base + s.alphabet.length ∧ base ≤ x ∧ x < n0 ∧ s.arg0.toNat = 2 ∧
      s.endsWithin (fieldBits x (bitsFor n0)) (bitsFor (n0 + 1)) :=
  ⟨⟨withArgs (withStream (withAB small) [0x03]) 1 0 0, 1, 3, 3, by decide, by decide, rfl, by decide +kernel,
      by decide, rfl, by decide +kernel, by decide +kernel⟩,
    ⟨withArgs (withStream (withAB small) [0x06]) 2 0 0, 0, 2, 0, 3, by decide, by decide, rfl, by decide +kernel,
      by decide, by decide, by decide, rfl, by decide +kernel, by decide +kernel⟩,
    fun n => ⟨withArgs (withStream (withAB small) [0x04]) (BitVec.ofNat 32 (2 + n.val)) 0 0, 0, 2, 0, by decide +revert,
      by decide +revert, rfl, by decide +revert +kernel, by decide, by decide, rfl, by decide +revert +kernel⟩,
    ⟨withArgs (withAB small) 1 0 0, 0, 2, by decide, by decide, rfl, by decide +kernel, by decide, by decide +kernel⟩,
    ⟨{ withArgs (withStream small [0x41]) 1 0 0 with rpos := 1 }, 1, 1, by decide, by decide, rfl, by decide +kernel,
      by decide, by decide +kernel⟩,
    ⟨small, by decide, rfl⟩,
    ⟨{ withArgs (withStream (withAB small) [0x00]) 2 0 0 with rpos := 6 }, 0, 2, 0, by decide, by decide, rfl,
      by decide +kernel, by decide, by decide, rfl, by decide +kernel⟩⟩

/-- V-BWT-13. -/
theorem witness_BwtDecOneByte :
    ∃ (s : State) (c : Byte), s.rlen.toNat ≤ s.params.rbufCap ∧ 1 ≤ s.params.obufCap ∧
      s.holdsBits ([false, false, false] ++ symbolBits c) :=
  ⟨withStream small [0x08, 0x03], 0x61, by decide, by decide, by decide +kernel⟩

/-- A run count of 17 for 16 bytes of OBUF; the run lengths 257, and 17; V-ERR-23, rank 3 of 3; and a match flag
where the symbols start. Then streams that end before the run count, in the second of two run lengths, before the
second bit of a rank, before the first flag, and before the last bit of a literal. -/
theorem witness_BwtDecChecksItsFields :
    (∃ (s : State) (count : Nat), s.rlen.toNat ≤ s.params.rbufCap ∧ count = s.params.obufCap + 1 ∧
      s.holdsBits (monoCode count)) ∧
    (∃ s : State, s.rlen.toNat ≤ s.params.rbufCap ∧ 1 ≤ s.params.obufCap ∧
      s.holdsBits (monoCode 1 ++ ([] : List Nat).flatMap monoCode ++ monoCode 257)) ∧
    (∃ (s : State) (len : Nat), s.rlen.toNat ≤ s.params.rbufCap ∧ 1 ≤ s.params.obufCap ∧ len ≤ 256 ∧
      len = s.params.obufCap + 1 ∧ s.holdsBits (monoCode 1 ++ ([] : List Nat).flatMap monoCode ++ monoCode len)) ∧
    (∃ (s : State) (lens : List Nat) (rank : Nat), s.rlen.toNat ≤ s.params.rbufCap ∧ lens.length = 1 ∧
      1 ≤ s.params.obufCap ∧ (∀ l ∈ lens, 1 ≤ l ∧ l ≤ 256) ∧ lens.sum ≤ s.params.obufCap ∧ rank = lens.sum ∧
      rank < 2 ^ bitsFor lens.sum ∧
      s.holdsBits (monoCode 1 ++ lens.flatMap monoCode ++ fieldBits rank (bitsFor lens.sum))) ∧
    (∃ (s : State) (lens : List Nat) (rank : Nat), s.rlen.toNat ≤ s.params.rbufCap ∧ lens.length = 1 ∧
      1 ≤ s.params.obufCap ∧ (∀ l ∈ lens, 1 ≤ l ∧ l ≤ 256) ∧ lens.sum ≤ s.params.obufCap ∧
      rank + 1 = lens.sum ∧
      s.holdsBits (monoCode 1 ++ lens.flatMap monoCode ++ fieldBits rank (bitsFor lens.sum) ++ [true])) ∧
    (∃ s : State, s.rlen.toNat ≤ s.params.rbufCap ∧ s.endsInCode []) ∧
    (∃ (s : State) (lens : List Nat), s.rlen.toNat ≤ s.params.rbufCap ∧ 2 ≤ s.params.obufCap ∧ lens.length + 1 = 2 ∧
      (∀ l ∈ lens, 1 ≤ l ∧ l ≤ 256) ∧ lens.sum ≤ s.params.obufCap ∧
      s.endsInCode (monoCode 2 ++ lens.flatMap monoCode)) ∧
    (∃ (s : State) (lens : List Nat), s.rlen.toNat ≤ s.params.rbufCap ∧ lens.length = 1 ∧ 1 ≤ s.params.obufCap ∧
      (∀ l ∈ lens, 1 ≤ l ∧ l ≤ 256) ∧ lens.sum ≤ s.params.obufCap ∧
      s.endsWithin (monoCode 1 ++ lens.flatMap monoCode) (bitsFor lens.sum)) ∧
    (∃ (s : State) (lens : List Nat) (rank : Nat), s.rlen.toNat ≤ s.params.rbufCap ∧ lens.length = 1 ∧
      1 ≤ s.params.obufCap ∧ (∀ l ∈ lens, 1 ≤ l ∧ l ≤ 256) ∧ lens.sum ≤ s.params.obufCap ∧ rank < lens.sum ∧
      s.endsWithin (monoCode 1 ++ lens.flatMap monoCode ++ fieldBits rank (bitsFor lens.sum)) 1) ∧
    ∃ (s : State) (lens : List Nat) (rank : Nat), s.rlen.toNat ≤ s.params.rbufCap ∧ lens.length = 1 ∧
      1 ≤ s.params.obufCap ∧ (∀ l ∈ lens, 1 ≤ l ∧ l ≤ 256) ∧ lens.sum ≤ s.params.obufCap ∧ rank < lens.sum ∧
      s.endsWithin (monoCode 1 ++ lens.flatMap monoCode ++ fieldBits rank (bitsFor lens.sum) ++ [false]) 8 :=
  ⟨⟨withStream small [0x2F, 0x00], 17, by decide, rfl, by decide +kernel⟩,
    ⟨withStream small [0xFE, 0x05, 0x00], by decide, by decide, by decide +kernel⟩,
    ⟨withStream small [0x5E, 0x00], 17, by decide, by decide, by decide, rfl, by decide +kernel⟩,
    ⟨withStream small [0x3A], [3], 3, by decide, rfl, by decide, by decide, by decide, rfl, by decide +kernel,
      by decide +kernel⟩,
    ⟨withStream small [0x6A], [3], 2, by decide, rfl, by decide, by decide, by decide, rfl, by decide +kernel⟩,
    ⟨small, by decide, 0, .inl (by decide +kernel)⟩,
    ⟨withStream small [0xF1], [1], by decide, by decide, rfl, by decide, by decide, 4, .inl (by decide +kernel)⟩,
    ⟨{ withStream small [0x50] with rpos := 3 }, [3], by decide, rfl, by decide, by decide, by decide,
      by decide +kernel⟩,
    ⟨{ withStream small [0x00] with rpos := 6 }, [1], 0, by decide, rfl, by decide, by decide, by decide, by decide,
      by decide +kernel⟩,
    ⟨{ withStream small [0x00, 0x82] with rpos := 6 }, [1], 0, by decide, rfl, by decide, by decide, by decide,
      by decide, by decide +kernel⟩⟩

/-- Each capacity, exceeded by one; RLEN together with an operand above 32, where log 10 decides. -/
theorem witness_CapacityIsCheckedFirst :
    (∃ s : State, s.ilen.toNat = s.params.ibufCap + 1 ∧ s.ilen.toNat = s.params.obufCap + 1) ∧
    (∃ s : State, s.rlen.toNat = s.params.rbufCap + 1) ∧ (∃ s : State, s.arg0.toNat = s.params.obufCap + 1) ∧
    ∃ s : State, s.params.rbufCap < s.rlen.toNat ∧ 32 < s.arg1.toNat ∧
      Instr.rsInt ∈ ([.rsBit, .rsBits, .rsInt, .monoDec] : List Instr) :=
  ⟨⟨{ small with ilen := 17 }, rfl, rfl⟩, ⟨{ small with rlen := 17 }, rfl⟩, ⟨{ small with arg0 := 17 }, rfl⟩,
    ⟨{ small with rlen := 17, arg1 := 33 }, by decide, by decide, by decide⟩⟩

/-- Encode, then load: neither fails. -/
abbrev roundTripReady (i : Instr) (s t2 t3 : State) : Prop :=
  s.params.legal ∧ s.arg0 = s.ilen ∧ s.ilen.toNat ≤ s.params.obufCap ∧ 2 ≤ s.ilen.toNat ∧
    t2 = after i (after .wsClear s) ∧ t2.err = .noError ∧ t3 = after (.rsLoad false) t2 ∧ t3.err = .noError

theorem witness_HuffmanRoundTrip :
    ∃ s t2 t3 : State, roundTripReady .hufEnc s t2 t3 ∧ s.ilen ≠ 0 ∧ s.ilen.toNat ≤ s.params.ibufCap ∧
      t2.err ≠ .capacityExceeded ∧ t3.err ≠ .capacityExceeded :=
  ⟨withArgs (withInput small [0x61, 0x62]) 2 0 0, _, _, ⟨by decide, rfl, by decide, by decide, rfl,
    by decide +kernel, rfl, by decide +kernel⟩, by decide, by decide, by decide +kernel, by decide +kernel⟩

theorem witness_LzssRoundTrip : ∃ s t2 t3 : State, roundTripReady .lzssEnc s t2 t3 :=
  ⟨withArgs (withInput small [0x61, 0x61]) 2 4 0, _, _, by decide, rfl, by decide, by decide, rfl,
    by decide +kernel, rfl, by decide +kernel⟩

theorem witness_LzwRoundTrip :
    (∃ s t2 t3 : State, roundTripReady (.lzwEnc true) s t2 t3) ∧
    ∃ s t2 t3 : State, roundTripReady (.lzwEnc false) s t2 t3 :=
  ⟨⟨withArgs (withInput small [0x61, 0x62]) 2 0 0, _, _, by decide, rfl, by decide, by decide, rfl,
      by decide +kernel, rfl, by decide +kernel⟩,
    ⟨withArgs (withInput (withAB small) [0x41, 0x42]) 2 0 0, _, _, by decide, rfl, by decide, by decide, rfl,
      by decide +kernel, rfl, by decide +kernel⟩⟩

theorem witness_BwtRoundTrip : ∃ s t2 t3 : State, roundTripReady .bwtEnc s t2 t3 :=
  ⟨withArgs (withInput small [0x61, 0x62]) 2 4 0, _, _, by decide, rfl, by decide, by decide, rfl,
    by decide +kernel, rfl, by decide +kernel⟩

theorem witness_HostWritesWithSideEffects :
    (∃ (s : State) (k : Fin 64) (v : Word) (ms : List Move), s.pending = none ∧ s.moves = .writeReg k v :: ms ∧
      k = 19) ∧
    (∃ (s : State) (sp : Space) (a : Nat) (b : Byte) (ms : List Move), s.pending = none ∧
      s.moves = .writeByte sp a b :: ms ∧ a + 1 = s.params.rbufCap) ∧
    (∃ (s : State) (v : Word) (ms : List Move), s.pending = none ∧ s.moves = .writeReg 0 v :: ms) ∧
    ∃ (s : State) (v : Word) (ms : List Move), s.pending = none ∧ s.moves = .writeReg 10 v :: ms ∧ s.rpos ≠ 0 :=
  ⟨⟨{ small with moves := [.writeReg 19 7] }, 19, 7, [], rfl, rfl, rfl⟩,
    ⟨{ small with moves := [.writeByte .rbuf 15 7] }, .rbuf, 15, 7, [], rfl, rfl, rfl⟩,
    ⟨{ small with moves := [.writeReg 0 2] }, 2, [], rfl, rfl⟩,
    ⟨{ small with rlen := 1, rpos := 3, moves := [.writeReg 10 1] }, 1, [], rfl, rfl, by decide⟩⟩

/-- The first and last word numbers of each kind of register. -/
theorem witness_RegisterMapReadsAndWrites :
    ((0 : Fin 64) ∈ ([0, 1, 2, 3, 7, 10, 12, 13, 14, 15, 16, 17, 18, 19] : List (Fin 64))) ∧
    ((19 : Fin 64) ∈ ([0, 1, 2, 3, 7, 10, 12, 13, 14, 15, 16, 17, 18, 19] : List (Fin 64))) ∧
    ((4 : Fin 64) ∉ ([0, 1, 2, 3, 7, 10, 12, 13, 14, 15, 16, 17, 18, 19] : List (Fin 64))) ∧
    ((63 : Fin 64) ∉ ([0, 1, 2, 3, 7, 10, 12, 13, 14, 15, 16, 17, 18, 19] : List (Fin 64))) ∧
    (12 : Fin 64).val = 12 + (0 : Fin 8).val ∧ (19 : Fin 64).val = 12 + (7 : Fin 8).val ∧
    24 ≤ (24 : Fin 64).val ∧ 24 ≤ (63 : Fin 64).val ∧
    ((9 : Fin 64) ≠ 10 ∧ ¬ ((10 : Fin 64) = 10 ∧ (9 : Fin 64) = 11) ∧ ¬ ((10 : Fin 64) = 0 ∧ (9 : Fin 64) = 6)) := by
  decide

theorem witness_StatusWordFields : ((2 ≤ 7 ∧ 7 < 8) ∨ 12 ≤ 7) ∧ ((2 ≤ 12 ∧ 12 < 8) ∨ 12 ≤ 12) := by decide

/-- The last address of a space, the first one past it, and a second byte that stays. -/
theorem witness_BufferBytesReadAndWrite :
    15 < small.params.ibufCap ∧ 15 < small.params.obufCap ∧ 15 < small.params.rbufCap ∧ small.params.ibufCap ≤ 16 ∧
    small.params.rbufCap ≤ 16 ∧ small.params.obufCap ≤ 16 ∧ ¬ (Space.rbuf = Space.ibuf ∧ 15 = 15) ∧
    small.ws.length ≤ small.params.wsCap ∧ (small.params.wsCap + 7) / 8 ≤ 25 := by decide

theorem witness_WsbShowsTheWriteStream :
    ∃ (s : State) (j : Nat), (s.ws.length + 7) / 8 = j ∧ s.ws ≠ [] :=
  ⟨{ small with ws := [true, false, true] }, 1, rfl, by decide⟩

theorem witness_HostReadsChangeNothing :
    (∃ (s : State) (ms : List Move), s.pending = none ∧ s.moves = .readReg 63 :: ms) ∧
    (∃ (s : State) (ms : List Move), s.pending = none ∧ s.moves = .readByte .obuf 16 :: ms) ∧
    ∃ (s : State) (ms : List Move), s.pending ≠ none ∧ s.moves = .readReg 6 :: ms :=
  ⟨⟨{ small with moves := [.readReg 63] }, [], rfl, rfl⟩, ⟨{ small with moves := [.readByte .obuf 16] }, [], rfl, rfl⟩,
    ⟨{ small with pending := some 1, moves := [.readReg 6] }, [], by decide, rfl⟩⟩

theorem witness_BusyContractIsEnforced :
    ∃ (s : State) (m : Move) (ms : List Move), s.pending ≠ none ∧ s.moves = m :: ms ∧ m ≠ .wait ∧ m ≠ .reset ∧
      m ≠ .readReg 6 :=
  ⟨{ small with pending := some 1, moves := [.readReg 4] }, .readReg 4, [], by decide, rfl, by decide, by decide,
    by decide⟩

/-- Reset with a command pending. -/
theorem witness_ResetLeavesTheResetValues :
    ∃ (s : State) (ms : List Move), s.moves = .reset :: ms ∧ s.pending ≠ none :=
  ⟨{ small with pending := some 1, moves := [.reset] }, [], rfl, by decide⟩

theorem witness_ResetMeetsTheInvariant : small.params.legal := by decide

theorem witness_StepKeepsTheInvariant :
    ∃ s t : State, step s = .next t ∧ s.Inv ∧ t.ws ≠ s.ws :=
  ⟨{ small with pending := some 2 }, after .wsBit { small with pending := some 2 }, rfl, by decide, by decide⟩

end Sys2Proof.Tests
end

section
/-! Widths: what settles R12. -/
namespace Sys2Proof.Machine

/-- R12 as one equivalence: a width is at least `bitsFor(k)` exactly when it holds every value in `[0, k)`. -/
theorem bitsFor_le_iff (k b : Nat) : bitsFor k ≤ b ↔ k ≤ 2 ^ b := by
  unfold bitsFor
  split
  case isTrue hk => simp [hk.trans Nat.one_le_two_pow]
  case isFalse hk => rw [Nat.succ_le_iff, Nat.log2_lt (by omega)]; omega

/-- Settles O27: the width holds `k` values, and `bitsFor_le_iff` makes it the least that does. -/
theorem bitsForIsLeastWidth : Obligations.BitsForIsLeastWidth := by
  unfold Obligations.BitsForIsLeastWidth
  exact fun k => ⟨le_two_pow_bitsFor k, fun b => (bitsFor_le_iff k b).mpr⟩

end Sys2Proof.Machine
end

section
/-!
What a coder may answer: an error from a list, or a value with a property. One rule for a sequence, one
rule per primitive, and then one lemma per coder. For a coder that reads, the property always includes
that the reader it answers has only taken bits that were left; for one that writes, that the stream only
grows and stays within its capacity.
-/

namespace Sys2Proof.Machine

/-- The answer is an error listed in `E`, or a value that `P` holds of. -/
def Ends {α : Type} (E : List ErrCode) (P : α → Prop) : Except ErrCode α → Prop
  | .error e => e ∈ E
  | .ok a => P a

section
variable {α β : Type} {E : List ErrCode}

theorem Ends.imp {P Q : α → Prop} {x : Except ErrCode α} (hx : Ends E P x) (h : ∀ a, P a → Q a) :
    Ends E Q x := by
  cases x with
  | error e => exact hx
  | ok a => exact h a hx

theorem Ends.bind {P : α → Prop} {Q : β → Prop} {x : Except ErrCode α} {f : α → Except ErrCode β}
    (hx : Ends E P x) (hf : ∀ a, P a → Ends E Q (f a)) : Ends E Q (x >>= f) := by
  cases x with
  | error e => exact hx
  | ok a => exact hf a hx

end

/-! ### How much the coders hand out -/

theorem copyMatch_length (dist n : Nat) (w : List Byte) : (copyMatch dist n w).length = w.length + n := by
  induction n generalizing w with
  | zero => rfl
  | succ n ih => rw [copyMatch, ih, List.length_append, List.length_singleton]; omega

theorem inverseWalk_length (l : List Byte) (n row : Nat) (acc : List Byte) :
    (inverseWalk l n row acc).length = n + acc.length := by
  induction n generalizing row acc with
  | zero => simp [inverseWalk]
  | succ n ih => rw [inverseWalk, ih, List.length_cons]; omega

theorem expandRuns_length_le (syms : List Byte) (lens : List Nat) :
    (expandRuns syms lens).length ≤ lens.sum := by
  induction syms generalizing lens with
  | nil => simp [expandRuns]
  | cons c syms ih =>
    cases lens with
    | nil => simp [expandRuns]
    | cons n lens => simpa [expandRuns] using ih lens

theorem inverseBwt_expandRuns_length_le (syms : List Byte) (lens : List Nat) (rank : Nat) :
    (inverseBwt (expandRuns syms lens) rank).length ≤ lens.sum := by
  simpa [inverseBwt, inverseWalk_length] using expandRuns_length_le syms lens

theorem insertRotation_length (data : List Byte) (i : Nat) (js : List Nat) :
    (insertRotation data i js).length = js.length + 1 := by
  induction js with
  | nil => rfl
  | cons j js ih =>
    unfold insertRotation
    split
    · rfl
    · rw [List.length_cons, ih, List.length_cons]

theorem bwtColumn_length (data : List Byte) : (bwtColumn data).length = data.length := by
  have hfold (is : List Nat) : (is.foldr (insertRotation data) []).length = is.length := by
    induction is with
    | nil => rfl
    | cons i is ih => rw [List.foldr_cons, insertRotation_length, ih, List.length_cons]
  rw [bwtColumn, List.length_map, sortedRotations, hfold, List.length_range]

/-! ### Reading -/

/-- `r'` is `r` after some of the bits that were left (10_state.md R41). -/
def Reader.Reaches (r r' : Reader) : Prop := ∃ n, n ≤ r.available ∧ r' = r.skip n

theorem Reader.Reaches.refl (r : Reader) : r.Reaches r := ⟨0, Nat.zero_le _, rfl⟩

theorem Reader.Reaches.trans {r r₁ r₂ : Reader} (h₁ : r.Reaches r₁) (h₂ : r₁.Reaches r₂) :
    r.Reaches r₂ := by
  obtain ⟨m, hm, rfl⟩ := h₁
  obtain ⟨n, hn, rfl⟩ := h₂
  rw [Reader.skip_available] at hn
  exact ⟨m + n, by omega, Reader.skip_skip r m n⟩

/-- A cursor within the stream stays within it. -/
theorem Reader.Reaches.pos_le {r r' : Reader} (h : r.Reaches r') (hr : r.pos ≤ 8 * r.len) :
    r'.pos ≤ 8 * r.len := by
  obtain ⟨n, hn, rfl⟩ := h
  simp only [Reader.available] at hn
  show r.pos + n ≤ 8 * r.len
  omega

/-- A reading of `r`: an error listed in `E`, or a value that `P` holds of and a reader that `r`
reaches. -/
def Reads {α : Type} (E : List ErrCode) (r : Reader) (P : α → Prop)
    (x : Except ErrCode (α × Reader)) : Prop :=
  Ends E (fun y => P y.1 ∧ r.Reaches y.2) x

section
variable {α β : Type} {E : List ErrCode} {r : Reader}

theorem reads_ok {P : α → Prop} {a : α} (h : P a) : Reads E r P (.ok (a, r)) := ⟨h, .refl r⟩

theorem reads_error {P : α → Prop} {e : ErrCode} (h : e ∈ E) : Reads E r P (.error e) := h

/-- One reading after another: the second starts where the first one stopped. -/
theorem Reads.bind {P : α → Prop} {Q : β → Prop} {x : Except ErrCode (α × Reader)}
    {f : α × Reader → Except ErrCode (β × Reader)} (hx : Reads E r P x)
    (hf : ∀ a r', P a → Reads E r' Q (f (a, r'))) : Reads E r Q (x >>= f) :=
  Ends.bind hx fun y ⟨hy, hr⟩ => (hf y.1 y.2 hy).imp fun _ ⟨hq, hr'⟩ => ⟨hq, hr.trans hr'⟩

variable (hs : .streamExhausted ∈ E) (r)
include hs

theorem reads_get : Reads E r (fun _ => True) r.get := by
  cases hg : r.get with
  | error e =>
    obtain ⟨-, rfl⟩ := Reader.get_error.1 hg
    exact hs
  | ok y =>
    obtain ⟨b, r'⟩ := y
    obtain ⟨hpos, -, hr⟩ := Reader.get_ok.1 hg
    exact ⟨trivial, 1, by simp only [Reader.available]; omega, hr⟩

theorem reads_getInt (n : Nat) : Reads E r (fun _ => True) (r.getInt n) := by
  rw [Reader.getInt_eq]
  split
  case isTrue hn => exact ⟨trivial, n, hn, rfl⟩
  case isFalse => exact hs

theorem reads_getByte : Reads E r (fun _ => True) r.getByte :=
  (reads_getInt r hs 8).bind fun _ _ _ => reads_ok trivial

theorem reads_countOnes {e : ErrCode} (he : e ∈ E) (limit : Nat) :
    Reads E r (fun _ => True) (countOnes e limit r) := by
  induction limit generalizing r with
  | zero => exact he
  | succ limit ih =>
    refine (reads_get r hs).bind fun b r _ => ?_
    cases b with
    | false => exact reads_ok trivial
    | true => exact (ih r).bind fun _ _ _ => reads_ok trivial

theorem reads_unmono : Reads E r (fun _ => True) (unmono r) :=
  (reads_countOnes r hs hs _).bind fun k r _ =>
    (reads_getInt r hs k).bind fun _ _ _ => reads_ok trivial

theorem reads_unmono32 (hd : .domainError ∈ E) : Reads E r (fun _ => True) (unmono32 r) :=
  (reads_countOnes r hs hd _).bind fun k r _ =>
    (reads_getInt r hs k).bind fun _ _ _ => reads_ok trivial

/-! ### The decoders -/

theorem reads_readSymbols (n : Nat) : Reads E r (fun _ => True) (readSymbols n r) := by
  induction n generalizing r with
  | zero => exact reads_ok trivial
  | succ n ih =>
    exact (reads_getByte r hs).bind fun _ r _ => (ih r).bind fun _ _ _ => reads_ok trivial

variable (hm : .malformedHeader ∈ E)
include hm

/-- The header loop answers its reader last of three, so the property is written out. -/
theorem ends_huffHeaderLoop (fuel m tot f : Nat) :
    Ends E (fun y => r.Reaches y.2.2) (huffHeaderLoop fuel m tot f r) := by
  induction fuel generalizing m tot f r with
  | zero => exact hm
  | succ fuel ih =>
    unfold huffHeaderLoop
    split
    · exact .refl r
    split
    · exact hm
    refine Ends.bind (reads_getInt r hs _) fun ⟨c, r₁⟩ ⟨_, h₁⟩ => ?_
    dsimp only
    split
    · exact hm
    · exact Ends.bind (ih r₁ ..) fun y h₂ => h₁.trans h₂

theorem reads_walkLevels (levels : List HuffLevel) (v base : Nat) :
    Reads E r (fun _ => True) (walkLevels levels v base r) := by
  induction levels generalizing v base r with
  | nil => exact hm
  | cons l levels ih =>
    unfold walkLevels
    split
    · exact reads_ok trivial
    · exact (reads_get r hs).bind fun _ r _ => ih r ..

theorem reads_huffBody (levels : List HuffLevel) (syms : List Byte) (n : Nat) :
    Reads E r (fun out => out.length ≤ n) (huffBody levels syms n r) := by
  induction n generalizing r with
  | zero => exact reads_ok (Nat.le_refl 0)
  | succ n ih =>
    refine (reads_walkLevels r hs hm levels 0 0).bind fun slot r _ => ?_
    exact (ih r).bind fun out _ hout => reads_ok (Nat.succ_le_succ hout)

theorem reads_huffDecode (n : Nat) : Reads E r (fun out => out.length ≤ n) (huffDecode n r) := by
  refine Ends.bind (ends_huffHeaderLoop r hs hm 258 1 0 0) fun ⟨levels, total, r₁⟩ h₁ => ?_
  refine Ends.imp (?_ : Reads E r₁ (fun out => out.length ≤ n) _) fun _ ⟨hout, h₂⟩ => ⟨hout, h₁.trans h₂⟩
  exact (reads_readSymbols r₁ hs total).bind fun syms r _ => reads_huffBody r hs hm levels syms n

theorem reads_lzssDecodeFrom (n m fuel : Nat) (w out : List Byte) (hout : out.length ≤ n) :
    Reads E r (fun out => out.length ≤ n) (lzssDecodeFrom n m fuel w out r) := by
  induction fuel generalizing w out r with
  | zero => exact reads_ok hout
  | succ fuel ih =>
    unfold lzssDecodeFrom
    split
    · exact reads_ok hout
    refine (reads_get r hs).bind fun flag r _ => ?_
    dsimp only
    split
    · exact (reads_getByte r hs).bind fun c r _ => ih r _ _ (by simp; omega)
    split
    · exact hm
    refine (reads_getInt r hs _).bind fun dist r _ => ?_
    dsimp only
    split
    · exact hm
    refine (reads_unmono r hs).bind fun len r _ => ?_
    dsimp only
    split
    · exact hm
    · exact ih r _ _ (by simp [copyMatch_length]; omega)

theorem reads_lzssDecode (m n : Nat) : Reads E r (fun out => out.length ≤ n) (lzssDecode m n r) :=
  reads_lzssDecodeFrom r hs hm n m n [] [] (Nat.zero_le n)

/-- An emission answers its reader last of three, so the property is written out. -/
theorem ends_emission (esc : Bool) (d : LzwDec) :
    Ends E (fun y => r.Reaches y.2.2) (d.emission esc r) := by
  refine Ends.bind (reads_getInt r hs _) fun ⟨x, r₁⟩ ⟨_, h₁⟩ => ?_
  dsimp only
  split
  · exact Ends.bind (reads_getByte r₁ hs) fun _ ⟨_, h₂⟩ => h₁.trans h₂
  split
  · exact hm
  · exact h₁

theorem reads_lzwDecodeFrom (esc : Bool) (n fuel : Nat) (d : LzwDec) (out : List Byte)
    (hout : out.length ≤ n) :
    Reads E r (fun out => out.length ≤ n) (lzwDecodeFrom esc n fuel d out r) := by
  induction fuel generalizing d out r with
  | zero => exact reads_ok hout
  | succ fuel ih =>
    unfold lzwDecodeFrom
    split
    · exact reads_ok hout
    refine Ends.bind (ends_emission r hs hm esc d) fun ⟨ph, d, r₁⟩ h₁ => ?_
    dsimp only
    split
    · exact hm
    · exact (ih r₁ d _ (by simp; omega)).imp fun _ ⟨hlen, h₂⟩ => ⟨hlen, h₁.trans h₂⟩

theorem reads_lzwDecode (esc : Bool) (alphabet : List Byte) (n : Nat) :
    Reads E r (fun out => out.length ≤ n) (lzwDecode esc alphabet n r) :=
  reads_lzwDecodeFrom r hs hm esc n n _ [] (Nat.zero_le n)

/-! ### The BWT decoder -/

theorem reads_readRunLengths (hc : .capacityExceeded ∈ E) {cap total : Nat} (count : Nat)
    (ht : total ≤ cap) :
    Reads E r (fun lens => total + lens.sum ≤ cap) (readRunLengths cap count total r) := by
  induction count generalizing total r with
  | zero => exact reads_ok (by simpa using ht)
  | succ count ih =>
    refine (reads_unmono r hs).bind fun len r _ => ?_
    dsimp only
    split
    · exact hm
    split
    · exact hc
    refine (ih r (by omega)).bind fun lens r hsum => reads_ok ?_
    rwa [List.sum_cons, ← Nat.add_assoc]

theorem reads_readRuns (hc : .capacityExceeded ∈ E) (cap : Nat) :
    Reads E r (fun lens => lens.sum ≤ cap) (readRuns cap r) := by
  refine (reads_unmono r hs).bind fun count r _ => ?_
  dsimp only
  split
  · exact hc
  · simpa using reads_readRunLengths r hs hm hc count (Nat.zero_le cap)

theorem reads_readMessage (m n : Nat) (lens : List Nat) :
    Reads E r (fun out => out.length ≤ lens.sum) (readMessage m n lens r) := by
  refine (reads_getInt r hs _).bind fun rank r _ => ?_
  dsimp only
  split
  · exact hm
  · exact (reads_lzssDecode r hs hm m lens.length).bind fun syms r _ =>
      reads_ok (inverseBwt_expandRuns_length_le syms lens rank)

end

/-! ### Writing -/

/-- `ws'` is `ws` with bits after it, and keeps within the capacity (40_bitstream.md R131,
10_state.md R45). -/
def Grows (cap : Nat) (ws ws' : List Bool) : Prop :=
  ws <+: ws' ∧ (ws.length ≤ cap → ws'.length ≤ cap)

theorem Grows.refl (cap : Nat) (ws : List Bool) : Grows cap ws ws := ⟨List.prefix_rfl, id⟩

theorem Grows.trans {cap : Nat} {ws ws₁ ws₂ : List Bool} (h₁ : Grows cap ws ws₁) (h₂ : Grows cap ws₁ ws₂) :
    Grows cap ws ws₂ :=
  ⟨h₁.1.trans h₂.1, h₂.2 ∘ h₁.2⟩

theorem grows_append {cap : Nat} {ws bits : List Bool} (h : ws.length + bits.length ≤ cap) :
    Grows cap ws (ws ++ bits) :=
  ⟨List.prefix_append ws bits, fun _ => by rwa [List.length_append]⟩

section
variable {E : List ErrCode} (hc : .capacityExceeded ∈ E) (cap : Nat) (ws : List Bool)
include hc

theorem ends_wsPut (b : Bool) : Ends E (Grows cap ws) (wsPut cap ws b) := by
  unfold wsPut
  split
  · exact hc
  · exact ⟨List.prefix_append ws [b], fun hle => by simp; omega⟩

theorem ends_wsPutAll (bits : List Bool) : Ends E (Grows cap ws) (wsPutAll cap ws bits) := by
  unfold wsPutAll
  split
  · exact grows_append ‹_›
  · exact hc

theorem ends_wsPutInt (v n : Nat) : Ends E (Grows cap ws) (wsPutInt cap ws v n) := by
  rw [wsPutInt_eq]
  exact ends_wsPutAll hc cap ws _

end

/-! ### The LZW encoder -/

section
variable {E : List ErrCode}

/-- `Begin` writes nothing, and fails outside escape mode only (44_lzw.md R235). -/
theorem ends_begin {esc : Bool} (hu : esc = false → .unknownSymbol ∈ E) (e : LzwEnc) (c : Byte) :
    Ends E (fun e' => e'.ws = e.ws) (e.begin esc c) := by
  unfold LzwEnc.begin
  split
  · exact rfl
  · cases esc with
    | true => exact rfl
    | false => exact hu rfl

variable (hc : .capacityExceeded ∈ E) (cap : Nat) (e : LzwEnc)
include hc

theorem ends_emit : Ends E (fun y => Grows cap e.ws y.1.ws) (e.emit cap) := by
  unfold LzwEnc.emit
  split
  · exact .refl cap e.ws
  · exact (ends_wsPutInt hc cap e.ws _ _).bind fun _ h => h
  · exact (ends_wsPutInt hc cap e.ws _ _).bind fun ws₁ h₁ =>
      (ends_wsPutInt hc cap ws₁ _ _).bind fun _ h₂ => h₁.trans h₂

variable {esc : Bool} (hu : esc = false → .unknownSymbol ∈ E)
include hu

theorem ends_byte (c : Byte) : Ends E (fun e' => Grows cap e.ws e'.ws) (e.byte esc cap c) := by
  have hbegin (e₁ : LzwEnc) (h : Grows cap e.ws e₁.ws) :
      Ends E (fun e' => Grows cap e.ws e'.ws) (e₁.begin esc c) :=
    (ends_begin hu e₁ c).imp fun e₂ h₂ => h₂ ▸ h
  unfold LzwEnc.byte
  split
  · exact hbegin e (.refl cap e.ws)
  all_goals
    split
    · exact .refl cap e.ws
    · exact (ends_emit hc cap e).bind fun y h => hbegin (y.1.alloc y.2 c) h

theorem ends_bytes (data : List Byte) :
    Ends E (fun e' => Grows cap e.ws e'.ws) (e.bytes esc cap data) := by
  induction data generalizing e with
  | nil => exact .refl cap e.ws
  | cons c data ih =>
    exact (ends_byte hc cap e hu c).bind fun e₁ h₁ => (ih e₁).imp fun _ h₂ => h₁.trans h₂

theorem ends_lzwEncode (alphabet : List Byte) (ws : List Bool) (data : List Byte) :
    Ends E (Grows cap ws) (lzwEncode esc alphabet cap ws data) :=
  (ends_bytes hc cap (lzwSeed esc alphabet ws) hu data).bind fun e₁ h₁ =>
    (ends_emit hc cap e₁).bind fun _ h₂ => h₁.trans h₂

end

end Sys2Proof.Machine
end

section
/-!
Everything a command can do, said once: `exec_ending` says that every command answers a next state, and
which ones it can answer. Frames, flags and the invariant are case analyses of it.
-/

namespace Sys2Proof.Machine

/-- What a command works on: nothing, the write stream, the loading of the read stream, the read stream,
or the read stream or input and OBUF (the groups of 30_encoding.md R102). -/
inductive Family where
  | idle
  | write
  | load
  | read
  | decode
deriving DecidableEq

/-- The family of a command. -/
def family : Instr → Family
  | .nop => .idle
  | .wsClear | .wsBit | .wsBits | .wsInt | .monoEnc | .hufEnc | .lzssEnc | .lzwEnc _ | .bwtEnc => .write
  | .rsLoad _ => .load
  | .rsBit | .rsBits | .rsInt | .monoDec => .read
  | .hufDec | .lzssDec | .lzwDec _ | .bwtDec | .bwtXform => .decode

/-- The errors a command can raise (60_exceptions.md R300, "raised by"). -/
def raisable : Instr → List ErrCode
  | .nop | .wsClear => []
  | .wsBit => [.invalidBitValue, .capacityExceeded]
  | .wsInt | .rsLoad _ | .lzssEnc | .lzwEnc true => [.capacityExceeded]
  | .lzwEnc false => [.unknownSymbol, .capacityExceeded]
  | .wsBits | .rsBits | .monoEnc | .hufEnc | .bwtEnc | .bwtXform => [.domainError, .capacityExceeded]
  | .rsBit => [.streamExhausted, .capacityExceeded]
  | .rsInt | .monoDec => [.streamExhausted, .domainError, .capacityExceeded]
  | .hufDec | .lzssDec | .lzwDec _ | .bwtDec => [.streamExhausted, .malformedHeader, .capacityExceeded]

theorem ne_noError_of_raisable {i : Instr} {e : ErrCode} (he : e ∈ raisable i) : e ≠ .noError := by
  rintro rfl
  revert he
  cases i with
  | rsLoad f | lzwEnc f | lzwDec f => cases f <;> decide
  | _ => decide

/-- The states a command `i` can leave of the state `s` it started in. -/
inductive Ending (i : Instr) (s : State) : State → Prop where
  | retired (hi : i = .nop) : Ending i s s.retire
  | failed (e : ErrCode) (he : e ∈ raisable i) : Ending i s (s.raise e)
  | spoiled (e : ErrCode) (he : e ∈ raisable i) (hf : family i = .decode) :
      Ending i s (s.raiseSpoiling (obufReach i s) e)
  | wrote (ws : List Bool) (result0 result1 : Word) (hf : family i = .write)
      (hpre : i ≠ .wsClear → s.ws <+: ws)
      (hcap : s.ws.length ≤ s.params.wsCap → ws.length ≤ s.params.wsCap) :
      Ending i s { s with ws := ws, result0 := result0, result1 := result1 }.succeed
  | loaded (bytes : List Byte) (result0 : Word) (hi : i = .rsLoad false)
      (hcap : bytes.length ≤ s.params.rbufCap) :
      Ending i s { s with rbuf := s.rbuf.storeRange 0 bytes, rlen := BitVec.ofNat 32 bytes.length,
                          rpos := 0, result0 := result0, result1 := 0 }.succeed
  | rewound (result0 : Word) (hi : i = .rsLoad true) :
      Ending i s { s with rpos := 0, result0 := result0, result1 := 0 }.succeed
  | read (r : Reader) (result0 result1 : Word) (hf : family i = .read) (hr : s.reader.Reaches r) :
      Ending i s { s with rpos := BitVec.ofNat 32 r.pos, result0 := result0, result1 := result1 }.succeed
  | delivered (out : List Byte) (r : Reader) (hf : family i = .decode) (hx : i ≠ .bwtXform)
      (hcap : obufReach i s ≤ s.params.obufCap) (hout : out.length ≤ obufReach i s)
      (hr : s.reader.Reaches r) : Ending i s (s.deliver (obufReach i s) out r)
  | transformed (out : List Byte) (result0 : Word) (hi : i = .bwtXform)
      (hcap : s.ilen.toNat ≤ s.params.obufCap) (hout : out.length = s.ilen.toNat) :
      Ending i s { s with obuf := s.obuf.storeRange 0 out, olen := s.ilen, result0 := result0,
                          result1 := s.ilen }.succeed

/-- The outcome is a next state, one that the command can leave. -/
def Completes (i : Instr) (s : State) (o : StepOutcome) : Prop := ∃ t, o = .next t ∧ Ending i s t

theorem Ending.completes {i : Instr} {s t : State} (h : Ending i s t) : Completes i s (.next t) :=
  ⟨t, rfl, h⟩

theorem completes_raise {i : Instr} {s : State} {e : ErrCode} (he : e ∈ raisable i) :
    Completes i s (.next (s.raise e)) := (Ending.failed e he).completes

/-- A check that a command makes before it goes on. -/
theorem completes_check {i : Instr} {s : State} {e : ErrCode} {c : Prop} [Decidable c] {o : StepOutcome}
    (he : e ∈ raisable i) (h : ¬ c → Completes i s o) :
    Completes i s (if c then .next (s.raise e) else o) := by
  split
  case isTrue => exact completes_raise he
  case isFalse hc => exact h hc

/-! ### The shared ways a command ends -/

section
variable {i : Instr} {s : State}

theorem completes_finishWrite {x : Except ErrCode (List Bool)} (hf : family i = .write)
    (hx : Ends (raisable i) (Grows s.params.wsCap s.ws) x) : Completes i s (s.finishWrite x) := by
  cases x with
  | error e => exact completes_raise hx
  | ok ws =>
    obtain ⟨hpre, hcap⟩ := hx
    exact (Ending.wrote ws _ _ hf (fun _ => hpre) hcap).completes

/-- The ending of the encoders that compute all their bits first. -/
theorem completes_append (bits : List Bool) (hf : family i = .write) (hc : .capacityExceeded ∈ raisable i) :
    Completes i s (s.finishWrite (wsPutAll s.params.wsCap s.ws bits)) :=
  completes_finishWrite hf (ends_wsPutAll hc ..)

theorem completes_readCommand {body : Reader → Except ErrCode (Nat × Reader)} (hf : family i = .read)
    (hc : .capacityExceeded ∈ raisable i)
    (hbody : Reads (raisable i) s.reader (fun _ => True) (body s.reader)) :
    Completes i s (s.readCommand body) := by
  refine completes_check hc fun _ => ?_
  cases hb : body s.reader with
  | error e =>
    rw [hb] at hbody
    exact completes_raise hbody
  | ok y =>
    rw [hb] at hbody
    exact (Ending.read y.2 _ _ hf hbody.2).completes

theorem completes_decodeCommand {body : Nat → Reader → Except ErrCode (List Byte × Reader)}
    (hf : family i = .decode) (hx : i ≠ .bwtXform) (hreach : obufReach i s = s.arg0.toNat)
    (hc : .capacityExceeded ∈ raisable i)
    (hbody : ∀ n r, Reads (raisable i) r (fun out => out.length ≤ n) (body n r)) :
    Completes i s (s.decodeCommand body) := by
  unfold State.decodeCommand
  rw [← hreach]
  dsimp only
  split
  · exact (Ending.spoiled _ hc hf).completes
  split
  · exact (Ending.spoiled _ hc hf).completes
  have hres := hbody (obufReach i s) s.reader
  split
  case h_1 e he =>
    rw [he] at hres
    exact (Ending.spoiled e hres hf).completes
  case h_2 out r hr =>
    rw [hr] at hres
    obtain ⟨hout, hreaches⟩ := hres
    exact (Ending.delivered out r hf hx (by omega) hout hreaches).completes

end

/-! ### The commands that check more before they end -/

section
variable (s : State)

theorem completes_wsBit : Completes .wsBit s (execWsBit s) := by
  have hput (b : Bool) : Completes .wsBit s (s.finishWrite (wsPut s.params.wsCap s.ws b)) :=
    completes_finishWrite rfl (ends_wsPut (by decide) ..)
  unfold execWsBit
  split
  · exact hput false
  split
  · exact hput true
  · exact completes_raise (by decide)

theorem completes_wsBits : Completes .wsBits s (execWsBits s) := by
  refine completes_check (by decide) fun _ => ?_
  split
  case isTrue hfits => exact completes_finishWrite rfl (grows_append (by rwa [seqBits_length]))
  · exact completes_raise (by decide)

theorem completes_rsLoad (f : Bool) : Completes (.rsLoad f) s (execRsLoad f s) := by
  cases f with
  | false =>
    exact completes_check (by decide) fun hc => (Ending.loaded _ _ rfl (Nat.le_of_not_lt hc)).completes
  | true =>
    exact completes_check (by decide) fun _ => (Ending.rewound _ rfl).completes

theorem completes_rsBit : Completes .rsBit s (execRsBit s) :=
  completes_readCommand rfl (by decide) ((reads_get _ (by decide)).bind fun _ _ _ => reads_ok trivial)

theorem completes_rsBits : Completes .rsBits s (execRsBits s) := by
  refine completes_readCommand rfl (by decide) ?_
  dsimp only
  split
  · exact reads_error (by decide)
  · rw [Reader.getBits_eq, if_pos (Nat.min_le_right ..)]
    exact ⟨trivial, _, Nat.min_le_right .., rfl⟩

theorem completes_rsInt : Completes .rsInt s (execRsInt s) := by
  refine completes_readCommand rfl (by decide) ?_
  dsimp only
  split
  · exact reads_error (by decide)
  · exact reads_getInt _ (by decide) _

theorem completes_bwtXform : Completes .bwtXform s (execBwtXform s) := by
  unfold execBwtXform
  dsimp only
  split
  · exact (Ending.spoiled _ (by decide) rfl).completes
  split
  · exact (Ending.spoiled _ (by decide) rfl).completes
  split
  · exact (Ending.spoiled _ (by decide) rfl).completes
  · exact (Ending.transformed _ _ rfl (by omega) (by simp [bwtColumn_length, State.inputBytes])).completes

theorem completes_bwtDec : Completes .bwtDec s (execBwtDec s) := by
  have hspoil (n : Nat) (e : ErrCode) (he : e ∈ raisable .bwtDec) (hn : obufReach .bwtDec s = n) :
      Completes .bwtDec s (.next (s.raiseSpoiling n e)) := hn ▸ (Ending.spoiled e he rfl).completes
  unfold execBwtDec
  split
  case isTrue hrlen => exact hspoil _ _ (by decide) (if_pos hrlen)
  case isFalse hrlen =>
  have hruns := reads_readRuns (E := raisable .bwtDec) s.reader (by decide) (by decide) (by decide)
    s.params.obufCap
  split
  case h_1 e he =>
    rw [he] at hruns
    exact hspoil _ e hruns (by simp only [obufReach, if_neg hrlen, he])
  case h_2 lens r₁ hr₁ =>
  rw [hr₁] at hruns
  obtain ⟨hsum, h₁⟩ := hruns
  have hreach : obufReach .bwtDec s = lens.sum := by simp only [obufReach, if_neg hrlen, hr₁]
  have hmsg := reads_readMessage (E := raisable .bwtDec) r₁ (by decide) (by decide) s.arg1.toNat lens.sum lens
  split
  case h_1 e he =>
    rw [he] at hmsg
    exact hspoil _ e hmsg hreach
  case h_2 out r₂ hr₂ =>
    rw [hr₂] at hmsg
    obtain ⟨hout, h₂⟩ := hmsg
    rw [← hreach]
    exact (Ending.delivered out r₂ rfl (by decide) (hreach.le.trans hsum) (hout.trans hreach.ge)
      (h₁.trans h₂)).completes

end

theorem exec_completes (i : Instr) (s : State) : Completes i s (exec i s) := by
  cases i with
  | nop => exact (Ending.retired rfl).completes
  | wsClear =>
    exact (Ending.wrote [] 0 0 rfl (fun h => absurd rfl h) (fun _ => Nat.zero_le _)).completes
  | wsBit => exact completes_wsBit s
  | wsBits => exact completes_wsBits s
  | wsInt => exact completes_finishWrite rfl (ends_wsPutInt (by decide) ..)
  | rsLoad f => exact completes_rsLoad s f
  | rsBit => exact completes_rsBit s
  | rsBits => exact completes_rsBits s
  | rsInt => exact completes_rsInt s
  | monoEnc => exact completes_check (by decide) fun _ => completes_append _ rfl (by decide)
  | monoDec => exact completes_readCommand rfl (by decide) (reads_unmono32 _ (by decide) (by decide))
  | hufEnc =>
    exact completes_check (by decide) fun _ =>
      completes_check (by decide) fun _ => completes_append _ rfl (by decide)
  | hufDec =>
    exact completes_decodeCommand rfl (by decide) rfl (by decide) fun n r =>
      reads_huffDecode r (by decide) (by decide) n
  | lzssEnc => exact completes_check (by decide) fun _ => completes_append _ rfl (by decide)
  | lzssDec =>
    exact completes_decodeCommand rfl (by decide) rfl (by decide) fun n r =>
      reads_lzssDecode r (by decide) (by decide) _ n
  | lzwEnc esc =>
    have hc : .capacityExceeded ∈ raisable (.lzwEnc esc) := by cases esc <;> decide
    exact completes_check hc fun _ =>
      completes_finishWrite rfl (ends_lzwEncode hc _ (by rintro rfl; decide) ..)
  | lzwDec esc =>
    exact completes_decodeCommand rfl nofun rfl (by simp [raisable]) fun n r =>
      reads_lzwDecode r (by simp [raisable]) (by simp [raisable]) esc _ n
  | bwtEnc =>
    exact completes_check (by decide) fun _ =>
      completes_check (by decide) fun _ => completes_append _ rfl (by decide)
  | bwtDec => exact completes_bwtDec s
  | bwtXform => exact completes_bwtXform s

theorem exec_ending {i : Instr} {s t : State} (h : exec i s = .next t) : Ending i s t := by
  obtain ⟨t', ht, hend⟩ := exec_completes i s
  obtain rfl : t' = t := by simpa [h, eq_comm] using ht
  exact hend

end Sys2Proof.Machine
end

section
/-! The invariant, the flags and the frames: what settles O57, O8, O9, O11, O12 and O13. -/

namespace Sys2Proof.Machine

/-! ### What a host write leaves alone -/

/-- A register write changes registers the host may write, and BUSY and RPOS with them. -/
theorem State.writeReg_frame (s : State) (v : Word) (r : Reg) (t : State) (h : s.writeReg v r = t) :
    t = { s with cmd := t.cmd, pending := t.pending, arg0 := t.arg0, arg1 := t.arg1, arg2 := t.arg2,
                 ilen := t.ilen, rlen := t.rlen, rpos := t.rpos, alpha := t.alpha } := by
  subst h
  cases r <;> rfl

/-- A byte write changes IBUF and RBUF only (20_memory.md R74). -/
theorem State.writeByte_frame (s : State) (b : Byte) (sp : Space) (a : Nat) (t : State)
    (h : s.writeByte b sp a = t) : t = { s with ibuf := t.ibuf, rbuf := t.rbuf } := by
  subst h
  cases sp with
  | ibuf | rbuf =>
    simp only [State.writeByte]
    split <;> rfl
  | obuf | wsb => rfl

/-! ### Every step keeps the parameters and the invariant -/

section
variable {i : Instr} {s t : State}

/-- The cursor of a reading that started within the stream ends within it. -/
theorem State.rpos_le_of_reaches {r : Reader} (hr : s.reader.Reaches r)
    (h : s.rpos.toNat ≤ 8 * s.rlen.toNat) : (BitVec.ofNat 32 r.pos).toNat ≤ 8 * s.rlen.toNat := by
  rw [BitVec.toNat_ofNat]
  exact (Nat.mod_le ..).trans (hr.pos_le h)

theorem Ending.params (h : Ending i s t) : t.params = s.params := by
  cases h <;> rfl

theorem State.Inv.raise (h : s.Inv) (e : ErrCode) : (s.raise e).Inv := by
  rw [State.raise_eq]
  exact h

theorem State.Inv.spoilObuf (h : s.Inv) (n : Nat) : (s.spoilObuf n).Inv := by
  obtain ⟨hcounts, hibuf, ⟨hwf, hin⟩, hrbuf⟩ := h
  exact ⟨hcounts, hibuf, ⟨Memory.wf_storeRange hwf .., Memory.within_storeRange hin (by simp)⟩, hrbuf⟩

theorem Ending.inv (h : Ending i s t) (hs : s.Inv) : t.Inv := by
  cases h with
  | retired => exact hs
  | failed e => exact hs.raise e
  | spoiled e => exact (hs.spoilObuf _).raise e
  | wrote ws _ _ _ _ hcap =>
    obtain ⟨⟨hparams, hws, hrpos, holen⟩, hbufs⟩ := hs
    exact ⟨⟨hparams, hcap hws, hrpos, holen⟩, hbufs⟩
  | loaded bytes _ _ hcap =>
    obtain ⟨⟨hparams, hws, _, holen⟩, hibuf, hobuf, hwf, hin⟩ := hs
    exact ⟨⟨hparams, hws, Nat.zero_le _, holen⟩, hibuf, hobuf, Memory.wf_storeRange hwf ..,
      Memory.within_storeRange hin (by rwa [Nat.zero_add])⟩
  | rewound =>
    obtain ⟨⟨hparams, hws, _, holen⟩, hbufs⟩ := hs
    exact ⟨⟨hparams, hws, Nat.zero_le _, holen⟩, hbufs⟩
  | read r _ _ _ hr =>
    obtain ⟨⟨hparams, hws, hrpos, holen⟩, hbufs⟩ := hs
    exact ⟨⟨hparams, hws, State.rpos_le_of_reaches (s := s) hr hrpos, holen⟩, hbufs⟩
  | delivered out r _ _ hcap hout hr =>
    obtain ⟨⟨hparams, hws, hrpos, _⟩, hibuf, ⟨hwf, hin⟩, hrbuf⟩ := hs
    refine ⟨⟨hparams, hws, State.rpos_le_of_reaches (s := s) hr hrpos, ?_⟩, hibuf,
      ⟨Memory.wf_storeRange hwf .., Memory.within_storeRange hin ?_⟩, hrbuf⟩
    · rw [State.deliver_olen, BitVec.toNat_ofNat]
      exact (Nat.mod_le ..).trans hcap
    · rw [Nat.zero_add]
      exact hout.trans hcap
  | transformed out _ _ hcap hout =>
    obtain ⟨⟨hparams, hws, hrpos, _⟩, hibuf, ⟨hwf, hin⟩, hrbuf⟩ := hs
    exact ⟨⟨hparams, hws, hrpos, hcap⟩, hibuf,
      ⟨Memory.wf_storeRange hwf .., Memory.within_storeRange hin (by rwa [Nat.zero_add, hout])⟩, hrbuf⟩

theorem engineStep_params {w : Word} (h : engineStep w s = .next t) : t.params = s.params := by
  obtain ⟨i, -, hi⟩ | ⟨-, hill⟩ := engineStep_cases w s
  · exact (exec_ending (hi ▸ h)).params
  · cases hill.symm.trans h
    rfl

theorem engineStep_inv {w : Word} (h : engineStep w s = .next t) (hs : s.Inv) : t.Inv := by
  obtain ⟨i, -, hi⟩ | ⟨-, hill⟩ := engineStep_cases w s
  · exact (exec_ending (hi ▸ h)).inv hs
  · cases hill.symm.trans h
    exact hs.raise _

theorem State.Inv.writeReg (h : s.Inv) (v : Word) (r : Reg) : (s.writeReg v r).Inv := by
  cases r with
  | rlen =>
    obtain ⟨⟨hparams, hws, _, holen⟩, hbufs⟩ := h
    exact ⟨⟨hparams, hws, Nat.zero_le _, holen⟩, hbufs⟩
  | _ => exact h

theorem State.Inv.writeByte (h : s.Inv) (b : Byte) (sp : Space) (a : Nat) : (s.writeByte b sp a).Inv := by
  cases sp with
  | obuf | wsb => exact h
  | ibuf =>
    simp only [State.writeByte]
    split
    case isTrue ha =>
      obtain ⟨hcounts, ⟨hwf, hin⟩, hobuf, hrbuf⟩ := h
      exact ⟨hcounts, ⟨Memory.wf_store hwf a b, Memory.within_store hin ha b⟩, hobuf, hrbuf⟩
    · exact h
  | rbuf =>
    simp only [State.writeByte]
    split
    case isTrue ha =>
      obtain ⟨hcounts, hibuf, hobuf, hwf, hin⟩ := h
      exact ⟨hcounts, hibuf, hobuf, Memory.wf_store hwf a b, Memory.within_store hin ha b⟩
    · exact h

theorem State.Inv.assertReset (h : s.Inv) : s.assertReset.Inv := by
  obtain ⟨⟨hparams, -⟩, -⟩ := h
  exact ⟨⟨hparams, Nat.zero_le _, Nat.zero_le _, Nat.zero_le _⟩, ⟨.nil, nofun⟩, ⟨.nil, nofun⟩,
    .nil, nofun⟩

theorem idleMove_params (m : Move) : (idleMove s m).params = s.params := by
  cases m with
  | writeReg k v => exact (congrArg State.params (s.writeReg_frame v (Reg.atWord k) _ rfl) :)
  | writeByte sp a b => exact (congrArg State.params (s.writeByte_frame b sp a _ rfl) :)
  | _ => rfl

theorem State.Inv.idleMove (h : s.Inv) (m : Move) : (idleMove s m).Inv := by
  cases m with
  | writeReg k v => exact h.writeReg v _
  | writeByte sp a b => exact h.writeByte b sp a
  | reset => exact h.assertReset
  | _ => exact h

end

/-- Settles O57: the engine's turn by `Ending.inv`, a host's move by `State.Inv.idleMove`. -/
theorem stepKeepsTheInvariant : Obligations.StepKeepsTheInvariant := by
  unfold Obligations.StepKeepsTheInvariant
  intro s t h
  obtain ⟨w, ms, -, -, h⟩ | ⟨w, m, ms, -, -, h⟩ | ⟨m, ms, -, -, rfl⟩ | ⟨-, -, rfl⟩ := step_cases h
  · exact ⟨fun hs => engineStep_inv h hs, (engineStep_params h :)⟩
  · obtain ⟨k, -, -, rfl⟩ | ⟨-, rfl⟩ := busyMove_cases h
    · exact ⟨id, rfl⟩
    · exact ⟨fun hs => State.Inv.assertReset (s := { s with moves := ms }) hs, rfl⟩
  · exact ⟨fun hs => State.Inv.idleMove (s := { s with moves := ms }) hs m, idleMove_params m⟩
  · exact ⟨id, rfl⟩

/-! ### STICKY -/

section
variable {i : Instr} {s t : State}

theorem Ending.sticky_eq (h : Ending i s t) (hi : i ≠ .nop) :
    t.sticky = (s.sticky || decide (t.err ≠ .noError)) := by
  cases h with
  | retired hnop => exact absurd hnop hi
  | failed e he | spoiled e he => simp [ne_noError_of_raisable he]
  | _ => simp

theorem Ending.sticky_stays (h : Ending i s t) (hs : s.sticky = true) : t.sticky = true := by
  cases h with
  | failed | spoiled => rfl
  | _ => exact hs

theorem engineStep_sticky_stays {w : Word} (h : engineStep w s = .next t) (hs : s.sticky = true) :
    t.sticky = true := by
  obtain ⟨i, -, hi⟩ | ⟨-, hill⟩ := engineStep_cases w s
  · exact (exec_ending (hi ▸ h)).sticky_stays hs
  · cases hill.symm.trans h
    rfl

/-- Only reset clears STICKY (10_state.md R49). -/
theorem idleMove_sticky {m : Move} (hm : m ≠ .reset) : (idleMove s m).sticky = s.sticky := by
  cases m with
  | writeReg k v => exact (congrArg State.sticky (s.writeReg_frame v (Reg.atWord k) _ rfl) :)
  | writeByte sp a b => exact (congrArg State.sticky (s.writeByte_frame b sp a _ rfl) :)
  | reset => exact absurd rfl hm
  | _ => rfl

end

/-- Settles O8: `Ending.sticky_eq`, case by case over how a command ends. -/
theorem stickyRecordsErrors : Obligations.StickyRecordsErrors := by
  unfold Obligations.StickyRecordsErrors
  exact fun i s t h => (exec_ending h).sticky_eq

/-- Settles O9: the engine never clears STICKY, and of the moves only reset does. -/
theorem stickyStaysUntilReset : Obligations.StickyStaysUntilReset := by
  unfold Obligations.StickyStaysUntilReset
  intro s t h hs hreset
  obtain ⟨w, ms, -, -, h⟩ | ⟨w, m, ms, -, hmoves, h⟩ | ⟨m, ms, -, hmoves, rfl⟩ | ⟨-, -, rfl⟩ := step_cases h
  · exact engineStep_sticky_stays h hs
  · obtain ⟨k, -, -, rfl⟩ | ⟨rfl, -⟩ := busyMove_cases h
    · exact hs
    · exact absurd hmoves (hreset ms)
  · have hm : m ≠ .reset := by
      rintro rfl
      exact hreset ms hmoves
    rw [idleMove_sticky hm]
    exact hs
  · exact hs

/-! ### Frames -/

/-- Settles O11: a write command fails as error entry does, or installs a stream that the old one
begins. -/
theorem writeCommandsFrame : Obligations.WriteCommandsFrame := by
  unfold Obligations.WriteCommandsFrame
  intro i s t h hi
  have hf : family i = .write := by fin_cases hi <;> rfl
  cases exec_ending h with
  | failed e => exact ⟨by rw [State.raise_eq], fun _ => by rw [State.raise_ws]⟩
  | wrote ws _ _ _ hpre => exact ⟨rfl, hpre⟩
  | retired hi | loaded _ _ hi | rewound _ hi | transformed _ _ hi => subst hi; cases hf
  | spoiled _ _ hf' | read _ _ _ hf' | delivered _ _ hf' => cases hf.symm.trans hf'

/-- Settles O12: a read command fails as error entry does, or moves the cursor and gives a value. -/
theorem readCommandsFrame : Obligations.ReadCommandsFrame := by
  unfold Obligations.ReadCommandsFrame
  intro i s t h hi
  have hf : family i = .read := by fin_cases hi <;> rfl
  cases exec_ending h with
  | failed e => rw [State.raise_eq]
  | read => rfl
  | retired hi | loaded _ _ hi | rewound _ hi | transformed _ _ hi => subst hi; cases hf
  | spoiled _ _ hf' | wrote _ _ _ hf' | delivered _ _ hf' => cases hf.symm.trans hf'

/-- Settles O13: below the output length OBUF is open after a failure and holds the output after a
success; from there on `obufByte_raiseSpoiling` and `Memory.byteAt_storeRange` keep it. -/
theorem decodeCommandsFrame : Obligations.DecodeCommandsFrame := by
  unfold Obligations.DecodeCommandsFrame
  intro i s t h hi
  have hf : family i = .decode := by fin_cases hi <;> rfl
  cases exec_ending h with
  | failed e =>
    rw [State.raise_eq]
    exact ⟨rfl, fun _ _ => rfl, fun _ => rfl⟩
  | spoiled e =>
    refine ⟨?_, fun a ha => State.obufByte_raiseSpoiling e ha, fun _ => rfl⟩
    rw [State.raiseSpoiling, State.raise_eq]
    rfl
  | delivered out r _ hx _ hout =>
    refine ⟨rfl, fun a ha => ?_, fun hi => absurd hi hx⟩
    rw [State.obufByte_deliver, if_neg (by omega)]
  | transformed out _ hi _ hout =>
    subst hi
    refine ⟨rfl, fun a ha => ?_, fun _ => rfl⟩
    have hle : s.ilen.toNat ≤ a := ha
    exact (Memory.byteAt_storeRange ..).trans (if_neg (by omega))
  | retired hi | loaded _ _ hi | rewound _ hi => subst hi; cases hf
  | wrote _ _ _ hf' | read _ _ _ hf' => cases hf.symm.trans hf'

end Sys2Proof.Machine
end

section
/-! The registers and the alphabet: what settles O28, O49 and O50. -/

namespace Sys2Proof.Machine

/-! ### The alphabet -/

/-- A symbol of the alphabet is one in the set ALPHA (10_state.md R42). -/
theorem State.mem_alphabet (s : State) (c : Byte) : c ∈ s.alphabet ↔ s.inAlphabet c.toNat = true := by
  simp only [State.alphabet, List.mem_map, List.mem_filter, List.mem_range]
  constructor
  · rintro ⟨n, ⟨hn, hin⟩, rfl⟩
    rwa [BitVec.toNat_ofNat, Nat.mod_eq_of_lt hn]
  · exact fun hin => ⟨c.toNat, ⟨c.isLt, hin⟩, by simp⟩

theorem State.inAlphabet_of_word (s : State) (n : Nat) (j : Fin 8) (hj : j.val = n / 32) :
    s.inAlphabet n = s.alpha[j].getLsbD (n % 32) := by
  simp [State.inAlphabet, ← hj]

theorem State.alphabet_ascending (s : State) : s.alphabet.Pairwise fun a b => a.toNat < b.toNat := by
  unfold State.alphabet
  rw [List.pairwise_map]
  refine (List.pairwise_lt_range.filter _).imp_of_mem fun {m n} hm hn hlt => ?_
  have hm : m < 256 := List.mem_range.1 (List.mem_filter.1 hm).1
  have hn : n < 256 := List.mem_range.1 (List.mem_filter.1 hn).1
  rwa [BitVec.toNat_ofNat, BitVec.toNat_ofNat, Nat.mod_eq_of_lt hm, Nat.mod_eq_of_lt hn]

/-- Settles O28: the alphabet is the range of symbols, filtered by their bits of ALPHA. -/
theorem alphabetIsTheSetBits : Obligations.AlphabetIsTheSetBits := by
  unfold Obligations.AlphabetIsTheSetBits
  refine fun s => ⟨fun c j hj => ?_, s.alphabet_ascending⟩
  rw [s.mem_alphabet, s.inAlphabet_of_word _ j hj]

/-! ### STATUS -/

/-- STATUS bit by bit (10_state.md R35). -/
theorem State.statusWord_getLsbD (s : State) (k : Nat) :
    s.statusWord.getLsbD k =
      if k = 0 then s.busy else if k = 1 then s.sticky
      else decide (8 ≤ k ∧ k < 12) && s.err.code.getLsbD (k - 8) := by
  simp only [State.statusWord, BitVec.getLsbD_append, BitVec.getLsbD_ofBool]
  rcases k with _ | _ | k
  · simp
  · simp
  · by_cases hlow : k < 6
    · simp [hlow]
    by_cases herr : k - 6 < 4
    · simp [hlow, herr, show 8 ≤ k + 2 ∧ k + 2 < 12 by omega, show k + 2 - 8 = k - 6 by omega]
    · simp [hlow, herr, show ¬ k + 2 < 12 by omega]

/-- Settles O50 from `State.statusWord_getLsbD`. -/
theorem statusWordFields : Obligations.StatusWordFields := by
  unfold Obligations.StatusWordFields
  refine fun s => ⟨rfl, ?_, ?_, ?_, fun k hk => ?_⟩
  · rw [s.statusWord_getLsbD, if_pos rfl]
  · rw [s.statusWord_getLsbD, if_neg (by decide), if_pos rfl]
  · refine BitVec.eq_of_getLsbD_eq fun k hk => ?_
    rw [BitVec.getLsbD_extractLsb', s.statusWord_getLsbD, if_neg (by omega), if_neg (by omega)]
    simp [hk, show 8 + k < 12 by omega]
  · rw [s.statusWord_getLsbD, if_neg (by omega), if_neg (by omega),
      decide_eq_false (by omega), Bool.false_and]

/-! ### The register map -/

/-- A register the host can write (10_state.md R31). -/
def Reg.writable : Reg → Bool
  | .cmd | .arg0 | .arg1 | .arg2 | .ilen | .rlen | .alpha _ => true
  | .result0 | .result1 | .status | .olen | .wsize | .rpos | .ibufCapR | .obufCapR | .rbufCapR | .wsCapR
  | .unlisted => false

/-- No two words name one register that the host can write. -/
theorem Reg.atWord_injective : ∀ j k : Fin 64, (Reg.atWord k).writable = true →
    Reg.atWord j = Reg.atWord k → j = k := by decide

theorem State.writeReg_of_not_writable (s : State) (v : Word) {r : Reg} (hr : r.writable = false) :
    s.writeReg v r = s := by
  cases r with
  | cmd | arg0 | arg1 | arg2 | ilen | rlen | alpha => cases hr
  | _ => rfl

theorem State.readReg_writeReg_same (s : State) (v : Word) {r : Reg} (hr : r.writable = true) :
    (s.writeReg v r).readReg r = v := by
  cases r with
  | alpha j => simp [State.writeReg, State.readReg]
  | cmd | arg0 | arg1 | arg2 | ilen | rlen => rfl
  | _ => cases hr

/-- A write shows in no other register, but RLEN's in RPOS and CMD's in STATUS (10_state.md R36, R40). -/
theorem State.readReg_writeReg_ne (s : State) (v : Word) {r q : Reg} (hq : q ≠ r)
    (hrlen : ¬ (r = .rlen ∧ q = .rpos)) (hcmd : ¬ (r = .cmd ∧ q = .status)) :
    (s.writeReg v r).readReg q = s.readReg q := by
  cases r with
  | cmd =>
    cases q with
    | cmd => exact absurd rfl hq
    | status => exact absurd ⟨rfl, rfl⟩ hcmd
    | _ => rfl
  | rlen =>
    cases q with
    | rlen => exact absurd rfl hq
    | rpos => exact absurd ⟨rfl, rfl⟩ hrlen
    | _ => rfl
  | arg0 | arg1 | arg2 | ilen =>
    cases q <;> simp_all [State.writeReg, State.readReg, State.statusWord, State.busy]
  | alpha j =>
    cases q with
    | alpha k =>
      have hjk : j.val ≠ k.val := fun h => hq (congrArg _ (Fin.ext h.symm))
      exact Vector.getElem_set_ne j.isLt k.isLt hjk
    | _ => rfl
  | _ => rfl

theorem State.readReg_alphaWord (s : State) : ∀ (k : Fin 64) (i : Fin 8), k.val = 12 + i.val →
    s.readReg (Reg.atWord k) = s.alpha[i] := by
  have hword : ∀ (k : Fin 64) (i : Fin 8), k.val = 12 + i.val → Reg.atWord k = .alpha i := by decide
  intro k i hk
  rw [hword k i hk]
  rfl

/-- Settles O49: `Reg.atWord` takes the words to registers, and what a write does is said by register. -/
theorem registerMapReadsAndWrites : Obligations.RegisterMapReadsAndWrites := by
  unfold Obligations.RegisterMapReadsAndWrites
  intro s k j v
  have hwritable : ∀ k : Fin 64,
      k ∈ ([0, 1, 2, 3, 7, 10, 12, 13, 14, 15, 16, 17, 18, 19] : List (Fin 64)) ↔
        (Reg.atWord k).writable = true := by decide
  have hunlisted : ∀ k : Fin 64, 24 ≤ k.val → Reg.atWord k = .unlisted := by decide
  have hrlen : ∀ k : Fin 64, Reg.atWord k = .rlen → k = 10 := by decide
  have hrpos : ∀ k : Fin 64, Reg.atWord k = .rpos → k = 11 := by decide
  have hcmd : ∀ k : Fin 64, Reg.atWord k = .cmd → k = 0 := by decide
  have hstatus : ∀ k : Fin 64, Reg.atWord k = .status → k = 6 := by decide
  refine ⟨fun hk => s.readReg_writeReg_same v ((hwritable k).1 hk),
    fun hk => s.writeReg_of_not_writable v (by simpa [hwritable] using hk),
    fun hk => by rw [hunlisted k hk]; rfl,
    rfl, rfl, rfl, rfl, rfl, rfl, rfl, rfl, rfl, rfl, rfl, s.readReg_alphaWord k, rfl, rfl, rfl, rfl, rfl,
    fun hjk h₁ h₂ => ?_, _, rfl, s.writeReg_frame v _ _ rfl⟩
  cases hk : (Reg.atWord k).writable with
  | false => rw [s.writeReg_of_not_writable v hk]
  | true =>
    exact s.readReg_writeReg_ne v (fun h => hjk (Reg.atWord_injective j k hk h))
      (fun ⟨hr, hq⟩ => h₁ ⟨hrlen k hr, hrpos j hq⟩) (fun ⟨hr, hq⟩ => h₂ ⟨hcmd k hr, hstatus j hq⟩)

end Sys2Proof.Machine
end

section
/-! The host's reads and its byte writes: what settles O51, O52 and O53. -/

namespace Sys2Proof.Machine

/-! ### The byte image of the write stream -/

/-- A byte past the stream holds no stream bit, so it is all padding (20_memory.md R75). -/
theorem wsByte_of_length_le {ws : List Bool} {j : Nat} (h : ws.length ≤ 8 * j) : wsByte ws j = 0 := by
  refine BitVec.eq_of_getLsbD_eq fun i hi => ?_
  rw [wsByte_getLsbD ws j hi, List.getD_eq_default _ _ (by omega)]
  exact BitVec.getLsbD_zero.symm

/-- Settles O52: a byte of WSB is a `wsByte`, whose bits are the stream's. -/
theorem wsbShowsTheWriteStream : Obligations.WsbShowsTheWriteStream := by
  unfold Obligations.WsbShowsTheWriteStream
  exact fun s j => ⟨fun _ hi => wsByte_getLsbD s.ws j hi, fun hj => wsByte_of_length_le (by omega)⟩

/-! ### A byte read after a byte write -/

/-- A read bounded by the space's size, after a write within it. -/
theorem Memory.boundedByteAt_store (m : Memory) (resets : Nat) (sp : Space) {a cap : Nat} (h : a < cap)
    (k : Nat) (b : Byte) :
    (if k < cap then (m.store a b).byteAt resets sp k else 0) =
      if k = a then b else if k < cap then m.byteAt resets sp k else 0 := by
  rw [Memory.byteAt_store]
  by_cases hk : k = a
  · rw [if_pos hk, if_pos hk.symm, if_pos (hk ▸ h)]
  · rw [if_neg hk, if_neg (Ne.symm hk)]

/-- How many bytes of a space a host write reaches (20_memory.md R74): none of OBUF and WSB. -/
def State.hostWritableSize (s : State) : Space → Nat
  | .ibuf => s.params.ibufCap
  | .rbuf => s.params.rbufCap
  | .obuf | .wsb => 0

theorem State.writeByte_of_size_le (s : State) (b : Byte) {sp : Space} {a : Nat}
    (h : s.hostWritableSize sp ≤ a) : s.writeByte b sp a = s := by
  cases sp with
  | ibuf | rbuf => exact if_neg h.not_gt
  | obuf | wsb => rfl

/-- What every byte reads as after a write that is not ignored. -/
theorem State.readByte_writeByte (s : State) (b : Byte) {sp : Space} {a : Nat}
    (h : a < s.hostWritableSize sp) (sp' : Space) (k : Nat) :
    (s.writeByte b sp a).readByte sp' k = if sp' = sp ∧ k = a then b else s.readByte sp' k := by
  cases sp with
  | ibuf =>
    have hw : s.writeByte b .ibuf a = { s with ibuf := s.ibuf.store a b } := if_pos h
    rw [hw]
    cases sp' with
    | ibuf =>
      simp only [true_and]
      exact Memory.boundedByteAt_store s.ibuf s.resets .ibuf h k b
    | _ => rfl
  | rbuf =>
    have hw : s.writeByte b .rbuf a = { s with rbuf := s.rbuf.store a b } := if_pos h
    rw [hw]
    cases sp' with
    | rbuf =>
      simp only [true_and]
      exact Memory.boundedByteAt_store s.rbuf s.resets .rbuf h k b
    | _ => rfl
  | obuf | wsb => cases h

/-- A byte write shows at its own address only, whether it is ignored or not. -/
theorem State.readByte_writeByte_ne (s : State) (b : Byte) {sp sp' : Space} {a k : Nat}
    (h : ¬ (sp' = sp ∧ k = a)) : (s.writeByte b sp a).readByte sp' k = s.readByte sp' k := by
  rcases Nat.lt_or_ge a (s.hostWritableSize sp) with ha | ha
  · rw [s.readByte_writeByte b ha, if_neg h]
  · rw [s.writeByte_of_size_le b ha]

/-- Settles O51: a write within the space by `State.readByte_writeByte`, an ignored one by
`State.writeByte_of_size_le`. -/
theorem bufferBytesReadAndWrite : Obligations.BufferBytesReadAndWrite := by
  unfold Obligations.BufferBytesReadAndWrite
  intro s b a k sp
  refine ⟨fun ha => if_pos ha, fun ha => if_pos ha, fun ha => if_pos ha,
    fun ha => ?ibuf, fun ha => ?rbuf, fun sp' hne => s.readByte_writeByte_ne b hne,
    fun ha => ⟨s.writeByte_of_size_le b ha, if_neg ha.not_gt⟩,
    fun ha => ⟨s.writeByte_of_size_le b ha, if_neg ha.not_gt⟩,
    rfl, fun ha => if_neg ha.not_gt, rfl, fun hws ha => wsByte_of_length_le (by omega),
    _, rfl, s.writeByte_frame b sp a _ rfl⟩
  case ibuf => rw [s.readByte_writeByte b (sp := .ibuf) ha, if_pos ⟨rfl, rfl⟩]
  case rbuf => rw [s.readByte_writeByte b (sp := .rbuf) ha, if_pos ⟨rfl, rfl⟩]

/-! ### A host's move as a step -/

section
variable {s : State} {m : Move} {ms : List Move}

theorem step_of_idle (hp : s.pending = none) (hm : s.moves = m :: ms) :
    step s = .next (idleMove { s with moves := ms } m) := by
  simp only [step, hp, hm]

/-- While a command is pending, a WAIT is the engine's turn, and every other move is the host's. -/
theorem step_of_busy (hp : s.pending ≠ none) (hm : s.moves = m :: ms) (hw : m ≠ .wait) :
    step s = busyMove { s with moves := ms } m := by
  obtain ⟨w, hpw⟩ := Option.ne_none_iff_exists'.1 hp
  cases m with
  | wait => exact absurd rfl hw
  | _ => simp only [step, hpw, hm]

end

/-! ### The host's reads -/

/-- What a register reads as does not depend on the host's moves to come. -/
theorem State.readReg_moves (s : State) (ms : List Move) (r : Reg) :
    ({ s with moves := ms } : State).readReg r = s.readReg r := by
  cases r <;> rfl

/-- What a byte reads as does not depend on the host's moves to come. -/
theorem State.readByte_moves (s : State) (ms : List Move) (sp : Space) (a : Nat) :
    ({ s with moves := ms } : State).readByte sp a = s.readByte sp a := by
  cases sp <;> rfl

/-- Settles O53: a read takes the move off the host's list and answers what the block held before. -/
theorem hostReadsChangeNothing : Obligations.HostReadsChangeNothing := by
  unfold Obligations.HostReadsChangeNothing
  refine fun s ms => ⟨fun k hp hm => ?_, fun sp a hp hm => ?_, fun hp hm => step_of_busy hp hm nofun⟩
  · rw [step_of_idle hp hm, ← s.readReg_moves ms]
    rfl
  · rw [step_of_idle hp hm, ← s.readByte_moves ms]
    rfl

end Sys2Proof.Machine
end

section
/-! The CMD32 format and the opcode map: what settles O1, O2, O3, O4 and O14. -/

namespace Sys2Proof

/-! ### A word and its fields -/

theorem CommandWord.toWord_ofWord (w : Word) : (CommandWord.ofWord w).toWord = w := by
  have hflag : BitVec.ofBool (w.getLsbD 8) = w.extractLsb' 8 1 := by
    ext i hi
    obtain rfl : i = 0 := by omega
    simp
  simp only [CommandWord.toWord, CommandWord.ofWord, hflag]
  rw [BitVec.extractLsb'_append_extractLsb'_eq_extractLsb' (show 9 = 8 + 1 from rfl),
    BitVec.extractLsb'_append_extractLsb'_eq_extractLsb' (show 8 = 0 + 8 from rfl)]
  exact BitVec.extractLsb'_eq_self

theorem CommandWord.wellFormed_iff (c : CommandWord) :
    c.wellFormed = true ↔ c.rsv = 0 ∧ c.opc ∈ listedOpcodes ∧ (c.f = true → c.opc ∈ flagOpcodes) := by
  simp only [CommandWord.wellFormed, CommandWord.rsvOk, CommandWord.opcOk, CommandWord.flagOk,
    Bool.and_eq_true, beq_iff_eq, List.contains_iff_mem, Bool.or_eq_true, Bool.not_eq_true', and_assoc,
    ← Bool.not_eq_true, imp_iff_not_or]

/-- R105's conditions on a word are the three checks of its fields, each failed. -/
theorem Machine.not_illegalWord_iff (w : Word) :
    ¬ illegalWord w ↔ (CommandWord.ofWord w).wellFormed = true := by
  have hrsv : w >>> 9 = 0 ↔ (CommandWord.ofWord w).rsv = 0 := by
    have := w.isLt
    simp only [CommandWord.ofWord, ← BitVec.toNat_inj, BitVec.toNat_ushiftRight, BitVec.extractLsb'_toNat,
      BitVec.ofNat_eq_ofNat, BitVec.toNat_ofNat]
    omega
  rw [CommandWord.wellFormed_iff, ← hrsv]
  simp only [illegalWord, not_or, not_and, not_not, ne_eq]
  rfl

/-! ### Every command has a legal word, and every legal word is a command's -/

/-- The per-instruction family `Encoding`, for every command at once. -/
theorem Instr.encoding (i : Instr) : Laws.Encoding.Statement i := by
  cases i with
  | nop => exact Laws.Encoding.nop
  | wsClear => exact Laws.Encoding.wsClear
  | wsBit => exact Laws.Encoding.wsBit
  | wsBits => exact Laws.Encoding.wsBits
  | wsInt => exact Laws.Encoding.wsInt
  | rsLoad f => exact Laws.Encoding.rsLoad f
  | rsBit => exact Laws.Encoding.rsBit
  | rsBits => exact Laws.Encoding.rsBits
  | rsInt => exact Laws.Encoding.rsInt
  | monoEnc => exact Laws.Encoding.monoEnc
  | monoDec => exact Laws.Encoding.monoDec
  | hufEnc => exact Laws.Encoding.hufEnc
  | hufDec => exact Laws.Encoding.hufDec
  | lzssEnc => exact Laws.Encoding.lzssEnc
  | lzssDec => exact Laws.Encoding.lzssDec
  | lzwEnc esc => exact Laws.Encoding.lzwEnc esc
  | lzwDec esc => exact Laws.Encoding.lzwDec esc
  | bwtEnc => exact Laws.Encoding.bwtEnc
  | bwtDec => exact Laws.Encoding.bwtDec
  | bwtXform => exact Laws.Encoding.bwtXform

theorem decode_encode (i : Instr) : decode (encode i) = .ok i := i.encoding.2

/-- The commands with the flag `f`, in the order of the map (30_encoding.md R102, R103). -/
def instrsWithFlag : Bool → List Instr
  | false =>
    [.nop, .wsClear, .wsBit, .wsBits, .wsInt, .rsLoad false, .rsBit, .rsBits, .rsInt, .monoEnc, .monoDec,
     .hufEnc, .hufDec, .lzssEnc, .lzssDec, .lzwEnc false, .lzwDec false, .bwtEnc, .bwtDec, .bwtXform]
  | true => [.rsLoad true, .lzwEnc true, .lzwDec true]

theorem flag_of_mem_instrsWithFlag {f : Bool} {i : Instr} (h : i ∈ instrsWithFlag f) : i.flag = f := by
  revert i
  cases f <;> decide

theorem listedOpcodes_eq : listedOpcodes = (instrsWithFlag false).map Instr.opc := rfl

theorem flagOpcodes_eq : flagOpcodes = (instrsWithFlag true).map Instr.opc := rfl

/-- Fields that pass the checks of R105 are some command's. -/
theorem exists_fields_eq {c : CommandWord} (h : c.wellFormed = true) : ∃ i : Instr, i.fields = c := by
  obtain ⟨hrsv, hopc, hflag⟩ := c.wellFormed_iff.1 h
  obtain ⟨opc, f, rsv⟩ := c
  subst hrsv
  have hmem : opc ∈ (instrsWithFlag f).map Instr.opc := by
    cases f with
    | false => rwa [← listedOpcodes_eq]
    | true => exact flagOpcodes_eq ▸ hflag rfl
  obtain ⟨i, hi, rfl⟩ := List.mem_map.1 hmem
  exact ⟨i, by rw [Instr.fields, flag_of_mem_instrsWithFlag hi]⟩

/-! ### What decodes -/

/-- A row of the map that takes no flag. -/
theorem takesNoFlag_ok {opc : Byte} {f : Bool} {i j : Instr} (h : takesNoFlag f j = .ok i)
    (hopc : opc.toNat = j.opc.toNat) (hflag : j.flag = false) : i.opc = opc ∧ i.flag = f := by
  cases f with
  | true => cases h
  | false =>
    cases h
    exact ⟨BitVec.eq_of_toNat_eq hopc.symm, hflag⟩

/-- Row by row, the map answers a command with the opcode and the flag it was given. -/
theorem fields_of_decodeFields {opc : Byte} {f : Bool} {i : Instr} (h : decodeFields opc f = .ok i) :
    i.opc = opc ∧ i.flag = f := by
  unfold decodeFields at h
  split at h
  case h_21 => cases h -- a reserved opcode
  -- the three commands whose flag is free (R103)
  case h_6 hopc | h_16 hopc | h_17 hopc =>
    cases h
    exact ⟨BitVec.eq_of_toNat_eq hopc.symm, rfl⟩
  all_goals next hopc => exact takesNoFlag_ok h hopc rfl

theorem ofWord_of_decode {w : Word} {i : Instr} (h : decode w = .ok i) : CommandWord.ofWord w = i.fields := by
  simp only [decode] at h
  split at h
  case isFalse => cases h
  case isTrue hrsv =>
    obtain ⟨hopc, hflag⟩ := fields_of_decodeFields h
    rw [Instr.fields, hopc, hflag, ← eq_of_beq hrsv]

theorem decode_eq_ok_iff {w : Word} {i : Instr} : decode w = .ok i ↔ encode i = w :=
  ⟨fun h => by rw [encode, ← ofWord_of_decode h, CommandWord.toWord_ofWord], fun h => h ▸ decode_encode i⟩

/-- R105 as the decoder reads it: a word is a command's exactly when it passes the checks. -/
theorem exists_decode_iff (w : Word) :
    (∃ i, decode w = .ok i) ↔ (CommandWord.ofWord w).wellFormed = true := by
  constructor
  · rintro ⟨i, h⟩
    rw [ofWord_of_decode h]
    exact i.encoding.1
  · intro h
    obtain ⟨i, hi⟩ := exists_fields_eq h
    exact ⟨i, decode_eq_ok_iff.2 (by rw [encode, hi, CommandWord.toWord_ofWord])⟩

/-- Settles O1: each word is the encoding of its command. -/
theorem decodeReadsTheOpcodeMap : Obligations.DecodeReadsTheOpcodeMap :=
  ⟨decode_encode .nop, decode_encode .wsClear, decode_encode .wsBit, decode_encode .wsBits,
    decode_encode .wsInt, decode_encode (.rsLoad false), decode_encode (.rsLoad true), decode_encode .rsBit,
    decode_encode .rsBits, decode_encode .rsInt, decode_encode .monoEnc, decode_encode .monoDec,
    decode_encode .hufEnc, decode_encode .hufDec, decode_encode .lzssEnc, decode_encode .lzssDec,
    decode_encode (.lzwEnc false), decode_encode (.lzwEnc true), decode_encode (.lzwDec false),
    decode_encode (.lzwDec true), decode_encode .bwtEnc, decode_encode .bwtDec, decode_encode .bwtXform⟩

/-- Settles O2: `decode_eq_ok_iff`, and that every command's word is legal. -/
theorem decodeInvertsEncode : Obligations.DecodeInvertsEncode := by
  unfold Obligations.DecodeInvertsEncode
  exact fun i w => decode_eq_ok_iff.trans ⟨fun h => ⟨i.encoding.1, h⟩, And.right⟩

end Sys2Proof

namespace Sys2Proof.Machine

/-! ### The engine's turn -/

section
variable {s : State} {w : Word}

theorem step_of_pending (hp : s.pending = some w) (hm : s.moves = []) : step s = engineStep w s := by
  simp only [step, hp, hm]

theorem step_of_pending_wait {ms : List Move} (hp : s.pending = some w) (hm : s.moves = .wait :: ms) :
    step s = engineStep w { s with moves := ms } := by
  simp only [step, hp, hm]

theorem engineStep_of_decode {i : Instr} (h : decode w = .ok i) (s : State) : engineStep w s = exec i s := by
  simp only [engineStep, h]

/-- A word that no command has raises ILLEGAL_COMMAND (60_exceptions.md R308). -/
theorem engineStep_of_not_decodes (h : ¬ ∃ i, decode w = .ok i) (s : State) :
    engineStep w s = .next (s.failedWith .illegalCommand) := by
  obtain ⟨i, hi, -⟩ | ⟨-, hraise⟩ := engineStep_cases w s
  · exact absurd ⟨i, hi⟩ h
  · rw [hraise, State.raise_eq, State.failedWith]

end

/-- Settles O4: both turns of the engine are `engineStep`, which runs what the word decodes to. -/
theorem stepRunsTheDecodedCommand : Obligations.StepRunsTheDecodedCommand := by
  unfold Obligations.StepRunsTheDecodedCommand
  exact fun s w i hp hi => ⟨fun hm => (step_of_pending hp hm).trans (engineStep_of_decode hi _),
    fun ms hm => (step_of_pending_wait hp hm).trans (engineStep_of_decode hi _)⟩

/-- Settles O3: an illegal word does not decode, and the engine then raises ILLEGAL_COMMAND. -/
theorem illegalWordsRaise : Obligations.IllegalWordsRaise := by
  unfold Obligations.IllegalWordsRaise
  intro w
  have hlegal := (exists_decode_iff w).trans (not_illegalWord_iff w).symm
  refine ⟨hlegal, fun s hp hw => ?_⟩
  have hno : ¬ ∃ i, decode w = .ok i := fun h => hlegal.1 h hw
  exact ⟨fun hm => (step_of_pending hp hm).trans (engineStep_of_not_decodes hno _),
    fun ms hm => (step_of_pending_wait hp hm).trans (engineStep_of_not_decodes hno _)⟩

/-- Of the commands, only NOP has opcode 0. -/
theorem eq_nop_of_opc_eq_zero {i : Instr} (h : i.opc = 0) : i = .nop := by
  cases i with
  | nop => rfl
  | _ => simp [Instr.opc] at h

/-- Settles O14: a word decodes to NOP when it is NOP's encoding, 0; any other word with `OPC = 0` could
decode to NOP only, so it does not decode. -/
theorem nopHasNoEffect : Obligations.NopHasNoEffect := by
  unfold Obligations.NopHasNoEffect
  have hzero : encode .nop = 0x00000000 := rfl
  refine ⟨fun w => ?_, fun s => rfl, fun s w hopc hw => engineStep_of_not_decodes ?_ s⟩
  · rw [decode_eq_ok_iff, hzero, eq_comm]
  · rintro ⟨i, hi⟩
    obtain rfl : i = .nop :=
      eq_nop_of_opc_eq_zero ((congrArg CommandWord.opc (ofWord_of_decode hi)).symm.trans hopc)
    exact hw (decode_eq_ok_iff.1 hi).symm

end Sys2Proof.Machine
end

section
/-!
The operand registers: what settles O10. A command commutes with a write of the operand registers that
leaves the ones it reads (30_encoding.md R104) as they are: first the shared endings do, then each command.
-/

namespace Sys2Proof.Machine

/-- The commands that read ARG0 (30_encoding.md R104). -/
def arg0Readers : List Instr :=
  [.wsBit, .wsBits, .wsInt, .monoEnc, .hufDec, .lzssDec, .lzwDec false, .lzwDec true]

/-- The commands that read ARG1 (30_encoding.md R104). -/
def arg1Readers : List Instr := [.wsBits, .wsInt, .rsBits, .rsInt, .lzssEnc, .lzssDec, .bwtEnc, .bwtDec]

/-- The state with other values in the operand registers. -/
def State.setArgs (s : State) (a₀ a₁ a₂ : Word) : State := { s with arg0 := a₀, arg1 := a₁, arg2 := a₂ }

/-- The outcome with other values in the operand registers of its state. -/
def setArgsOf (a₀ a₁ a₂ : Word) : StepOutcome → StepOutcome
  | .next t => .next (t.setArgs a₀ a₁ a₂)
  | .fault r => .fault r
  | .refused r => .refused r

/-- A check before two ways to go on. -/
theorem ite_setArgs {c : Prop} [Decidable c] {x y x' y' : StepOutcome}
    {a₀ a₁ a₂ : Word} (hx : x' = setArgsOf a₀ a₁ a₂ x) (hy : y' = setArgsOf a₀ a₁ a₂ y) :
    (if c then x' else y') = setArgsOf a₀ a₁ a₂ (if c then x else y) := by
  split
  · exact hx
  · exact hy

section
variable (s : State) (a₀ a₁ a₂ : Word)

@[simp] theorem State.setArgs_arg0 : (s.setArgs a₀ a₁ a₂).arg0 = a₀ := rfl
@[simp] theorem State.setArgs_arg1 : (s.setArgs a₀ a₁ a₂).arg1 = a₁ := rfl
@[simp] theorem State.setArgs_params : (s.setArgs a₀ a₁ a₂).params = s.params := rfl
@[simp] theorem State.setArgs_reader : (s.setArgs a₀ a₁ a₂).reader = s.reader := rfl

/-! ### The shared ways a command ends -/

theorem finishWrite_setArgs (x : Except ErrCode (List Bool)) :
    (s.setArgs a₀ a₁ a₂).finishWrite x = setArgsOf a₀ a₁ a₂ (s.finishWrite x) := by
  cases x <;> rfl

theorem finishRead_setArgs (x : Except ErrCode (Nat × Reader)) :
    (s.setArgs a₀ a₁ a₂).finishRead x = setArgsOf a₀ a₁ a₂ (s.finishRead x) := by
  cases x <;> rfl

theorem readCommand_setArgs (body : Reader → Except ErrCode (Nat × Reader)) :
    (s.setArgs a₀ a₁ a₂).readCommand body = setArgsOf a₀ a₁ a₂ (s.readCommand body) :=
  ite_setArgs rfl (finishRead_setArgs s a₀ a₁ a₂ (body s.reader))

/-- The ending of the decoders: the output length is ARG0. -/
theorem decodeCommand_setArgs (body : Nat → Reader → Except ErrCode (List Byte × Reader)) :
    (s.setArgs s.arg0 a₁ a₂).decodeCommand body = setArgsOf s.arg0 a₁ a₂ (s.decodeCommand body) := by
  refine ite_setArgs rfl (ite_setArgs rfl ?_)
  rw [State.setArgs_arg0, State.setArgs_reader]
  cases body s.arg0.toNat s.reader <;> rfl

theorem bwtDec_setArgs : execBwtDec (s.setArgs a₀ s.arg1 a₂) = setArgsOf a₀ s.arg1 a₂ (execBwtDec s) := by
  refine ite_setArgs rfl ?_
  rw [State.setArgs_params, State.setArgs_reader, State.setArgs_arg1]
  cases readRuns s.params.obufCap s.reader with
  | error e => rfl
  | ok runs =>
    dsimp only
    cases readMessage s.arg1.toNat runs.1.sum runs.1 runs.2 <;> rfl

variable {s a₀ a₁ a₂}

/-- A command reads the operand registers that R104 lists for it, and passes all three on as they are. -/
theorem exec_setArgs {i : Instr} (h₀ : i ∈ arg0Readers → a₀ = s.arg0) (h₁ : i ∈ arg1Readers → a₁ = s.arg1)
    (h₂ : i = .wsBits → a₂ = s.arg2) :
    exec i (s.setArgs a₀ a₁ a₂) = setArgsOf a₀ a₁ a₂ (exec i s) := by
  cases i with
  | nop | wsClear => rfl
  | wsBit =>
    obtain rfl := h₀ (by decide)
    exact ite_setArgs (finishWrite_setArgs ..) (ite_setArgs (finishWrite_setArgs ..) rfl)
  | wsBits =>
    obtain rfl := h₀ (by decide)
    obtain rfl := h₁ (by decide)
    obtain rfl := h₂ rfl
    exact ite_setArgs rfl (ite_setArgs (finishWrite_setArgs ..) rfl)
  | wsInt =>
    obtain rfl := h₀ (by decide)
    obtain rfl := h₁ (by decide)
    exact finishWrite_setArgs ..
  | rsLoad f => cases f <;> exact ite_setArgs rfl rfl
  | rsBit =>
    unfold exec execRsBit
    exact readCommand_setArgs ..
  | rsBits =>
    obtain rfl := h₁ (by decide)
    unfold exec execRsBits
    exact readCommand_setArgs ..
  | rsInt =>
    obtain rfl := h₁ (by decide)
    unfold exec execRsInt
    exact readCommand_setArgs ..
  | monoDec => exact readCommand_setArgs ..
  | monoEnc =>
    obtain rfl := h₀ (by decide)
    exact ite_setArgs rfl (finishWrite_setArgs ..)
  | hufEnc => exact ite_setArgs rfl (ite_setArgs rfl (finishWrite_setArgs ..))
  | hufDec =>
    obtain rfl := h₀ (by decide)
    exact decodeCommand_setArgs ..
  | lzssEnc =>
    obtain rfl := h₁ (by decide)
    exact ite_setArgs rfl (finishWrite_setArgs ..)
  | lzssDec =>
    obtain rfl := h₀ (by decide)
    obtain rfl := h₁ (by decide)
    exact decodeCommand_setArgs ..
  | lzwEnc esc => exact ite_setArgs rfl (finishWrite_setArgs ..)
  | lzwDec esc =>
    obtain rfl := h₀ (by cases esc <;> decide)
    exact decodeCommand_setArgs ..
  | bwtEnc =>
    obtain rfl := h₁ (by decide)
    exact ite_setArgs rfl (ite_setArgs rfl (finishWrite_setArgs ..))
  | bwtDec =>
    obtain rfl := h₁ (by decide)
    exact bwtDec_setArgs ..
  | bwtXform => exact ite_setArgs rfl (ite_setArgs rfl (ite_setArgs rfl rfl))

/-- No command writes an operand register (10_state.md R32). -/
theorem Ending.args {i : Instr} {t : State} (h : Ending i s t) :
    t.arg0 = s.arg0 ∧ t.arg1 = s.arg1 ∧ t.arg2 = s.arg2 := by
  cases h <;> exact ⟨rfl, rfl, rfl⟩

end

/-- Settles O10: `exec_setArgs` with a new value in one register and the old ones in the other two, which
the next state still holds. -/
theorem unusedArgumentsHaveNoEffect : Obligations.UnusedArgumentsHaveNoEffect := by
  unfold Obligations.UnusedArgumentsHaveNoEffect
  intro i s t v h
  obtain ⟨ht₀, ht₁, ht₂⟩ := (exec_ending h).args
  have hset {a₀ a₁ a₂ : Word} (h₀ : i ∈ arg0Readers → a₀ = s.arg0) (h₁ : i ∈ arg1Readers → a₁ = s.arg1)
      (h₂ : i = .wsBits → a₂ = s.arg2) : exec i (s.setArgs a₀ a₁ a₂) = .next (t.setArgs a₀ a₁ a₂) := by
    rw [exec_setArgs h₀ h₁ h₂, h, setArgsOf]
  exact ⟨fun hi => (hset (absurd · hi) (fun _ => rfl) (fun _ => rfl)).trans (by rw [← ht₁, ← ht₂]; rfl),
    fun hi => (hset (fun _ => rfl) (absurd · hi) (fun _ => rfl)).trans (by rw [← ht₀, ← ht₂]; rfl),
    fun hi => (hset (fun _ => rfl) (fun _ => rfl) (absurd · hi)).trans (by rw [← ht₀, ← ht₁]; rfl)⟩

end Sys2Proof.Machine
end

section
/-!
The BitStream commands: what settles O15 to O23. A write command appends its bits or fails for want of
room, a read command takes bits from the cursor on, and RS_LOAD makes the write stream the read stream.
-/

namespace Sys2Proof.Machine

/-! ### How a write command ends -/

section
variable (s : State)

theorem State.raise_eq_failedWith (e : ErrCode) : s.raise e = s.failedWith e := s.raise_eq e

theorem State.finishWrite_error (e : ErrCode) : s.finishWrite (.error e) = .next (s.failedWith e) :=
  congrArg _ (s.raise_eq_failedWith e)

/-- Appending bits that fit (40_bitstream.md R130). -/
theorem State.finishWrite_wsPutAll_of_fits {bits : List Bool} (h : s.ws.length + bits.length ≤ s.params.wsCap) :
    s.finishWrite (wsPutAll s.params.wsCap s.ws bits) = .next (s.appended bits) := by
  rw [wsPutAll_ok.2 ⟨h, rfl⟩, State.finishWrite_append]

/-- Appending bits that do not fit (40_bitstream.md R131). -/
theorem State.finishWrite_wsPutAll_of_full {bits : List Bool} (h : s.params.wsCap < s.ws.length + bits.length) :
    s.finishWrite (wsPutAll s.params.wsCap s.ws bits) = .next (s.failedWith .capacityExceeded) := by
  rw [wsPutAll_error.2 ⟨h, rfl⟩, State.finishWrite_error]

/-- The number of bits that a register names is that register as RESULT1. -/
theorem State.appended_of_length {bits : List Bool} {n : Word} (h : bits.length = n.toNat) :
    s.appended bits =
      { s with ws := s.ws ++ bits, result0 := BitVec.ofNat 32 (s.ws.length + n.toNat), result1 := n,
               err := .noError, pending := none } := by
  simp only [State.appended, h, BitVec.ofNat_toNat, BitVec.setWidth_eq]

end

/-! ### The write commands -/

/-- Settles O15: `WS_CLEAR` is that next state by definition. -/
theorem wsClearEmptiesTheStream : Obligations.WsClearEmptiesTheStream := by
  unfold Obligations.WsClearEmptiesTheStream
  exact ⟨decode_encode .wsClear, fun _ => rfl⟩

/-- `WS_BIT` of a bit is `WsPut` of it (40_bitstream.md R132). -/
theorem exec_wsBit_of_bit {s : State} {b : Bool} (h : s.arg0 = if b then 1 else 0) :
    exec .wsBit s = s.finishWrite (wsPut s.params.wsCap s.ws b) := by
  cases b <;> simp [exec, execWsBit, h]

theorem exec_wsBit_of_not_bit {s : State} (h₀ : s.arg0 ≠ 0) (h₁ : s.arg0 ≠ 1) :
    exec .wsBit s = .next (s.failedWith .invalidBitValue) := by
  simp only [exec, execWsBit, if_neg h₀, if_neg h₁, State.raise_eq_failedWith]

/-- Settles O16: a bit goes to `WsPut`, which looks for a full stream; anything else is no bit. -/
theorem wsBitAppendsOneBit : Obligations.WsBitAppendsOneBit := by
  unfold Obligations.WsBitAppendsOneBit
  refine ⟨decode_encode .wsBit, fun s => ⟨fun b hb hroom => ?_, exec_wsBit_of_not_bit, fun hb hfull => ?_⟩⟩
  · rw [exec_wsBit_of_bit hb, wsPut, if_neg hroom.ne]
    exact s.finishWrite_append [b]
  · obtain ⟨b, hb⟩ : ∃ b : Bool, s.arg0 = if b then 1 else 0 := by
      obtain hb | hb := hb
      · exact ⟨false, hb⟩
      · exact ⟨true, hb⟩
    rw [exec_wsBit_of_bit hb, wsPut, if_pos hfull, State.finishWrite_error]

/-- Settles O17: after the check of `L`, the `n` bits of the sequence fit or they do not. -/
theorem wsBitsAppendsTheSequence : Obligations.WsBitsAppendsTheSequence := by
  unfold Obligations.WsBitsAppendsTheSequence
  refine ⟨decode_encode .wsBits, fun s => ⟨fun hlen hroom => ?_, fun hlen => ?_, fun hlen hfull => ?_⟩⟩
  · simp only [exec, execWsBits, if_neg hlen.not_gt, if_pos hroom, State.finishWrite_append,
      s.appended_of_length (seqBits_length s.arg0 s.arg2.toNat s.arg1.toNat)]
    rfl
  · simp only [exec, execWsBits, if_pos hlen, State.raise_eq_failedWith]
  · simp only [exec, execWsBits, if_neg hlen.not_gt, if_neg hfull.not_ge, State.raise_eq_failedWith]

/-- `WS_INT` appends the low `n` bits of ARG0 (40_bitstream.md R134). -/
theorem exec_wsInt (s : State) :
    exec .wsInt s = s.finishWrite (wsPutAll s.params.wsCap s.ws (intBits s.arg0.toNat s.arg1.toNat)) := by
  rw [← wsPutInt_eq]
  rfl

theorem exec_wsInt_of_fits {s : State} (h : s.ws.length + s.arg1.toNat ≤ s.params.wsCap) :
    exec .wsInt s = .next (s.appended (intBits s.arg0.toNat s.arg1.toNat)) := by
  rw [exec_wsInt, s.finishWrite_wsPutAll_of_fits (by rwa [intBits_length])]

/-- Settles O18: the bits of `intBits` are appended when they fit. -/
theorem wsIntAppendsTheLowBits : Obligations.WsIntAppendsTheLowBits := by
  unfold Obligations.WsIntAppendsTheLowBits
  refine ⟨decode_encode .wsInt, fun s => ⟨fun hroom => ?_, fun hfull => ?_⟩⟩
  · rw [exec_wsInt_of_fits hroom, s.appended_of_length (intBits_length ..), intBits_eq_map]
  · rw [exec_wsInt, s.finishWrite_wsPutAll_of_full (by rwa [intBits_length])]

/-! ### Loading the read stream -/

section
variable (s : State)

theorem exec_rsLoad_false : exec (.rsLoad false) s = loadStream s := rfl

theorem exec_rsLoad_true : exec (.rsLoad true) s = rewindStream s := rfl

/-- The state `RS_LOAD` leaves when it copies (40_bitstream.md R140). -/
def State.streamLoaded : State :=
  { s with rbuf := s.rbuf.storeRange 0 (toByteArray s.ws), rlen := BitVec.ofNat 32 ((s.ws.length + 7) / 8),
           rpos := 0, result0 := BitVec.ofNat 32 (8 * ((s.ws.length + 7) / 8)), result1 := 0,
           err := .noError, pending := none }

variable {s} in
theorem exec_rsLoad_of_fits (h : (s.ws.length + 7) / 8 ≤ s.params.rbufCap) :
    exec (.rsLoad false) s = .next s.streamLoaded := by
  simp only [exec_rsLoad_false, loadStream, toByteArray_length, if_neg h.not_gt]
  rfl

/-- The byte image goes to the start of RBUF; the bytes past it stay. -/
theorem State.rbufByte_streamLoaded (j : Nat) :
    s.streamLoaded.rbufByte j = if j < (s.ws.length + 7) / 8 then wsByte s.ws j else s.rbufByte j := by
  have hbyte := Memory.byteAt_storeRange s.rbuf s.resets .rbuf 0 j (toByteArray s.ws)
  simp only [toByteArray_length, Nat.zero_le, true_and, Nat.zero_add, Nat.sub_zero] at hbyte
  exact hbyte.trans (ite_congr rfl (fun hj => toByteArray_getD s.ws hj) fun _ => rfl)

variable {s} in
theorem State.streamLoaded_rlen (h : (s.ws.length + 7) / 8 < 2 ^ 32) :
    s.streamLoaded.rlen.toNat = (s.ws.length + 7) / 8 := Nat.mod_eq_of_lt h

/-- The loaded read stream goes on with all bits of the write stream (40_bitstream.md R140, R75). -/
theorem State.streamLoaded_holdsBits (h : (s.ws.length + 7) / 8 < 2 ^ 32) : s.streamLoaded.holdsBits s.ws := by
  have hrpos : s.streamLoaded.rpos.toNat = 0 := rfl
  simp only [State.holdsBits, State.streamLoaded_rlen h, hrpos, Nat.zero_add]
  refine ⟨by omega, fun k hk => ?_⟩
  rw [State.streamBit, State.rbufByte_streamLoaded, if_pos (by omega), wsByte_getLsbD _ _ (Nat.mod_lt _ (by decide)),
    Nat.div_add_mod]

end

/-- Settles O19: `State.rbufByte_streamLoaded` says what RBUF holds after the copy; a rewind moves the
cursor only. -/
theorem rsLoadCopiesOrRewinds : Obligations.RsLoadCopiesOrRewinds := by
  unfold Obligations.RsLoadCopiesOrRewinds
  refine ⟨decode_encode (.rsLoad false), decode_encode (.rsLoad true), ?_⟩
  rintro s nb rfl
  refine ⟨fun hfits => ⟨s.streamLoaded, exec_rsLoad_of_fits hfits, rfl, fun j hj i hi => ?_, fun j hj => ?_⟩,
    fun hlong => ?_, fun hfits => ?_, fun hlong => ?_⟩
  · rw [State.rbufByte_streamLoaded, if_pos hj, wsByte_getLsbD s.ws j hi]
  · rw [State.rbufByte_streamLoaded, if_neg hj.not_gt]
  · simp only [exec_rsLoad_false, loadStream, toByteArray_length, if_pos hlong, State.raise_eq_failedWith]
  · rw [exec_rsLoad_true, rewindStream, if_neg hfits.not_gt]
    rfl
  · rw [exec_rsLoad_true, rewindStream, if_pos hlong, State.raise_eq_failedWith]

/-! ### How a read command ends -/

/-- The reader has `8·RLEN − RPOS` bits left. -/
theorem State.reader_available (s : State) : s.reader.available = 8 * s.rlen.toNat - s.rpos.toNat := rfl

/-- The next `m` bits are the stream bits from the cursor on. -/
theorem State.reader_peek (s : State) (m : Nat) :
    s.reader.peek m = (List.range m).map fun k => s.streamBit (s.rpos.toNat + k) := rfl

/-- Bit `k` of the value that the next `m` bits spell. -/
theorem State.getLsbD_natOfBits_peek (s : State) (m : Nat) {k : Nat} (hk : k < 32) :
    (BitVec.ofNat 32 (natOfBits (s.reader.peek m))).getLsbD k =
      (decide (k < m) && s.streamBit (s.rpos.toNat + k)) := by
  rw [BitVec.getLsbD_ofNat, natOfBits_testBit, decide_eq_true hk, Bool.true_and, State.reader_peek]
  by_cases hm : k < m
  · simp [hm]
  · simp [hm]

section
variable {s : State} {body : Reader → Except ErrCode (Nat × Reader)}

/-- A read command runs its body on the stream it finds. -/
theorem State.readCommand_congr {body' : Reader → Except ErrCode (Nat × Reader)}
    (h : body s.reader = body' s.reader) : s.readCommand body = s.readCommand body' := by
  rw [State.readCommand, h, ← State.readCommand]

/-- RLEN above RBUF_CAP stops a read command before it reads (40_bitstream.md R139). -/
theorem State.readCommand_of_long (h : s.params.rbufCap < s.rlen.toNat) :
    s.readCommand body = .next (s.failedWith .capacityExceeded) := by
  rw [State.readCommand, if_pos h, State.raise_eq_failedWith]

variable (hcap : s.rlen.toNat ≤ s.params.rbufCap)
include hcap

theorem State.readCommand_error {e : ErrCode} (hb : body s.reader = .error e) :
    s.readCommand body = .next (s.failedWith e) := by
  rw [State.readCommand, if_neg hcap.not_gt, hb, ← State.raise_eq_failedWith]
  rfl

/-- A read command that takes `n` bits moves the cursor by `n` and says so in RESULT1. -/
theorem State.readCommand_skip {v n : Nat} (hb : body s.reader = .ok (v, s.reader.skip n)) :
    s.readCommand body =
      .next { s with rpos := s.rpos + BitVec.ofNat 32 n, result0 := BitVec.ofNat 32 v,
                     result1 := BitVec.ofNat 32 n, err := .noError, pending := none } := by
  have hrpos : BitVec.ofNat 32 (s.reader.pos + n) = s.rpos + BitVec.ofNat 32 n := by
    rw [BitVec.ofNat_add, State.reader, BitVec.ofNat_toNat, BitVec.setWidth_eq]
  have hmoved : s.reader.pos + n - s.rpos.toNat = n := Nat.add_sub_cancel_left ..
  rw [State.readCommand, if_neg hcap.not_gt, hb]
  simp only [State.finishRead, State.succeed, hrpos, hmoved]

theorem State.readCommand_getInt {n : Nat} (hn : n ≤ s.reader.available) :
    s.readCommand (Reader.getInt n) =
      .next { s with rpos := s.rpos + BitVec.ofNat 32 n,
                     result0 := BitVec.ofNat 32 (natOfBits (s.reader.peek n)),
                     result1 := BitVec.ofNat 32 n, err := .noError, pending := none } :=
  State.readCommand_skip hcap ((Reader.getInt_eq n s.reader).trans (if_pos hn))

theorem State.readCommand_getInt_short {n : Nat} (hn : s.reader.available < n) :
    s.readCommand (Reader.getInt n) = .next (s.failedWith .streamExhausted) :=
  State.readCommand_error hcap ((Reader.getInt_eq n s.reader).trans (if_neg hn.not_ge))

end

/-! ### The read commands -/

section
variable (s : State)

/-- `RS_BIT` reads an integer of one bit. -/
theorem exec_rsBit : exec .rsBit s = s.readCommand (Reader.getInt 1) := by
  unfold exec execRsBit
  refine State.readCommand_congr ?_
  dsimp only
  rw [Reader.getInt_eq]
  by_cases hleft : s.reader.pos < 8 * s.reader.len
  · rw [Reader.get_ok.2 ⟨hleft, rfl, rfl⟩, if_pos (by simp only [Reader.available]; omega), Reader.peek_succ]
    rfl
  · rw [Reader.get_error.2 ⟨Nat.le_of_not_lt hleft, rfl⟩, if_neg (by simp only [Reader.available]; omega)]
    rfl

variable {s}

/-- `RS_BITS` reads as many bits as there are, up to `n` (40_bitstream.md R143). -/
theorem exec_rsBits_of_le (hn : s.arg1.toNat ≤ 32) :
    exec .rsBits s = s.readCommand (Reader.getInt (min s.arg1.toNat s.reader.available)) := by
  unfold exec execRsBits
  refine State.readCommand_congr ?_
  dsimp only
  rw [if_neg hn.not_gt, Reader.getBits_eq, Reader.getInt_eq, if_pos (Nat.min_le_right ..),
    if_pos (Nat.min_le_right ..)]
  rfl

theorem exec_rsBits_of_lt (hn : 32 < s.arg1.toNat) :
    exec .rsBits s = s.readCommand fun _ => .error .domainError := by
  unfold exec execRsBits
  exact State.readCommand_congr (if_pos hn)

/-- `RS_INT` reads exactly `n` bits (40_bitstream.md R145). -/
theorem exec_rsInt_of_le (hn : s.arg1.toNat ≤ 32) :
    exec .rsInt s = s.readCommand (Reader.getInt s.arg1.toNat) := by
  unfold exec execRsInt
  exact State.readCommand_congr (if_neg hn.not_gt)

theorem exec_rsInt_of_lt (hn : 32 < s.arg1.toNat) :
    exec .rsInt s = s.readCommand fun _ => .error .domainError := by
  unfold exec execRsInt
  exact State.readCommand_congr (if_pos hn)

end

/-- Settles O20: the number that one bit spells is that bit. -/
theorem rsBitReadsOneBit : Obligations.RsBitReadsOneBit := by
  unfold Obligations.RsBitReadsOneBit
  refine ⟨decode_encode .rsBit, fun s => ?_⟩
  rw [exec_rsBit]
  refine ⟨fun hcap hleft => ?_, fun hcap hend => State.readCommand_getInt_short hcap ?_, State.readCommand_of_long⟩
  · rw [State.readCommand_getInt hcap (by rw [State.reader_available]; omega)]
    have hbit : s.reader.peek 1 = [s.streamBit s.rpos.toNat] := rfl
    rw [hbit]
    cases s.streamBit s.rpos.toNat <;> rfl
  · rw [State.reader_available]; omega

/-- Settles O21: the clamped number of bits is always there to be read. -/
theorem rsBitsClamps : Obligations.RsBitsClamps := by
  unfold Obligations.RsBitsClamps
  refine ⟨decode_encode .rsBits, fun s hcap => ⟨?_, fun hn => ?_⟩⟩
  · rintro m hn rfl
    exact ⟨_, (exec_rsBits_of_le hn).trans (State.readCommand_getInt hcap (Nat.min_le_right ..)), rfl,
      fun k hk => s.getLsbD_natOfBits_peek _ hk⟩
  · rw [exec_rsBits_of_lt hn, State.readCommand_error hcap rfl]

/-- Settles O22: `RsGetInt` takes the `n` bits, or fails when they are not there. -/
theorem rsIntReadsAnInteger : Obligations.RsIntReadsAnInteger := by
  unfold Obligations.RsIntReadsAnInteger
  refine ⟨decode_encode .rsInt, fun s hcap => ⟨fun hn hleft => ?_, fun hn => ?_, fun hn hend => ?_⟩⟩
  · have hread := State.readCommand_getInt hcap (n := s.arg1.toNat) hleft
    rw [BitVec.ofNat_toNat, BitVec.setWidth_eq] at hread
    exact ⟨_, (exec_rsInt_of_le hn).trans hread, rfl, fun k hk => s.getLsbD_natOfBits_peek _ hk⟩
  · rw [exec_rsInt_of_lt hn, State.readCommand_error hcap rfl]
  · rw [exec_rsInt_of_le hn, State.readCommand_getInt_short hcap hend]

/-! ### What was written is read back -/

theorem after_of_exec {i : Instr} {s t : State} (h : exec i s = .next t) : after i s = t := by
  simp only [after, h]

/-- The state after `WS_CLEAR`, `WS_INT` and `RS_LOAD`, when the field fits both streams: the write stream
is the field alone, and the read stream its image. -/
theorem after_wsClear_wsInt_rsLoad {s : State} (hws : s.arg1.toNat ≤ s.params.wsCap)
    (hrbuf : (s.arg1.toNat + 7) / 8 ≤ s.params.rbufCap) :
    after (.rsLoad false) (after .wsInt (after .wsClear s)) =
      ((after .wsClear s).appended (intBits s.arg0.toNat s.arg1.toNat)).streamLoaded := by
  have hwrite : exec .wsInt (after .wsClear s) =
      .next ((after .wsClear s).appended (intBits s.arg0.toNat s.arg1.toNat)) :=
    exec_wsInt_of_fits (s := after .wsClear s) ((Nat.zero_add _).trans_le hws)
  rw [after_of_exec hwrite]
  refine after_of_exec (exec_rsLoad_of_fits ?_)
  rwa [← intBits_length s.arg0.toNat s.arg1.toNat] at hrbuf

/-- `RS_INT` of a freshly loaded stream, as wide as the stream, reads the number the whole stream spells. -/
theorem exec_rsInt_streamLoaded {s : State} (hlen : s.ws.length = s.arg1.toNat) (hn : s.arg1.toNat ≤ 32)
    (hrbuf : (s.arg1.toNat + 7) / 8 ≤ s.params.rbufCap) :
    exec .rsInt s.streamLoaded =
      .next { s.streamLoaded with rpos := s.streamLoaded.rpos + BitVec.ofNat 32 s.arg1.toNat,
                                  result0 := BitVec.ofNat 32 (natOfBits s.ws),
                                  result1 := BitVec.ofNat 32 s.arg1.toNat, err := .noError, pending := none } := by
  have hsmall : (s.ws.length + 7) / 8 < 2 ^ 32 := by omega
  have hcap : s.streamLoaded.rlen.toNat ≤ s.params.rbufCap := by rwa [State.streamLoaded_rlen hsmall, hlen]
  have hget := (State.reader_holds (s.streamLoaded_holdsBits hsmall)).getInt
  rw [hlen] at hget
  exact (exec_rsInt_of_le (s := s.streamLoaded) hn).trans (State.readCommand_skip hcap hget)

/-- Settles O23: `RS_INT` reads the number of the field that `WS_INT` wrote, which is below `2^32` as ARG0
is. -/
theorem streamReturnsWhatWasWritten : Obligations.StreamReturnsWhatWasWritten := by
  unfold Obligations.StreamReturnsWhatWasWritten
  intro s hk hws hrbuf
  have hfits : (s.arg1.toNat + 7) / 8 ≤ s.params.rbufCap := by omega
  have hnum : natOfBits (intBits s.arg0.toNat s.arg1.toNat) < 2 ^ 32 := by
    rw [natOfBits_intBits]
    exact (Nat.mod_le ..).trans_lt s.arg0.isLt
  rw [after_wsClear_wsInt_rsLoad hws hfits]
  refine ⟨_, exec_rsInt_streamLoaded (intBits_length ..) hk hfits, rfl, ?_⟩
  exact (Nat.mod_eq_of_lt hnum).trans (natOfBits_intBits ..)

end Sys2Proof.Machine
end

section
/-!
The monotonous coder: what settles O24 to O26. MONO_ENC appends the code that the statements write out, and
MONO_DEC reads a prefix of ones below its limit of 32, then a mantissa as wide as the prefix is long.
-/

namespace Sys2Proof.Machine

/-! ### MONO_ENC -/

section
variable {s : State}

theorem exec_monoEnc_of_eq_zero (h : s.arg0 = 0) : exec .monoEnc s = .next (s.failedWith .domainError) := by
  simp only [exec, execMonoEnc, if_pos h, State.raise_eq_failedWith]

/-- `MONO_ENC` of `i ≥ 1` appends the code of `i` (41_monotonous.md R160, R161). -/
theorem exec_monoEnc_of_ne_zero (h : s.arg0 ≠ 0) :
    exec .monoEnc s = s.finishWrite (wsPutAll s.params.wsCap s.ws (monoCode s.arg0.toNat)) := by
  simp only [exec, execMonoEnc, if_neg h, monoCode_eq_monoBits (BitVec.toNat_pos_of_ne_zero h).ne']

theorem exec_monoEnc_of_fits (h : s.arg0 ≠ 0)
    (hroom : s.ws.length + (2 * Nat.log2 s.arg0.toNat + 1) ≤ s.params.wsCap) :
    exec .monoEnc s = .next (s.appended (monoCode s.arg0.toNat)) := by
  rw [exec_monoEnc_of_ne_zero h, s.finishWrite_wsPutAll_of_fits (by rwa [monoCode_length])]

end

/-- Settles O24: the code of a positive integer fits or it does not, and 0 is turned away before that. -/
theorem monoEncAppendsTheCode : Obligations.MonoEncAppendsTheCode := by
  unfold Obligations.MonoEncAppendsTheCode
  refine ⟨decode_encode .monoEnc, ?_⟩
  rintro s _ rfl
  refine ⟨fun hi hroom => ?_, exec_monoEnc_of_eq_zero, fun hi hfull => ?_⟩
  · rw [exec_monoEnc_of_fits hi hroom, State.appended, monoCode_length, monoCode, List.append_cons, fieldBits]
  · rw [exec_monoEnc_of_ne_zero hi, s.finishWrite_wsPutAll_of_full (by rwa [monoCode_length])]

/-! ### Reading a code whose prefix has a limit -/

section
variable {r : Reader}

/-- As many ones as the limit allows are the error of the limit (41_monotonous.md R163). -/
theorem Reader.Holds.countOnes_limit {limit : Nat} (e : ErrCode) (h : r.Holds (List.replicate limit true)) :
    Machine.countOnes e limit r = .error e := by
  induction limit generalizing r with
  | zero => rfl
  | succ limit ih =>
    obtain ⟨hone, hrest⟩ := Reader.holds_append (as := [true]).1 h
    simp only [Machine.countOnes, hone.get, bind, Except.bind, if_true, ih (r := r.skip 1) hrest]

variable {k : Nat} (hk : k < 32)
include hk

/-- `k < 32` ones, a zero and a mantissa of `k` bits (41_monotonous.md R162, R163). -/
theorem Reader.Holds.unmono32 {bs : List Bool} (hbs : bs.length = k)
    (h : r.Holds (List.replicate k true ++ [false] ++ bs)) :
    Machine.unmono32 r = .ok (2 ^ k + natOfBits bs, r.skip (2 * k + 1)) := by
  obtain ⟨hprefix, hmantissa⟩ := Reader.holds_append.1 h
  rw [List.length_append, List.length_replicate, List.length_singleton] at hmantissa
  have hint := hmantissa.getInt
  rw [hbs, Reader.skip_skip, show k + 1 + k = 2 * k + 1 by omega] at hint
  simp only [Machine.unmono32, hprefix.countOnes _ hk, bind, Except.bind, hint]

/-- A code that is cut short before its prefix reaches the limit. -/
theorem Reader.unmono32_short
    (h : r.EndsWithin (List.replicate k true) 1 ∨ r.EndsWithin (List.replicate k true ++ [false]) k) :
    Machine.unmono32 r = .error .streamExhausted := by
  obtain hprefix | hmantissa := h
  · simp only [Machine.unmono32, hprefix.countOnes _ hk, bind, Except.bind]
  · obtain ⟨hones, hend⟩ := Reader.EndsWithin.append (bs := []) (by rwa [List.append_nil])
    rw [List.length_append, List.length_replicate, List.length_singleton] at hend
    simp only [Machine.unmono32, hones.countOnes _ hk, bind, Except.bind, hend.getInt]

end

/-- A prefix of 32 ones. -/
theorem Reader.Holds.unmono32_limit {r : Reader} (h : r.Holds (List.replicate 32 true)) :
    Machine.unmono32 r = .error .domainError := by
  simp only [Machine.unmono32, h.countOnes_limit, bind, Except.bind]

/-- The leading one of `i` and the bits below it make up `i`. -/
theorem two_pow_log2_add_natOfBits {i : Nat} (hi : i ≠ 0) :
    2 ^ Nat.log2 i + natOfBits (fieldBits i (Nat.log2 i)) = i := by
  have hlo : 2 ^ Nat.log2 i ≤ i := Nat.log2_self_le hi
  have hhi : i < 2 ^ (Nat.log2 i + 1) := Nat.lt_log2_self
  rw [Nat.pow_succ] at hhi
  rw [fieldBits_eq_intBits, natOfBits_intBits, Nat.mod_eq_sub_mod hlo, Nat.mod_eq_of_lt (by omega),
    Nat.add_sub_cancel' hlo]

/-- The code of `i` reads as `i`, when its prefix is below the limit (41_monotonous.md R164). -/
theorem Reader.Holds.unmono32_monoCode {r : Reader} {i : Nat} (hi : i ≠ 0) (hk : Nat.log2 i < 32)
    (h : r.Holds (monoCode i)) : Machine.unmono32 r = .ok (i, r.skip (2 * Nat.log2 i + 1)) := by
  rw [monoCode, List.append_cons] at h
  rw [h.unmono32 hk (fieldBits_length ..), two_pow_log2_add_natOfBits hi]

/-! ### MONO_DEC -/

theorem exec_monoDec (s : State) : exec .monoDec s = s.readCommand unmono32 := rfl

/-- Settles O25: each clause is what `unmono32` answers for such a stream, as the end of a read command. -/
theorem monoDecReadsTheCode : Obligations.MonoDecReadsTheCode := by
  unfold Obligations.MonoDecReadsTheCode
  refine ⟨decode_encode .monoDec, fun s hcap => ?_⟩
  rw [exec_monoDec]
  refine ⟨fun k bs hk hbs hcode => ?_, fun hones => ?_, fun k hk hones hend => ?_, fun k hk hprefix hend => ?_⟩
  · exact State.readCommand_skip hcap ((State.reader_holds hcode).unmono32 hk hbs)
  · exact State.readCommand_error hcap (State.reader_holds hones).unmono32_limit
  · have hcut : s.endsWithin (List.replicate k true) 1 := ⟨hones, by rw [List.length_replicate]; omega⟩
    exact State.readCommand_error hcap (Reader.unmono32_short hk (.inl (State.reader_endsWithin hcut)))
  · have hcut : s.endsWithin (List.replicate k true ++ [false]) k :=
      ⟨hprefix, by rw [List.length_append, List.length_replicate, List.length_singleton]; omega⟩
    exact State.readCommand_error hcap (Reader.unmono32_short hk (.inr (State.reader_endsWithin hcut)))

/-! ### The code written is read back -/

/-- The prefix of the code of a register's value is below the limit. -/
theorem log2_toNat_lt {i : Word} (hi : i ≠ 0) : Nat.log2 i.toNat < 32 :=
  (Nat.log2_lt (BitVec.toNat_pos_of_ne_zero hi).ne').2 i.isLt

/-- `MONO_DEC` of a freshly loaded stream that is the code of a 32-bit `i ≥ 1` (41_monotonous.md R164). -/
theorem exec_monoDec_streamLoaded {s : State} {i : Word} (hi : i ≠ 0) (hws : s.ws = monoCode i.toNat)
    (hrbuf : (s.ws.length + 7) / 8 ≤ s.params.rbufCap) :
    exec .monoDec s.streamLoaded =
      .next { s.streamLoaded with
        rpos := s.streamLoaded.rpos + BitVec.ofNat 32 (2 * Nat.log2 i.toNat + 1), result0 := i,
        result1 := BitVec.ofNat 32 (2 * Nat.log2 i.toNat + 1), err := .noError, pending := none } := by
  have hk := log2_toNat_lt hi
  have hlen : s.ws.length = 2 * Nat.log2 i.toNat + 1 := by rw [hws, monoCode_length]
  have hsmall : (s.ws.length + 7) / 8 < 2 ^ 32 := by omega
  have hcap : s.streamLoaded.rlen.toNat ≤ s.params.rbufCap := by rwa [State.streamLoaded_rlen hsmall]
  have hcode : s.streamLoaded.holdsBits (monoCode i.toNat) := hws ▸ s.streamLoaded_holdsBits hsmall
  have hval := (State.reader_holds hcode).unmono32_monoCode (BitVec.toNat_pos_of_ne_zero hi).ne' hk
  have hread := State.readCommand_skip hcap hval
  rwa [BitVec.ofNat_toNat, BitVec.setWidth_eq] at hread

/-- After WS_CLEAR there is room for the code of every 32-bit `i ≥ 1`, which is at most 63 bits long. -/
theorem after_wsClear_monoEnc {s : State} (hi : s.arg0 ≠ 0) (hws : 63 ≤ s.params.wsCap) :
    after .monoEnc (after .wsClear s) = (after .wsClear s).appended (monoCode s.arg0.toNat) := by
  have hk := log2_toNat_lt hi
  have hroom : 0 + (2 * Nat.log2 s.arg0.toNat + 1) ≤ s.params.wsCap := by omega
  exact after_of_exec (exec_monoEnc_of_fits (s := after .wsClear s) hi hroom)

/-- Settles O26: the stream that MONO_ENC leaves after WS_CLEAR is the code alone, which RBUF has room for. -/
theorem monoRoundTrip : Obligations.MonoRoundTrip := by
  unfold Obligations.MonoRoundTrip
  intro s hi hws hrbuf
  have hk := log2_toNat_lt hi
  rw [after_wsClear_monoEnc hi hws]
  have hlen : ((after .wsClear s).appended (monoCode s.arg0.toNat)).ws.length = 2 * Nat.log2 s.arg0.toNat + 1 :=
    monoCode_length _
  have hfits : (((after .wsClear s).appended (monoCode s.arg0.toNat)).ws.length + 7) / 8 ≤ s.params.rbufCap := by
    omega
  rw [after_of_exec (exec_rsLoad_of_fits hfits)]
  refine ⟨hlen, _, exec_monoDec_streamLoaded hi rfl hfits, rfl, rfl, ?_⟩
  exact Nat.mod_eq_of_lt (by omega)

end Sys2Proof.Machine
end

section
/-!
The decode commands that accept their stream: what settles O37.
-/

namespace Sys2Proof.Machine

section
variable {s : State} {n : Nat} {out : List Byte} {r : Reader}

/-- A decode command whose decoder accepts the stream (42_huffman.md R182, 43_lzss.md R208, 44_lzw.md R240). -/
theorem State.decodeCommand_ok {body : Nat → Reader → Except ErrCode (List Byte × Reader)}
    (hr : s.rlen.toNat ≤ s.params.rbufCap) (hn : s.arg0.toNat ≤ s.params.obufCap)
    (hb : body s.arg0.toNat s.reader = .ok (out, r)) :
    s.decodeCommand body = .next (s.deliver s.arg0.toNat out r) := by
  simp only [State.decodeCommand, if_neg hn.not_gt, if_neg hr.not_gt, hb]

theorem exec_hufDec (s : State) : exec .hufDec s = s.decodeCommand huffDecode := rfl

theorem exec_lzssDec (s : State) : exec .lzssDec s = s.decodeCommand (lzssDecode s.arg1.toNat) := rfl

theorem exec_lzwDec (esc : Bool) (s : State) :
    exec (.lzwDec esc) s = s.decodeCommand (lzwDecode esc s.alphabet) := rfl

/-- A `BWT_DEC` that accepts the stream (45_bwt.md R268). -/
theorem exec_bwtDec_of_ok {lens : List Nat} {r' : Reader} (hr : s.rlen.toNat ≤ s.params.rbufCap)
    (hruns : readRuns s.params.obufCap s.reader = .ok (lens, r'))
    (hmsg : readMessage s.arg1.toNat lens.sum lens r' = .ok (out, r)) :
    exec .bwtDec s = .next (s.deliver lens.sum out r) := by
  simp only [exec, execBwtDec, if_neg hr.not_gt, hruns, hmsg]

end

/-- Settles O37: each decoder that accepts its stream ends in `State.deliver`, whose effect on OBUF is
`State.obufByte_deliver`. -/
theorem decodersDeliverTheirOutput : Obligations.DecodersDeliverTheirOutput := by
  unfold Obligations.DecodersDeliverTheirOutput
  intro i s n out r hr hn hout hdec
  have hexec : exec i s = .next (s.deliver n out r) := by
    obtain ⟨rfl, ⟨rfl, h⟩ | ⟨rfl, h⟩ | ⟨esc, rfl, h⟩⟩ | ⟨rfl, lens, r', hruns, rfl, hmsg⟩ := hdec
    · exact (exec_hufDec s).trans (State.decodeCommand_ok hr hn h)
    · exact (exec_lzssDec s).trans (State.decodeCommand_ok hr hn h)
    · exact (exec_lzwDec esc s).trans (State.decodeCommand_ok hr hn h)
    · exact exec_bwtDec_of_ok hr hruns hmsg
  exact ⟨_, hexec, fun a => by rw [State.obufByte_deliver, hout], rfl⟩

end Sys2Proof.Machine
end

section
/-!
The encoders that compute all their bits first, and the order in which BWT_ENC sorts the rotations: what
settles O29.
-/

namespace Sys2Proof.Machine

/-! ### The encoders -/

section
variable {s : State}

/-- `HUF_ENC`, `LZSS_ENC` and `BWT_ENC` on an input longer than IBUF (42_huffman.md R180, 43_lzss.md R207,
45_bwt.md R265). -/
theorem exec_encoder_of_long {i : Instr} (hi : i = .hufEnc ∨ i = .lzssEnc ∨ i = .bwtEnc)
    (h : s.params.ibufCap < s.ilen.toNat) : exec i s = .next (s.failedWith .capacityExceeded) := by
  rw [← State.raise_eq_failedWith]
  obtain rfl | rfl | rfl := hi <;> exact if_pos h

variable (hcap : s.ilen.toNat ≤ s.params.ibufCap)
include hcap

theorem exec_hufEnc (h : s.ilen ≠ 0) :
    exec .hufEnc s = s.finishWrite (wsPutAll s.params.wsCap s.ws (huffBits s.inputBytes)) := by
  simp only [exec, execHufEnc, if_neg hcap.not_gt, if_neg h]

theorem exec_lzssEnc :
    exec .lzssEnc s =
      s.finishWrite (wsPutAll s.params.wsCap s.ws (lzssBits s.params.pick s.arg1.toNat s.inputBytes)) := by
  simp only [exec, execLzssEnc, if_neg hcap.not_gt]

theorem exec_bwtEnc (h : s.ilen ≠ 0) :
    exec .bwtEnc s =
      s.finishWrite (wsPutAll s.params.wsCap s.ws (bwtBits s.params.pick s.arg1.toNat s.inputBytes)) := by
  simp only [exec, execBwtEnc, if_neg hcap.not_gt, if_neg h]

/-- `HUF_ENC` and `BWT_ENC` on an empty input. -/
theorem exec_encoder_of_empty {i : Instr} (hi : i = .hufEnc ∨ i = .bwtEnc) (h : s.ilen = 0) :
    exec i s = .next (s.failedWith .domainError) := by
  rw [← State.raise_eq_failedWith]
  obtain rfl | rfl := hi <;> exact (if_neg hcap.not_gt).trans (if_pos h)

end

/-! ### The order of the rotations -/

/-- The model's byte strings are compared as lists (45_bwt.md R261). -/
theorem bytesBefore_iff_lt (as bs : List Byte) : bytesBefore as bs = true ↔ as < bs := by
  induction as generalizing bs with
  | nil =>
    cases bs with
    | nil => simp [bytesBefore]
    | cons b bs => simp [bytesBefore]
  | cons a as ih =>
    cases bs with
    | nil => simp [bytesBefore]
    | cons b bs => simp [bytesBefore, ih, List.cons_lt_cons_iff, BitVec.lt_def]

/-- The order of R261's key `(rot_i, i)`, as a statement writes it. -/
abbrev keyBefore (data : List Byte) (i j : Nat) : Prop :=
  rotation data i < rotation data j ∨ (rotation data i = rotation data j ∧ i < j)

theorem rotationBefore_iff (data : List Byte) (i j : Nat) :
    rotationBefore data i j = true ↔ keyBefore data i j := by
  simp [rotationBefore, bytesBefore_iff_lt]

theorem keyBefore_trans {data : List Byte} {i j k : Nat} (hij : keyBefore data i j)
    (hjk : keyBefore data j k) : keyBefore data i k := by
  obtain hij | ⟨eij, hij⟩ := hij
  · obtain hjk | ⟨ejk, -⟩ := hjk
    · exact .inl (List.lt_trans hij hjk)
    · exact .inl (ejk ▸ hij)
  · obtain hjk | ⟨ejk, hjk⟩ := hjk
    · exact .inl (eij ▸ hjk)
    · exact .inr ⟨eij.trans ejk, hij.trans hjk⟩

theorem keyBefore_of_not {data : List Byte} {i j : Nat} (hne : i ≠ j) (h : ¬ keyBefore data i j) :
    keyBefore data j i := by
  obtain ⟨hlt, heq⟩ := not_or.1 h
  obtain hij | hij | hij := Std.lt_trichotomy (rotation data i) (rotation data j)
  · exact absurd hij hlt
  · exact .inr ⟨hij.symm, hne.lt_or_gt.resolve_left fun h => heq ⟨hij, h⟩⟩
  · exact .inl hij

theorem insertRotation_perm (data : List Byte) (i : Nat) (js : List Nat) :
    (insertRotation data i js).Perm (i :: js) := by
  induction js with
  | nil => exact .refl _
  | cons j js ih =>
    unfold insertRotation
    split
    · exact .refl _
    · exact (ih.cons j).trans (.swap i j js)

theorem insertRotation_pairwise {data : List Byte} {i : Nat} {js : List Nat} (hi : i ∉ js)
    (h : js.Pairwise (keyBefore data)) : (insertRotation data i js).Pairwise (keyBefore data) := by
  induction js with
  | nil => simp [insertRotation]
  | cons j js ih =>
    obtain ⟨hij, hi⟩ := not_or.1 (List.mem_cons.not.1 hi)
    obtain ⟨hj, hjs⟩ := List.pairwise_cons.1 h
    unfold insertRotation
    split
    case isTrue hb =>
      rw [rotationBefore_iff] at hb
      exact List.pairwise_cons.2 ⟨List.forall_mem_cons.2 ⟨hb, fun k hk => keyBefore_trans hb (hj k hk)⟩, h⟩
    case isFalse hb =>
      rw [rotationBefore_iff] at hb
      refine List.pairwise_cons.2 ⟨fun k hk => ?_, ih hi hjs⟩
      obtain rfl | hk := List.mem_cons.1 ((insertRotation_perm data i js).mem_iff.1 hk)
      · exact keyBefore_of_not hij hb
      · exact hj k hk

/-- The model's `σ` is the sequence of 45_bwt.md R261. -/
theorem sortsRotations_sortedRotations (data : List Byte) : sortsRotations data (sortedRotations data) := by
  have hsort (is : List Nat) (his : is.Nodup) :
      (is.foldr (insertRotation data) []).Perm is ∧
        (is.foldr (insertRotation data) []).Pairwise (keyBefore data) := by
    induction is with
    | nil => exact ⟨.refl _, .nil⟩
    | cons i is ih =>
      obtain ⟨hi, his⟩ := List.nodup_cons.1 his
      obtain ⟨hperm, hpair⟩ := ih his
      exact ⟨(insertRotation_perm data i _).trans (hperm.cons i),
        insertRotation_pairwise (fun h => hi (hperm.mem_iff.1 h)) hpair⟩
  exact hsort _ List.nodup_range

/-- The rank is the place of `rot_0` in sorted order (45_bwt.md R262). -/
theorem sortedRotations_getD_bwtRank {data : List Byte} (h : data ≠ []) (d : Nat) :
    (sortedRotations data).getD (bwtRank data) d = 0 := by
  have hmem : 0 ∈ sortedRotations data :=
    (sortsRotations_sortedRotations data).1.mem_iff.2 (List.mem_range.2 (List.length_pos_of_ne_nil h))
  have hlt : bwtRank data < (sortedRotations data).length := List.idxOf_lt_length_of_mem hmem
  rw [List.getD_eq_getElem _ _ hlt]
  exact List.getElem_idxOf hlt

/-! ### The runs -/

theorem addToRuns_ne_nil (runs : List (Byte × Nat)) (c : Byte) : addToRuns runs c ≠ [] := by
  unfold addToRuns
  split
  · split <;> exact List.cons_ne_nil _ _
  · exact List.cons_ne_nil _ _

/-- A run starts with one symbol and only grows (45_bwt.md R263). -/
theorem ne_zero_of_mem_addToRuns {runs : List (Byte × Nat)} (h : ∀ x ∈ runs, x.2 ≠ 0) (c : Byte) :
    ∀ x ∈ addToRuns runs c, x.2 ≠ 0 := by
  unfold addToRuns
  split
  · split
    · exact List.forall_mem_cons.2 ⟨Nat.succ_ne_zero _, (List.forall_mem_cons.1 h).2⟩
    · exact List.forall_mem_cons.2 ⟨Nat.one_ne_zero, h⟩
  · exact List.forall_mem_cons.2 ⟨Nat.one_ne_zero, h⟩

theorem ne_zero_of_mem_bwtRuns {l : List Byte} : ∀ x ∈ bwtRuns l, x.2 ≠ 0 := by
  have hfold (runs : List (Byte × Nat)) (hruns : ∀ x ∈ runs, x.2 ≠ 0) :
      ∀ x ∈ l.foldl addToRuns runs, x.2 ≠ 0 := by
    induction l generalizing runs with
    | nil => exact hruns
    | cons c l ih => exact ih _ (ne_zero_of_mem_addToRuns hruns c)
  exact fun x hx => hfold [] nofun x (List.mem_reverse.1 hx)

theorem bwtRuns_ne_nil {l : List Byte} (h : l ≠ []) : bwtRuns l ≠ [] := by
  have hfold (l : List Byte) (runs : List (Byte × Nat)) (hruns : runs ≠ []) : l.foldl addToRuns runs ≠ [] := by
    induction l generalizing runs with
    | nil => exact hruns
    | cons c l ih => exact ih _ (addToRuns_ne_nil runs c)
  cases l with
  | nil => exact absurd rfl h
  | cons c l => exact fun hnil => hfold l _ (addToRuns_ne_nil [] c) (List.reverse_eq_nil_iff.1 hnil)

/-! ### What BWT_ENC writes -/

/-- The fields of `BWT_ENC`'s output, with its numbers as the monotonous codes and raw fields of the statements
(45_bwt.md R264). -/
theorem bwtBits_eq (pick : PickRule) (m : Nat) {data : List Byte} (h : data ≠ []) :
    bwtBits pick m data =
      monoCode (bwtRuns (bwtColumn data)).length ++ (bwtRuns (bwtColumn data)).flatMap (fun x => monoCode x.2) ++
        fieldBits (bwtRank data) (bitsFor data.length) ++
        lzssBits pick m ((bwtRuns (bwtColumn data)).map Prod.fst) := by
  have hcolumn : bwtColumn data ≠ [] := by
    rwa [← List.length_pos_iff, bwtColumn_length, List.length_pos_iff]
  have hcount : (bwtRuns (bwtColumn data)).length ≠ 0 := by
    rw [Ne, List.length_eq_zero_iff]
    exact bwtRuns_ne_nil hcolumn
  rw [bwtBits, monoCode_eq_monoBits hcount, fieldBits_eq_intBits,
    List.flatMap_congr fun x hx => monoCode_eq_monoBits (ne_zero_of_mem_bwtRuns x hx)]

@[simp] theorem State.inputBytes_length (s : State) : s.inputBytes.length = s.ilen.toNat := by
  simp [State.inputBytes]

theorem State.inputBytes_getD (s : State) {k : Nat} (h : k < s.ilen.toNat) (d : Byte) :
    s.inputBytes.getD k d = s.ibufByte k := by
  simp [State.inputBytes, h]

theorem State.inputBytes_ne_nil {s : State} (h : s.ilen ≠ 0) : s.inputBytes ≠ [] := by
  rw [← List.length_pos_iff, State.inputBytes_length]
  exact BitVec.toNat_pos_of_ne_zero h

/-- The last symbols of the sorted rotations, by their places in IBUF (45_bwt.md R262). -/
theorem State.bwtColumn_inputBytes {s : State} (h : s.ilen.toNat ≠ 0) :
    bwtColumn s.inputBytes =
      (sortedRotations s.inputBytes).map fun k => s.ibufByte ((k + s.ilen.toNat - 1) % s.ilen.toNat) := by
  unfold bwtColumn
  refine List.map_congr_left fun k _ => ?_
  rw [State.inputBytes_length, State.inputBytes_getD s (Nat.mod_lt _ (Nat.pos_of_ne_zero h))]

/-- Settles O29: the checks of each encoder, then `wsPutAll`; and `bwtBits_eq` with the model's own `σ`. -/
theorem encodersAppendTheirOutput : Obligations.EncodersAppendTheirOutput := by
  unfold Obligations.EncodersAppendTheirOutput
  intro i s bits hi
  have hput (hcap : s.ilen.toNat ≤ s.params.ibufCap) (hlen : s.ilen ≠ 0 ∨ i = .lzssEnc) :
      exec i s = s.finishWrite (wsPutAll s.params.wsCap s.ws bits) := by
    obtain ⟨rfl, rfl⟩ | ⟨rfl, rfl⟩ | ⟨rfl, rfl⟩ := hi
    · exact exec_hufEnc hcap (hlen.resolve_right nofun)
    · exact exec_lzssEnc hcap
    · exact exec_bwtEnc hcap (hlen.resolve_right nofun)
  refine ⟨fun hcap hlen hfits => ?_, fun hlong => ?_, fun hcap hzero hne => ?_, fun hcap hlen hfull => ?_, ?_⟩
  · rw [hput hcap hlen, s.finishWrite_wsPutAll_of_fits hfits, State.appended]
  · exact exec_encoder_of_long (hi.imp And.left (Or.imp And.left And.left)) hlong
  · exact exec_encoder_of_empty hcap (hi.imp And.left fun h => (h.resolve_left fun h => hne h.1).1) hzero
  · rw [hput hcap hlen, s.finishWrite_wsPutAll_of_full hfull]
  · rintro n rfl rfl hn
    obtain ⟨h, -⟩ | ⟨h, -⟩ | ⟨-, rfl⟩ := hi
    · cases h
    · cases h
    have hne : s.inputBytes ≠ [] := by rwa [← List.length_pos_iff, State.inputBytes_length, Nat.pos_iff_ne_zero]
    refine ⟨_, bwtRank s.inputBytes, _, sortsRotations_sortedRotations s.inputBytes,
      sortedRotations_getD_bwtRank hne _, rfl, ?_⟩
    rw [bwtBits_eq _ _ hne, State.bwtColumn_inputBytes hn, State.inputBytes_length]

end Sys2Proof.Machine
end

section
/-!
The Huffman decoder on a stream that is known to go on with given fields: header, symbol list and codes. This
is what settles O38, and what the round trip reads with.
-/

namespace Sys2Proof.Machine

/-! ### The header -/

/-- The levels that the counts `cs` make, `f` being the first code of the depth of the first of them
(42_huffman.md R183). -/
def headerLevels (f : Nat) : List Nat → List HuffLevel
  | [] => []
  | c :: cs => { count := c, first := f } :: headerLevels (2 * (f + c)) cs

/-- The first code of the depth after the counts `cs` (42_huffman.md R176). -/
def firstCode (f : Nat) : List Nat → Nat
  | [] => f
  | c :: cs => firstCode (2 * (f + c)) cs

section
variable {r : Reader} {fuel m tot f : Nat}

/-- No slot open ends the header. -/
theorem huffHeaderLoop_closed : huffHeaderLoop (fuel + 1) 0 tot f r = .ok ([], tot, r) := rfl

/-- More open slots than symbols left (42_huffman.md R183). -/
theorem huffHeaderLoop_crowded (hm : m ≠ 0) (h : 256 < tot + m) :
    huffHeaderLoop (fuel + 1) m tot f r = .error .malformedHeader := by
  rw [huffHeaderLoop, if_neg hm, if_pos h]

section
variable (hm : m ≠ 0) (ht : tot + m ≤ 256)
include hm ht

/-- A count is read, checked and counted (42_huffman.md R183). -/
theorem huffHeaderLoop_open :
    huffHeaderLoop (fuel + 1) m tot f r = (do
      let (c, r) ← r.getInt (bitsFor (m + 1))
      if m < c then .error .malformedHeader
      else do
        let (levels, total, r) ← huffHeaderLoop fuel (2 * (m - c)) (tot + c) (2 * (f + c)) r
        .ok ({ count := c, first := f } :: levels, total, r)) := by
  rw [huffHeaderLoop, if_neg hm, if_neg ht.not_gt]

theorem huffHeaderLoop_overfull {c : Nat} (hc : m < c) (hw : c < 2 ^ bitsFor (m + 1))
    (h : r.Holds (fieldBits c (bitsFor (m + 1)))) :
    huffHeaderLoop (fuel + 1) m tot f r = .error .malformedHeader := by
  rw [huffHeaderLoop_open hm ht, h.getInt_field hw]
  exact if_pos hc

theorem huffHeaderLoop_short (h : r.available < bitsFor (m + 1)) :
    huffHeaderLoop (fuel + 1) m tot f r = .error .streamExhausted := by
  rw [huffHeaderLoop_open hm ht, Reader.getInt_eq, if_neg h.not_ge]
  rfl

end

/-- The loop takes the fields of counts that pass their checks, and goes on after them. -/
theorem Reader.Holds.huffHeaderLoop_fields {cs : List Nat} (hcs : headerAccepted m tot cs = true)
    (h : r.Holds (headerFields m cs)) :
    huffHeaderLoop (cs.length + fuel) m tot f r = (do
      let (levels, total, r) ← huffHeaderLoop fuel (openSlots m cs) (tot + cs.sum) (firstCode f cs)
        (r.skip (headerFields m cs).length)
      .ok (headerLevels f cs ++ levels, total, r)) := by
  induction cs generalizing m tot f r with
  | nil =>
    simp only [List.length_nil, Nat.zero_add, openSlots, List.sum_nil, Nat.add_zero, firstCode, headerFields,
      headerLevels, List.nil_append]
    cases huffHeaderLoop fuel m tot f r <;> rfl
  | cons c cs ih =>
    simp only [headerAccepted, Bool.and_eq_true, decide_eq_true_eq] at hcs
    obtain ⟨⟨⟨hm, ht⟩, hc⟩, hcs⟩ := hcs
    obtain ⟨hfield, hrest⟩ := Reader.holds_append.1 h
    rw [fieldBits_length] at hrest
    have hw : c < 2 ^ bitsFor (m + 1) := (Nat.lt_succ_of_le hc).trans_le (le_two_pow_bitsFor (m + 1))
    have hlen : (headerFields m (c :: cs)).length =
        bitsFor (m + 1) + (headerFields (2 * (m - c)) cs).length := by simp [headerFields]
    rw [List.length_cons, Nat.add_right_comm, huffHeaderLoop_open hm ht, hfield.getInt_field hw, hlen, openSlots,
      firstCode, List.sum_cons, ← Nat.add_assoc, ← Reader.skip_skip]
    simp only [bind, Except.bind, if_neg hc.not_gt, ih hcs hrest]
    cases huffHeaderLoop fuel (openSlots (2 * (m - c)) cs) (tot + c + cs.sum) (firstCode (2 * (f + c)) cs)
      ((r.skip (bitsFor (m + 1))).skip (headerFields (2 * (m - c)) cs).length) <;> rfl

/-- A header whose counts pass their checks is read to their end with passes left. -/
theorem Reader.Holds.readHuffHeader_fields {cs : List Nat} (hcs : headerAccepted 1 0 cs = true)
    (h : r.Holds (headerFields 1 cs)) :
    ∃ fuel, readHuffHeader r = (do
      let (levels, total, r) ← huffHeaderLoop (fuel + 1) (openSlots 1 cs) cs.sum (firstCode 0 cs)
        (r.skip (headerFields 1 cs).length)
      .ok (headerLevels 0 cs ++ levels, total, r)) := by
  have hlen : cs.length ≤ 256 := by
    cases cs with
    | nil => simp
    | cons c cs => have := length_le_of_headerAccepted hcs (by simp); omega
  refine ⟨257 - cs.length, ?_⟩
  rw [readHuffHeader, show 258 = cs.length + (257 - cs.length + 1) by omega, h.huffHeaderLoop_fields hcs,
    Nat.zero_add]

end

/-! ### The symbol list -/

theorem Reader.Holds.readSymbols {r : Reader} {syms : List Byte} (h : r.Holds (syms.flatMap symbolBits)) :
    Machine.readSymbols syms.length r = .ok (syms, r.skip (8 * syms.length)) := by
  induction syms generalizing r with
  | nil => rfl
  | cons c syms ih =>
    obtain ⟨hc, hrest⟩ := Reader.holds_append.1 h
    rw [symbolBits_length] at hrest
    simp only [List.length_cons, Machine.readSymbols, hc.getByte, bind, Except.bind, ih hrest, Reader.skip_skip]
    rw [show 8 + 8 * syms.length = 8 * (syms.length + 1) by omega]

theorem readSymbols_short {r : Reader} {n : Nat} (h : r.available < 8 * n) :
    readSymbols n r = .error .streamExhausted := by
  induction n generalizing r with
  | zero => omega
  | succ n ih =>
    rw [readSymbols, Reader.getByte_eq]
    split
    · have hrest := ih (r := r.skip 8) (by rw [Reader.skip_available]; omega)
      simp only [bind, Except.bind, hrest]
    · rfl

/-! ### The codes -/

/-- A one-leaf tree has an empty code (42_huffman.md R182, corner case `c_0 = 1`). -/
theorem huffBody_oneLeaf (c : Byte) (n : Nat) (r : Reader) :
    huffBody (headerLevels 0 [1]) [c] n r = .ok (List.replicate n c, r) := by
  induction n with
  | zero => rfl
  | succ n ih =>
    have hwalk : walkLevels (headerLevels 0 [1]) 0 0 r = .ok (0, r) := rfl
    simp only [huffBody, hwalk, bind, Except.bind, ih, List.getD_cons_zero, List.replicate_succ]

/-- A two-leaf tree has codes of one bit. -/
theorem walkLevels_twoLeaves (r : Reader) :
    walkLevels (headerLevels 0 [0, 2]) 0 0 r = r.get.map fun (b, r) => (b.toNat, r) := by
  simp only [headerLevels, walkLevels]
  cases hget : r.get with
  | error e => rfl
  | ok y => obtain ⟨b, r'⟩ := y; cases b <;> rfl

theorem huffBody_twoLeaves_short (syms : List Byte) {n : Nat} {r : Reader} (h : r.available < n) :
    huffBody (headerLevels 0 [0, 2]) syms n r = .error .streamExhausted := by
  induction n generalizing r with
  | zero => omega
  | succ n ih =>
    simp only [huffBody, walkLevels_twoLeaves]
    cases hget : r.get with
    | error e =>
      obtain ⟨-, rfl⟩ := Reader.get_error.1 hget
      rfl
    | ok y =>
      obtain ⟨b, r'⟩ := y
      obtain ⟨hpos, -, rfl⟩ := Reader.get_ok.1 hget
      have hrest := ih (r := r.skip 1) (by rw [Reader.skip_available]; simp only [Reader.available] at h ⊢; omega)
      simp only [Except.map, bind, Except.bind, hrest]

/-! ### The decoder -/

section
variable {r : Reader} {cs : List Nat} (n : Nat)

theorem huffDecode_of_header_error {e : ErrCode} (h : readHuffHeader r = .error e) :
    huffDecode n r = .error e := by
  simp only [huffDecode, h, bind, Except.bind]

variable (hcs : headerAccepted 1 0 cs = true)
include hcs

/-- After counts that pass, the header loop's error is the decoder's. -/
theorem Reader.Holds.huffDecode_error {e : ErrCode} (h : r.Holds (headerFields 1 cs))
    (hloop : ∀ fuel, huffHeaderLoop (fuel + 1) (openSlots 1 cs) cs.sum (firstCode 0 cs)
      (r.skip (headerFields 1 cs).length) = .error e) : huffDecode n r = .error e := by
  obtain ⟨fuel, hheader⟩ := h.readHuffHeader_fields hcs
  rw [hloop fuel] at hheader
  exact huffDecode_of_header_error n hheader

variable (hm : openSlots 1 cs = 0)
include hm

/-- After counts that leave no slot open come the symbol list and the codes. -/
theorem Reader.Holds.huffDecode_fields (h : r.Holds (headerFields 1 cs)) :
    huffDecode n r = (do
      let (syms, r) ← Machine.readSymbols cs.sum (r.skip (headerFields 1 cs).length)
      huffBody (headerLevels 0 cs) syms n r) := by
  obtain ⟨fuel, hheader⟩ := h.readHuffHeader_fields hcs
  rw [hm, huffHeaderLoop_closed] at hheader
  simp only [bind, Except.bind, List.append_nil] at hheader
  simp only [huffDecode, hheader, bind, Except.bind]

/-- The same with the symbol list. -/
theorem Reader.Holds.huffDecode_symbols {syms : List Byte} (hsyms : syms.length = cs.sum)
    (h : r.Holds (headerFields 1 cs ++ syms.flatMap symbolBits)) :
    huffDecode n r =
      huffBody (headerLevels 0 cs) syms n (r.skip (headerFields 1 cs ++ syms.flatMap symbolBits).length) := by
  obtain ⟨hheader, hlist⟩ := Reader.holds_append.1 h
  have hlen : (syms.flatMap symbolBits).length = 8 * syms.length := by
    simp [List.length_flatMap, Nat.mul_comm]
  rw [hheader.huffDecode_fields n hcs hm, ← hsyms, hlist.readSymbols, List.length_append, hlen, ← Reader.skip_skip]
  rfl

end

section
variable {r : Reader}

/-- The header bit 1 and one symbol decode to copies of it (42_huffman.md R182). -/
theorem Reader.Holds.huffDecode_oneLeaf {c : Byte} (n : Nat) (h : r.Holds (true :: symbolBits c)) :
    huffDecode n r = .ok (List.replicate n c, r.skip 9) := by
  have hbits : headerFields 1 [1] ++ [c].flatMap symbolBits = true :: symbolBits c := by
    rw [List.flatMap_singleton]
    rfl
  rw [← hbits] at h
  exact (h.huffDecode_symbols n rfl rfl rfl).trans (huffBody_oneLeaf c n _)

/-- With two leaves every code is a bit, so fewer than `n` bits are too few codes. -/
theorem Reader.Holds.huffDecode_twoLeaves_short {a b : Byte} (n : Nat)
    (h : r.Holds ([false, false, true] ++ symbolBits a ++ symbolBits b))
    (hend : (r.skip ([false, false, true] ++ symbolBits a ++ symbolBits b).length).available < n) :
    huffDecode n r = .error .streamExhausted := by
  have hbits : headerFields 1 [0, 2] ++ [a, b].flatMap symbolBits =
      [false, false, true] ++ symbolBits a ++ symbolBits b := by
    rw [List.flatMap_cons, List.flatMap_singleton, List.append_assoc]
    rfl
  rw [← hbits] at h hend
  exact (h.huffDecode_symbols n rfl rfl rfl).trans (huffBody_twoLeaves_short _ hend)

end

/-! ### HUF_DEC -/

/-- What is left after the bits of a stream that is cut short. -/
theorem Reader.EndsWithin.available_skip {r : Reader} {bits : List Bool} {n : Nat} (h : r.EndsWithin bits n) :
    (r.skip bits.length).available < n := by
  obtain ⟨⟨hle, -⟩, hlt⟩ := h
  rw [Reader.skip_available]
  omega

/-- A decode command whose decoder takes `k` bits. -/
theorem State.decodeCommand_skip {s : State} {body : Nat → Reader → Except ErrCode (List Byte × Reader)}
    {out : List Byte} {k : Nat} (hr : s.rlen.toNat ≤ s.params.rbufCap) (hn : s.arg0.toNat ≤ s.params.obufCap)
    (hout : out.length = s.arg0.toNat) (hb : body s.arg0.toNat s.reader = .ok (out, s.reader.skip k)) :
    ∃ t, s.decodeCommand body = .next t ∧
      (∀ a, t.obufByte a = if a < s.arg0.toNat then out.getD a 0 else s.obufByte a) ∧
      t = { s with obuf := t.obuf, olen := s.arg0, rpos := s.rpos + BitVec.ofNat 32 k, result0 := s.arg0,
                   result1 := BitVec.ofNat 32 k, err := .noError, pending := none } := by
  refine ⟨_, State.decodeCommand_ok hr hn hb, fun a => by rw [State.obufByte_deliver, hout], ?_⟩
  have hrpos : BitVec.ofNat 32 (s.reader.pos + k) = s.rpos + BitVec.ofNat 32 k := by
    rw [BitVec.ofNat_add, State.reader, BitVec.ofNat_toNat, BitVec.setWidth_eq]
  have hmoved : s.reader.pos + k - s.rpos.toNat = k := Nat.add_sub_cancel_left ..
  simp only [State.deliver, State.succeed, hrpos, hmoved, BitVec.ofNat_toNat, BitVec.setWidth_eq]

section
variable {s : State} (hr : s.rlen.toNat ≤ s.params.rbufCap) (hn : s.arg0.toNat ≤ s.params.obufCap)
include hr hn

theorem exec_hufDec_error {e : ErrCode} (h : huffDecode s.arg0.toNat s.reader = .error e) :
    ∃ t, exec .hufDec s = .next t ∧ s.failedSpoiling s.arg0.toNat e t := by
  rw [exec_hufDec]
  exact State.decodeCommand_error hr hn h

end

/-- Settles O38: each clause is what the header loop, the symbol list or the body answers for such a stream;
the header with 3 leaves where 2 slots are open is the overfull case after the one count 0. -/
theorem hufDecOneLeafOrOverfull : Obligations.HufDecOneLeafOrOverfull := by
  unfold Obligations.HufDecOneLeafOrOverfull
  intro s hr hn
  have herror (e : ErrCode) (h : huffDecode s.arg0.toNat s.reader = .error e) :
      ∃ t, exec .hufDec s = .next t ∧ s.failedSpoiling s.arg0.toNat e t := exec_hufDec_error hr hn h
  have hoverfull (cs : List Nat) (hcs : headerAccepted 1 0 cs = true) (c : Nat) (ht : cs.sum + openSlots 1 cs ≤ 256)
      (hm : openSlots 1 cs ≠ 0) (hc : openSlots 1 cs < c) (hw : c < 2 ^ bitsFor (openSlots 1 cs + 1))
      (h : s.holdsBits (headerFields 1 cs ++ fieldBits c (bitsFor (openSlots 1 cs + 1)))) :
      ∃ t, exec .hufDec s = .next t ∧ s.failedSpoiling s.arg0.toNat .malformedHeader t := by
    obtain ⟨hheader, hfield⟩ := Reader.holds_append.1 (State.reader_holds h)
    exact herror _ (hheader.huffDecode_error _ hcs fun _ => huffHeaderLoop_overfull hm ht hc hw hfield)
  refine ⟨fun c h => ?oneLeaf, fun h => ?threeOfTwo, fun a b codes hlen h => ?twoLeaves, ?_⟩
  case oneLeaf =>
    obtain ⟨t, ht, hobuf, hstate⟩ := State.decodeCommand_skip hr hn List.length_replicate
      ((State.reader_holds h).huffDecode_oneLeaf s.arg0.toNat)
    refine ⟨t, ht, fun a => ?_, hstate⟩
    rw [hobuf]
    exact ite_congr rfl (List.getD_replicate _) fun _ => rfl
  case threeOfTwo => exact hoverfull [0] rfl 3 (by decide) (by decide) (by decide) (by decide) h
  case twoLeaves =>
    obtain ⟨hfields, hcodes⟩ := (State.reader_endsWithin h).append
    refine herror _ (hfields.huffDecode_twoLeaves_short _ ?_)
    have hlt := hcodes.2
    omega
  rintro cs m hcs rfl
  refine ⟨hoverfull cs hcs, fun ht hm h => ?crowded, fun ht hm h => ?short, fun hm h => ?symbols⟩
  case crowded =>
    exact herror _ ((State.reader_holds h).huffDecode_error _ hcs fun _ => huffHeaderLoop_crowded hm ht)
  case short =>
    have hend := State.reader_endsWithin h
    exact herror _ (hend.1.huffDecode_error _ hcs fun _ => huffHeaderLoop_short hm ht hend.available_skip)
  case symbols =>
    have hend := State.reader_endsWithin h
    refine herror _ ?_
    rw [hend.1.huffDecode_fields _ hcs hm, readSymbols_short hend.available_skip]
    rfl

end Sys2Proof.Machine
end

section
/-!
The Huffman tree of an input and its levels (42_huffman.md R171 to R175): which symbols it has, and that the
counts of its levels make a header that closes.
-/

namespace Sys2Proof.Machine

/-! ### The distinct symbols -/

theorem mem_distinctSymbols {data : List Byte} {c : Byte} : c ∈ distinctSymbols data ↔ c ∈ data := by
  simp only [distinctSymbols, List.mem_filter, List.mem_map, List.mem_range, List.contains_iff_mem]
  exact ⟨And.right, fun h => ⟨⟨c.toNat, c.isLt, by simp⟩, h⟩⟩

/-- The order in which symbols are listed (42_huffman.md R171, R175). -/
abbrev Ascending (l : List Byte) : Prop := l.Pairwise fun a b => a.toNat < b.toNat

theorem distinctSymbols_ascending (data : List Byte) : Ascending (distinctSymbols data) := by
  refine List.Pairwise.filter _ (List.pairwise_map.2 (List.pairwise_lt_range.imp_of_mem fun {m n} hm hn hlt => ?_))
  rwa [BitVec.toNat_ofNat, BitVec.toNat_ofNat, Nat.mod_eq_of_lt (List.mem_range.1 hm),
    Nat.mod_eq_of_lt (List.mem_range.1 hn)]

theorem Ascending.nodup {l : List Byte} (h : Ascending l) : l.Nodup :=
  h.imp fun hlt heq => hlt.ne (congrArg BitVec.toNat heq)

/-- An ascending list is determined by its members. -/
theorem Ascending.eq_of_mem_iff {l l' : List Byte} (h : Ascending l) (h' : Ascending l')
    (hmem : ∀ c, c ∈ l ↔ c ∈ l') : l = l' :=
  List.Perm.eq_of_pairwise (fun _ _ _ _ hab hba => absurd hab hba.not_gt) h h'
    ((List.perm_ext_iff_of_nodup h.nodup h'.nodup).2 hmem)

theorem distinctSymbols_length_le (data : List Byte) : (distinctSymbols data).length ≤ 256 := by
  unfold distinctSymbols
  exact (List.length_filter_le ..).trans (by simp)

/-! ### Trees -/

/-- The symbols of a tree's leaves, from left to right. -/
def HuffTree.symbols : HuffTree → List Byte
  | .leaf s => [s]
  | .node l r => l.symbols ++ r.symbols

/-- How many nodes a tree has at depth `d`. -/
def HuffTree.nodesAt : HuffTree → Nat → Nat
  | _, 0 => 1
  | .leaf _, _ + 1 => 0
  | .node l r, d + 1 => l.nodesAt d + r.nodesAt d

/-- How many leaves a tree has at depth `d`. -/
def HuffTree.leavesAt : HuffTree → Nat → Nat
  | .leaf _, 0 => 1
  | .leaf _, _ + 1 => 0
  | .node _ _, 0 => 0
  | .node l r, d + 1 => l.leavesAt d + r.leavesAt d

namespace HuffTree

variable (t : HuffTree)

@[simp] theorem nodesAt_zero : t.nodesAt 0 = 1 := by cases t <;> rfl

theorem depths_map_fst (d : Nat) : (t.depths d).map Prod.fst = t.symbols := by
  induction t generalizing d with
  | leaf s => rfl
  | node l r ihl ihr => rw [depths, List.map_append, ihl, ihr, symbols]

/-- A node of the next depth is a child of an internal node of this one. -/
theorem nodesAt_succ (d : Nat) : t.leavesAt d ≤ t.nodesAt d ∧ t.nodesAt (d + 1) = 2 * (t.nodesAt d - t.leavesAt d) := by
  induction t generalizing d with
  | leaf s => cases d <;> simp [nodesAt, leavesAt]
  | node l r ihl ihr =>
    cases d with
    | zero => simp [nodesAt, leavesAt]
    | succ d =>
      obtain ⟨hl, hl'⟩ := ihl d
      obtain ⟨hr, hr'⟩ := ihr d
      have hnodes : (node l r).nodesAt (d + 1 + 1) = l.nodesAt (d + 1) + r.nodesAt (d + 1) := rfl
      rw [hnodes, hl', hr']
      simp only [nodesAt, leavesAt]
      omega

/-- Below the deepest leaf there is no node, and above it there is one at every depth. -/
theorem nodesAt_eq_zero_iff (k d : Nat) : t.nodesAt d = 0 ↔ ∀ p ∈ t.depths k, p.2 < k + d := by
  induction t generalizing k d with
  | leaf s => cases d <;> simp [nodesAt, depths]
  | node l r ihl ihr =>
    simp only [depths, List.forall_mem_append]
    cases d with
    | zero =>
      have hl := (ihl (k + 1) 0).not.1 (by simp)
      simp only [nodesAt_zero, one_ne_zero, false_iff]
      exact fun h => hl fun p hp => (h.1 p hp).trans (Nat.lt_succ_self k)
    | succ d => rw [nodesAt, Nat.add_eq_zero_iff, ihl (k + 1), ihr (k + 1), Nat.add_right_comm k 1 d, Nat.add_assoc]

theorem le_of_mem_depths {k : Nat} {p : Byte × Nat} (h : p ∈ t.depths k) : k ≤ p.2 := by
  induction t generalizing k with
  | leaf s => exact (congrArg Prod.snd (List.mem_singleton.1 h)).ge
  | node l r ihl ihr =>
    obtain h | h := List.mem_append.1 h
    · exact (Nat.le_succ k).trans (ihl h)
    · exact (Nat.le_succ k).trans (ihr h)

/-- The leaves listed with depth `k + d` are those at depth `d` of a tree whose root is at depth `k`. -/
theorem countP_depths (k d : Nat) : (t.depths k).countP (fun p => p.2 = k + d) = t.leavesAt d := by
  have hdeep (t : HuffTree) (k : Nat) : (t.depths (k + 1)).countP (fun p => p.2 = k) = 0 :=
    List.countP_eq_zero.2 fun p hp heq =>
      (Nat.lt_of_succ_le (t.le_of_mem_depths hp)).ne' (of_decide_eq_true heq)
  induction t generalizing k d with
  | leaf s => cases d <;> simp [leavesAt, depths]
  | node l r ihl ihr =>
    rw [depths, List.countP_append]
    cases d with
    | zero => rw [Nat.add_zero, hdeep, hdeep, leavesAt]
    | succ d => rw [leavesAt, ← ihl (k + 1), ← ihr (k + 1), Nat.add_right_comm k 1 d, Nat.add_assoc]

end HuffTree

/-! ### Merging -/

theorem huffInsert_perm (t : HuffItem) (q : List HuffItem) : (huffInsert t q).Perm (t :: q) := by
  induction q with
  | nil => exact .refl _
  | cons u q ih =>
    unfold huffInsert
    split
    · exact .refl _
    · exact (ih.cons u).trans (.swap t u q)

theorem foldr_huffInsert_perm (q : List HuffItem) : (q.foldr huffInsert []).Perm q := by
  induction q with
  | nil => exact .refl _
  | cons t q ih => exact (huffInsert_perm t _).trans (ih.cons t)

/-- Merging a queue of at least one tree gives one tree, with the leaves of them all (42_huffman.md R172). -/
theorem huffMerge_symbols {fuel next : Nat} {q : List HuffItem} (hq : q ≠ []) (hfuel : q.length ≤ fuel + 1) :
    ∃ t, huffMerge fuel next q = some t ∧ t.symbols.Perm (q.flatMap fun i => i.tree.symbols) := by
  induction fuel generalizing next q with
  | zero =>
    obtain ⟨a, rfl⟩ := List.length_eq_one_iff.1 (Nat.le_antisymm hfuel (List.length_pos_iff.2 hq))
    exact ⟨a.tree, rfl, by rw [List.flatMap_singleton]⟩
  | succ fuel ih =>
    match q, hq with
    | [a], _ => exact ⟨a.tree, rfl, by rw [List.flatMap_singleton]⟩
    | a :: b :: q, _ =>
      have hperm := huffInsert_perm { freq := a.freq + b.freq, order := next, tree := .node a.tree b.tree } q
      obtain ⟨t, ht, hsyms⟩ := ih (next := next + 1) (List.ne_nil_of_length_pos (by rw [hperm.length_eq]; simp))
        (by rw [hperm.length_eq]; simpa using hfuel)
      refine ⟨t, ht, hsyms.trans ((hperm.flatMap_right _).trans ?_)⟩
      simp [HuffTree.symbols]

/-- The leaf of a symbol of `data` (42_huffman.md R171): its creation order is its place among the distinct
symbols. -/
def huffLeaf (data : List Byte) (s : Byte) : HuffItem :=
  { freq := data.count s, order := (distinctSymbols data).idxOf s, tree := .leaf s }

theorem huffLeaves_eq_foldr (data : List Byte) :
    huffLeaves data = ((distinctSymbols data).map (huffLeaf data)).foldr huffInsert [] := by
  unfold huffLeaves
  congr 1
  refine List.ext_getElem (by simp) fun k hk _ => ?_
  have hk' : k < (distinctSymbols data).length := by simpa using hk
  simp [huffLeaf, (distinctSymbols_ascending data).nodup.idxOf_getElem k hk']

theorem huffLeaves_perm (data : List Byte) :
    (huffLeaves data).Perm ((distinctSymbols data).map (huffLeaf data)) :=
  huffLeaves_eq_foldr data ▸ foldr_huffInsert_perm _

/-- The leaf depths of a non-empty input are those of a tree with its distinct symbols (42_huffman.md R173). -/
theorem exists_leafDepths {data : List Byte} (h : data ≠ []) :
    ∃ t : HuffTree, leafDepths data = t.depths 0 ∧ t.symbols.Perm (distinctSymbols data) := by
  have hperm := huffLeaves_perm data
  obtain ⟨c, hc⟩ := List.exists_mem_of_ne_nil data h
  have hne : huffLeaves data ≠ [] := by
    rw [Ne, ← List.length_eq_zero_iff, hperm.length_eq, List.length_map, List.length_eq_zero_iff]
    exact List.ne_nil_of_mem (mem_distinctSymbols.2 hc)
  obtain ⟨t, ht, hsyms⟩ := huffMerge_symbols (next := (huffLeaves data).length) hne (Nat.le_succ _)
  refine ⟨t, by rw [leafDepths, ht], hsyms.trans ((hperm.flatMap_right _).trans ?_)⟩
  simp [List.flatMap_map, huffLeaf, HuffTree.symbols]

/-! ### The levels -/

/-- A running maximum is bounded when its start and every number are. -/
theorem foldl_max_le_iff {l : List Nat} {m n : Nat} : l.foldl max m ≤ n ↔ m ≤ n ∧ ∀ k ∈ l, k ≤ n := by
  induction l generalizing m with
  | nil => simp
  | cons k l ih => simp [ih, and_assoc]

/-- The greatest leaf depth of the input's tree (42_huffman.md R173). -/
def deepestLeaf (data : List Byte) : Nat := ((leafDepths data).map Prod.snd).foldl max 0

/-- The depth of the deepest leaf is at most `n` when every leaf's is. -/
theorem deepestLeaf_le_iff {data : List Byte} {n : Nat} :
    deepestLeaf data ≤ n ↔ ∀ p ∈ leafDepths data, p.2 ≤ n := by
  simp only [deepestLeaf, foldl_max_le_iff, Nat.zero_le, true_and, List.forall_mem_map]

/-- The symbols at depth `d`, ascending (42_huffman.md R175). -/
def huffLevel (data : List Byte) (d : Nat) : List Byte :=
  (distinctSymbols data).filter fun s => (leafDepths data).contains (s, d)

theorem huffLevels_eq_map (data : List Byte) :
    huffLevels data = (List.range (deepestLeaf data + 1)).map (huffLevel data) := rfl

theorem huffLevel_ascending (data : List Byte) (d : Nat) : Ascending (huffLevel data d) :=
  (distinctSymbols_ascending data).filter _

section
variable {data : List Byte} (h : data ≠ [])
include h

/-- Every symbol has one leaf (42_huffman.md R171). -/
theorem leafDepths_map_fst_perm : ((leafDepths data).map Prod.fst).Perm (distinctSymbols data) := by
  obtain ⟨t, ht, hsyms⟩ := exists_leafDepths h
  rwa [ht, t.depths_map_fst]

theorem leafDepths_unique {p p' : Byte × Nat} (hp : p ∈ leafDepths data) (hp' : p' ∈ leafDepths data)
    (heq : p.1 = p'.1) : p = p' :=
  List.inj_on_of_nodup_map ((leafDepths_map_fst_perm h).nodup_iff.2 (distinctSymbols_ascending data).nodup) hp hp' heq

theorem mem_huffLevel {c : Byte} {d : Nat} : c ∈ huffLevel data d ↔ (c, d) ∈ leafDepths data := by
  rw [huffLevel, List.mem_filter, List.contains_iff_mem, and_iff_right_iff_imp]
  exact fun hc => (leafDepths_map_fst_perm h).mem_iff.1 (List.mem_map_of_mem hc)

/-- A symbol of the input is in the level of its leaf's depth. -/
theorem exists_mem_huffLevels {c : Byte} (hc : c ∈ data) : ∃ l ∈ huffLevels data, c ∈ l := by
  obtain ⟨⟨_, d⟩, hp, rfl⟩ := List.mem_map.1 ((leafDepths_map_fst_perm h).mem_iff.2 (mem_distinctSymbols.2 hc))
  refine ⟨huffLevel data d, List.mem_map_of_mem (List.mem_range.2 (Nat.lt_succ_of_le ?_)), (mem_huffLevel h).2 hp⟩
  exact deepestLeaf_le_iff.1 le_rfl _ hp

/-- No symbol is listed twice (42_huffman.md R175). -/
theorem huffLevels_flatten_nodup : (huffLevels data).flatten.Nodup := by
  rw [huffLevels_eq_map, List.nodup_flatten, List.pairwise_map]
  refine ⟨fun l hl => ?_, List.nodup_range.imp fun {d d'} hne c hc hc' => hne ?_⟩
  · obtain ⟨d, -, rfl⟩ := List.mem_map.1 hl
    exact (huffLevel_ascending data d).nodup
  · exact congrArg Prod.snd (leafDepths_unique h ((mem_huffLevel h).1 hc) ((mem_huffLevel h).1 hc') rfl)

theorem huffLevels_flatten_length_le : (huffLevels data).flatten.length ≤ 256 := by
  refine le_trans (List.subperm_of_subset (huffLevels_flatten_nodup h) fun c hc => ?_).length_le
    (distinctSymbols_length_le data)
  obtain ⟨l, hl, hc⟩ := List.mem_flatten.1 hc
  obtain ⟨d, -, rfl⟩ := List.mem_map.1 hl
  exact (List.mem_filter.1 hc).1

theorem huffLevel_length (d : Nat) : (huffLevel data d).length = (leafDepths data).countP fun p => p.2 = d := by
  have hnodup : (((leafDepths data).filter fun p => p.2 = d).map Prod.fst).Nodup :=
    ((leafDepths_map_fst_perm h).nodup_iff.2 (distinctSymbols_ascending data).nodup).sublist
      (List.filter_sublist.map _)
  have hperm := (List.perm_ext_iff_of_nodup (huffLevel_ascending data d).nodup hnodup).2 fun c => by
    simp [mem_huffLevel h]
  rw [hperm.length_eq, List.length_map, List.countP_eq_length_filter]

end

/-! ### The counts make a header that closes -/

section
variable (t : HuffTree)

theorem openSlots_leavesAt (n d : Nat) :
    openSlots (t.nodesAt d) ((List.range' d n).map t.leavesAt) = t.nodesAt (d + n) := by
  induction n generalizing d with
  | zero => rfl
  | succ n ih =>
    rw [List.range'_succ, List.map_cons, openSlots, ← (t.nodesAt_succ d).2, ih, Nat.add_right_comm, Nat.add_assoc]

/-- Every node has a leaf at or below it. -/
theorem nodesAt_le_sum_leavesAt (n d : Nat) :
    t.nodesAt d ≤ ((List.range' d n).map t.leavesAt).sum + t.nodesAt (d + n) := by
  induction n generalizing d with
  | zero => simp
  | succ n ih =>
    obtain ⟨hle, hsucc⟩ := t.nodesAt_succ d
    have := ih (d + 1)
    rw [List.range'_succ, List.map_cons, List.sum_cons, ← Nat.add_assoc d n 1, Nat.add_right_comm d n 1]
    omega

/-- The counts pass the checks of 42_huffman.md R183 when there are at most 256 leaves. -/
theorem headerAccepted_leavesAt {n d tot : Nat} (hopen : ∀ e, d ≤ e → e < d + n → t.nodesAt e ≠ 0)
    (hend : t.nodesAt (d + n) = 0) (htot : tot + ((List.range' d n).map t.leavesAt).sum ≤ 256) :
    headerAccepted (t.nodesAt d) tot ((List.range' d n).map t.leavesAt) = true := by
  induction n generalizing d tot with
  | zero => rfl
  | succ n ih =>
    have hcount := nodesAt_le_sum_leavesAt t (n + 1) d
    obtain ⟨hle, hsucc⟩ := t.nodesAt_succ d
    rw [hend, Nat.add_zero] at hcount
    rw [List.range'_succ, List.map_cons, List.sum_cons] at htot hcount
    have hrest := ih (d := d + 1) (tot := tot + t.leavesAt d) (fun e he he' => hopen e (by omega) (by omega))
      (by rw [← hend]; congr 1; omega) (by omega)
    rw [List.range'_succ, List.map_cons, headerAccepted, ← hsucc, hrest]
    simp [hopen d le_rfl (by omega), hle, show tot + t.nodesAt d ≤ 256 by omega]

end

/-- The counts of the levels (42_huffman.md R173). -/
abbrev levelCounts (data : List Byte) : List Nat := (huffLevels data).map List.length

/-- The header of an input's tree passes its checks and ends with no slot open (42_huffman.md R174, R177). -/
theorem levelCounts_header {data : List Byte} (h : data ≠ []) :
    headerAccepted 1 0 (levelCounts data) = true ∧ openSlots 1 (levelCounts data) = 0 := by
  obtain ⟨t, ht, -⟩ := exists_leafDepths h
  have hcounts : levelCounts data = (List.range' 0 (deepestLeaf data + 1)).map t.leavesAt := by
    rw [levelCounts, huffLevels_eq_map, List.map_map, List.range_eq_range']
    refine List.map_congr_left fun d _ => ?_
    rw [Function.comp, huffLevel_length h, ht, ← t.countP_depths 0 d, Nat.zero_add]
  have hzero (e : Nat) : t.nodesAt e = 0 ↔ ∀ p ∈ leafDepths data, p.2 < e := by
    rw [t.nodesAt_eq_zero_iff 0, ht, Nat.zero_add]
  have hend : t.nodesAt (0 + (deepestLeaf data + 1)) = 0 := by
    rw [Nat.zero_add, hzero]
    exact fun p hp => Nat.lt_succ_of_le (deepestLeaf_le_iff.1 le_rfl p hp)
  have hopen (e : Nat) (he : e < 0 + (deepestLeaf data + 1)) : t.nodesAt e ≠ 0 := by
    intro h0
    obtain ⟨e, rfl⟩ := Nat.exists_eq_succ_of_ne_zero (show e ≠ 0 by rintro rfl; simp at h0)
    have := deepestLeaf_le_iff.2 fun p hp => Nat.le_of_lt_succ ((hzero _).1 h0 p hp)
    omega
  have hsum : (levelCounts data).sum ≤ 256 := by
    rw [← List.length_flatten]
    exact huffLevels_flatten_length_le h
  rw [hcounts] at hsum ⊢
  have haccepted := headerAccepted_leavesAt t (tot := 0) (fun e _ he => hopen e he) hend (by rwa [Nat.zero_add])
  have hslots := (openSlots_leavesAt t _ 0).trans hend
  rw [t.nodesAt_zero] at haccepted hslots
  exact ⟨haccepted, hslots⟩

end Sys2Proof.Machine
end

section
/-!
The canonical code (42_huffman.md R176), and that walking the levels by it finds the symbol again: what settles
O44.
-/

namespace Sys2Proof.Machine

/-! ### Code values -/

theorem msbBits_succ (v n : Nat) : msbBits v (n + 1) = v.testBit n :: msbBits v n := by
  simp [msbBits, intBits_eq_map, List.range_succ]

@[simp] theorem msbBits_length (v n : Nat) : (msbBits v n).length = n := by simp [msbBits]

/-- Codes grow with depth: after more counts, the first code starts with the bits of the one before. -/
theorem two_pow_mul_le_firstCode (f : Nat) (cs : List Nat) : 2 ^ cs.length * f ≤ firstCode f cs := by
  induction cs generalizing f with
  | nil => simp [firstCode]
  | cons c cs ih =>
    calc 2 ^ (cs.length + 1) * f = 2 ^ cs.length * (2 * f) := by rw [Nat.pow_succ, Nat.mul_assoc]
      _ ≤ 2 ^ cs.length * (2 * (f + c)) := Nat.mul_le_mul_left _ (by omega)
      _ ≤ firstCode (2 * (f + c)) cs := ih _

/-- The slots of a depth have the code values from its first code up to the end of its range
(42_huffman.md R176). -/
theorem firstCode_add_openSlots {m tot f : Nat} {pre post : List Nat}
    (h : headerAccepted m tot (pre ++ post) = true) :
    firstCode f pre + openSlots m pre = 2 ^ pre.length * (f + m) := by
  induction pre generalizing m tot f with
  | nil => simp [firstCode, openSlots]
  | cons c pre ih =>
    simp only [List.cons_append, headerAccepted, Bool.and_eq_true, decide_eq_true_eq] at h
    obtain ⟨⟨-, hc⟩, h⟩ := h
    rw [firstCode, openSlots, ih h, List.length_cons, Nat.pow_succ, Nat.mul_assoc]
    congr 1
    omega

/-- A count of an accepted header is at most the slots open at it. -/
theorem le_openSlots_of_headerAccepted {m tot c : Nat} {pre post : List Nat}
    (h : headerAccepted m tot (pre ++ c :: post) = true) : c ≤ openSlots m pre := by
  induction pre generalizing m tot with
  | nil =>
    simp only [List.nil_append, headerAccepted, Bool.and_eq_true, decide_eq_true_eq] at h
    obtain ⟨⟨-, hc⟩, -⟩ := h
    exact hc
  | cons c' pre ih =>
    simp only [List.cons_append, headerAccepted, Bool.and_eq_true] at h
    exact ih h.2

/-- The code value of a leaf has as many bits as the leaf is deep. -/
theorem firstCode_add_lt {c j : Nat} {pre post : List Nat} (h : headerAccepted 1 0 (pre ++ c :: post) = true)
    (hj : j < c) : firstCode 0 pre + j < 2 ^ pre.length := by
  have hslots := firstCode_add_openSlots (f := 0) h
  have hc := le_openSlots_of_headerAccepted h
  omega

/-! ### Walking down the levels -/

/-- From `n` levels above its leaf, a code value's last `n` bits lead to the leaf (42_huffman.md R182). -/
theorem Reader.Holds.walkLevels {r : Reader} {f base c j : Nat} {pre post : List Nat} (hj : j < c)
    (h : r.Holds (msbBits (firstCode f pre + j) pre.length)) :
    Machine.walkLevels (headerLevels f (pre ++ c :: post)) ((firstCode f pre + j) / 2 ^ pre.length) base r =
      .ok (base + pre.sum + j, r.skip pre.length) := by
  induction pre generalizing f base r with
  | nil =>
    simp only [List.nil_append, headerLevels, firstCode, Machine.walkLevels, List.length_nil, Nat.pow_zero,
      Nat.div_one, Nat.add_sub_cancel_left, if_pos hj]
    rfl
  | cons c' pre ih =>
    set v := firstCode f (c' :: pre) + j
    rw [List.length_cons, msbBits_succ] at h
    obtain ⟨hbit, hrest⟩ := Reader.holds_append (as := [v.testBit pre.length]).1 h
    have hinner : ¬ v / 2 ^ (pre.length + 1) - f < c' := by
      have hle : 2 ^ pre.length * (2 * (f + c')) ≤ v :=
        (two_pow_mul_le_firstCode (2 * (f + c')) pre).trans (Nat.le_add_right _ j)
      have : f + c' ≤ v / 2 ^ (pre.length + 1) := by
        rw [Nat.le_div_iff_mul_le (Nat.two_pow_pos _), Nat.pow_succ]
        linarith
      omega
    have hnext : 2 * (v / 2 ^ (pre.length + 1)) + (v.testBit pre.length).toNat = v / 2 ^ pre.length := by
      rw [Nat.pow_succ, ← Nat.div_div_eq_div_mul, Nat.toNat_testBit]
      omega
    have htail := ih (f := 2 * (f + c')) (base := base + c') hrest
    simp only [List.cons_append, headerLevels, Machine.walkLevels, List.length_cons, if_neg hinner, hbit.get, bind,
      Except.bind, hnext]
    refine htail.trans ?_
    rw [Reader.skip_skip, List.sum_cons, Nat.add_assoc base, List.length_singleton, Nat.add_comm 1]

/-! ### The code table -/

theorem huffCodes_append (d f : Nat) (pre post : List (List Byte)) :
    huffCodes d f (pre ++ post) =
      huffCodes d f pre ++ huffCodes (d + pre.length) (firstCode f (pre.map List.length)) post := by
  induction pre generalizing d f with
  | nil => rfl
  | cons l pre ih =>
    simp only [List.cons_append, huffCodes, ih, List.append_assoc, List.length_cons, List.map_cons, firstCode]
    rw [Nat.add_right_comm, Nat.add_assoc]

theorem huffCodes_map_fst (d f : Nat) (levels : List (List Byte)) :
    (huffCodes d f levels).map Prod.fst = levels.flatten := by
  induction levels generalizing d f with
  | nil => rfl
  | cons l levels ih => simp [huffCodes, ih, Function.comp_def, List.zipIdx_map_fst]

theorem codeOf_of_mem {codes : List (Byte × List Bool)} (hnodup : (codes.map Prod.fst).Nodup) {c : Byte}
    {bits : List Bool} (h : (c, bits) ∈ codes) : codeOf codes c = bits := by
  obtain ⟨pre, post, rfl⟩ := List.append_of_mem h
  have hlookup : (pre ++ (c, bits) :: post).lookup c = some bits := by
    refine List.lookup_eq_some_iff.2 ⟨pre, post, rfl, fun p hp => bne_iff_ne.2 ?_⟩
    rw [List.map_append, List.nodup_append] at hnodup
    obtain ⟨-, -, hdisjoint⟩ := hnodup
    exact (hdisjoint p.1 (List.mem_map_of_mem hp) c (by simp)).symm
  rw [codeOf, hlookup, Option.getD_some]

/-- The code of a symbol: its level's first code and its place in the level (42_huffman.md R176). -/
theorem codeOf_huffCodes {pre post : List (List Byte)} {as bs : List Byte} {c : Byte}
    (hnodup : (pre ++ (as ++ c :: bs) :: post).flatten.Nodup) :
    codeOf (huffCodes 0 0 (pre ++ (as ++ c :: bs) :: post)) c =
      msbBits (firstCode 0 (pre.map List.length) + as.length) pre.length := by
  refine codeOf_of_mem (by rwa [huffCodes_map_fst]) ?_
  rw [huffCodes_append, huffCodes, Nat.zero_add]
  simp only [List.mem_append, List.mem_map, List.zipIdx_append]
  refine .inr (.inl ⟨(c, as.length), ?_, rfl⟩)
  simp

/-! ### The body -/

/-- The body is read symbol by symbol, when the code of each leads to a slot that holds it. -/
theorem Reader.Holds.huffBody {levels : List HuffLevel} {syms : List Byte} {code : Byte → List Bool}
    {data : List Byte}
    (hcode : ∀ c ∈ data, ∀ r : Reader, r.Holds (code c) →
      ∃ slot, Machine.walkLevels levels 0 0 r = .ok (slot, r.skip (code c).length) ∧ syms.getD slot 0 = c)
    {r : Reader} (h : r.Holds (data.flatMap code)) :
    Machine.huffBody levels syms data.length r = .ok (data, r.skip (data.flatMap code).length) := by
  induction data generalizing r with
  | nil => rfl
  | cons c data ih =>
    obtain ⟨hc, hrest⟩ := Reader.holds_append.1 h
    obtain ⟨slot, hwalk, hslot⟩ := hcode c (by simp) r hc
    have hdata := ih (fun c hc => hcode c (by simp [hc])) hrest
    simp only [List.length_cons, Machine.huffBody, hwalk, bind, Except.bind, hdata, hslot, Reader.skip_skip,
      List.flatMap_cons, List.length_append]

/-- In the levels of an input, a symbol's code leads to the symbol (42_huffman.md R182, R185). -/
theorem walkLevels_codeOf {levels : List (List Byte)} (hnodup : levels.flatten.Nodup)
    (hheader : headerAccepted 1 0 (levels.map List.length) = true) {c : Byte} (hc : c ∈ levels.flatten)
    {r : Reader} (h : r.Holds (codeOf (huffCodes 0 0 levels) c)) :
    ∃ slot, walkLevels (headerLevels 0 (levels.map List.length)) 0 0 r =
        .ok (slot, r.skip (codeOf (huffCodes 0 0 levels) c).length) ∧
      levels.flatten.getD slot 0 = c := by
  obtain ⟨l, hl, hcl⟩ := List.mem_flatten.1 hc
  obtain ⟨pre, post, rfl⟩ := List.append_of_mem hl
  obtain ⟨as, bs, rfl⟩ := List.append_of_mem hcl
  rw [codeOf_huffCodes hnodup] at h ⊢
  have hj : as.length < (as ++ c :: bs).length := by simp
  rw [List.map_append, List.map_cons] at hheader
  have hzero := Nat.div_eq_of_lt (firstCode_add_lt hheader hj)
  rw [← List.length_map (f := List.length) (as := pre)] at h ⊢
  have hwalk := h.walkLevels (base := 0) (post := post.map List.length) hj
  rw [hzero] at hwalk
  refine ⟨_, by rw [List.map_append, List.map_cons, hwalk, msbBits_length], ?_⟩
  rw [Nat.zero_add, ← List.length_flatten]
  simp

/-! ### The round trip -/

theorem huffHeader_eq_headerFields (m : Nat) (cs : List Nat) : huffHeader m cs = headerFields m cs := by
  induction cs generalizing m with
  | nil => rfl
  | cons c cs ih => rw [huffHeader, headerFields, ih, fieldBits_eq_intBits]

/-- What HUF_ENC writes, in the fields of the statements (42_huffman.md R177 to R179). -/
theorem huffBits_eq (data : List Byte) :
    huffBits data =
      headerFields 1 (levelCounts data) ++ (huffLevels data).flatten.flatMap symbolBits ++
        data.flatMap (codeOf (huffCodes 0 0 (huffLevels data))) := by
  rw [huffBits, huffHeader_eq_headerFields, ← funext symbolBits_eq_intBits]

/-- The decoder inverts the encoder and reads exactly its bits (42_huffman.md R185). -/
theorem Reader.Holds.huffDecode_huffBits {data : List Byte} (hne : data ≠ []) {r : Reader}
    (h : r.Holds (huffBits data)) : huffDecode data.length r = .ok (data, r.skip (huffBits data).length) := by
  obtain ⟨hheader, hslots⟩ := levelCounts_header hne
  rw [huffBits_eq] at h ⊢
  obtain ⟨hfields, hbody⟩ := Reader.holds_append.1 h
  rw [hfields.huffDecode_symbols _ hheader hslots List.length_flatten]
  refine (hbody.huffBody fun c hc r hcode => ?_).trans (by rw [Reader.skip_skip, ← List.length_append])
  exact walkLevels_codeOf (huffLevels_flatten_nodup hne) hheader
    (List.mem_flatten.2 (exists_mem_huffLevels hne hc)) hcode

/-- `HUF_DEC` of a freshly loaded stream that is what `HUF_ENC` wrote of `data`, with `N` its length. -/
theorem exec_hufDec_streamLoaded {s : State} {data : List Byte} (hne : data ≠ []) (hws : s.ws = huffBits data)
    (hn : data.length = s.arg0.toNat) (hobuf : s.arg0.toNat ≤ s.params.obufCap)
    (hrbuf : (s.ws.length + 7) / 8 ≤ s.params.rbufCap) (hsmall : (s.ws.length + 7) / 8 < 2 ^ 32) :
    ∃ t, exec .hufDec s.streamLoaded = .next t ∧
      (∀ a, t.obufByte a = if a < s.arg0.toNat then data.getD a 0 else s.obufByte a) ∧
      t = { s.streamLoaded with
        obuf := t.obuf, olen := s.arg0, rpos := BitVec.ofNat 32 s.ws.length, result0 := s.arg0,
        result1 := BitVec.ofNat 32 s.ws.length, err := .noError, pending := none } := by
  have hcap : s.streamLoaded.rlen.toNat ≤ s.params.rbufCap :=
    (State.streamLoaded_rlen hsmall).trans_le hrbuf
  have hdec := Reader.Holds.huffDecode_huffBits hne (hws ▸ State.reader_holds (s.streamLoaded_holdsBits hsmall))
  rw [hn, ← hws] at hdec
  obtain ⟨t, ht, hbytes, hstate⟩ := State.decodeCommand_skip (s := s.streamLoaded) hcap hobuf hn hdec
  refine ⟨t, ht, hbytes, hstate.trans ?_⟩
  have hrpos : s.streamLoaded.rpos + BitVec.ofNat 32 s.ws.length = BitVec.ofNat 32 s.ws.length := BitVec.zero_add _
  rw [hrpos]
  rfl

theorem after_wsClear (s : State) :
    after .wsClear s = { s with ws := [], result0 := 0, result1 := 0, err := .noError, pending := none } := rfl

/-- A command that only appends, and does not fail for want of room, has appended its bits. -/
theorem after_eq_appended {i : Instr} {s : State} {bits : List Bool}
    (h : exec i s = s.finishWrite (wsPutAll s.params.wsCap s.ws bits))
    (herr : (after i s).err ≠ .capacityExceeded) :
    s.ws.length + bits.length ≤ s.params.wsCap ∧ after i s = s.appended bits := by
  by_cases hfits : s.ws.length + bits.length ≤ s.params.wsCap
  · exact ⟨hfits, after_of_exec (h.trans (s.finishWrite_wsPutAll_of_fits hfits))⟩
  · rw [after_of_exec (h.trans (s.finishWrite_wsPutAll_of_full (Nat.lt_of_not_le hfits)))] at herr
    exact absurd rfl herr

/-- An `RS_LOAD` that does not fail for want of room has loaded the write stream. -/
theorem after_rsLoad_eq_streamLoaded {s : State} (herr : (after (.rsLoad false) s).err ≠ .capacityExceeded) :
    (s.ws.length + 7) / 8 ≤ s.params.rbufCap ∧ after (.rsLoad false) s = s.streamLoaded := by
  by_cases hfits : (s.ws.length + 7) / 8 ≤ s.params.rbufCap
  · exact ⟨hfits, after_of_exec (exec_rsLoad_of_fits hfits)⟩
  · have hlong : exec (.rsLoad false) s = .next (s.failedWith .capacityExceeded) := by
      simp only [exec_rsLoad_false, loadStream, toByteArray_length, if_pos (Nat.lt_of_not_le hfits),
        State.raise_eq_failedWith]
    rw [after_of_exec hlong] at herr
    exact absurd rfl herr

/-- The round trip from an empty write stream (42_huffman.md R185). -/
theorem exec_hufDec_after_hufEnc {s : State} (hws : s.ws = []) (hlegal : s.params.legal) (harg : s.arg0 = s.ilen)
    (hne : s.ilen ≠ 0) (hibuf : s.ilen.toNat ≤ s.params.ibufCap) (hobuf : s.ilen.toNat ≤ s.params.obufCap)
    (henc : (after .hufEnc s).err ≠ .capacityExceeded)
    (hload : (after (.rsLoad false) (after .hufEnc s)).err ≠ .capacityExceeded) :
    ∃ t, exec .hufDec (after (.rsLoad false) (after .hufEnc s)) = .next t ∧ t.err = .noError ∧ t.olen = s.ilen ∧
      t.rpos.toNat = (after .hufEnc s).ws.length ∧ ∀ a, a < s.ilen.toNat → t.obufByte a = s.ibufByte a := by
  obtain ⟨-, -, -, -, hwsCap⟩ := hlegal
  obtain ⟨hroom, henc'⟩ := after_eq_appended (exec_hufEnc hibuf hne) henc
  obtain ⟨hfits, hload'⟩ := after_rsLoad_eq_streamLoaded hload
  have hstream : (after .hufEnc s).ws = huffBits s.inputBytes := by
    rw [henc', State.appended, hws, List.nil_append]
  have hlen : (after .hufEnc s).ws.length < 2 ^ 32 := by
    rw [hws, List.length_nil, Nat.zero_add] at hroom
    rw [hstream]
    omega
  have harg' : (after .hufEnc s).arg0 = s.ilen := by rw [henc', ← harg, State.appended]
  have hparams : (after .hufEnc s).params = s.params := by rw [henc', State.appended]
  rw [hload']
  obtain ⟨t, ht, hbytes, hstate⟩ := exec_hufDec_streamLoaded (State.inputBytes_ne_nil hne) hstream
    (by rw [State.inputBytes_length, harg']) (by rw [harg', hparams]; exact hobuf) hfits (by omega)
  rw [harg'] at hbytes hstate
  refine ⟨t, ht, by rw [hstate], by rw [hstate], by rw [hstate]; exact Nat.mod_eq_of_lt hlen, fun a ha => ?_⟩
  rw [hbytes, if_pos ha, State.inputBytes_getD s ha]

/-- Settles O44: neither command failing for want of room, HUF_DEC reads what HUF_ENC wrote. -/
theorem huffmanRoundTrip : Obligations.HuffmanRoundTrip := by
  unfold Obligations.HuffmanRoundTrip
  rintro s _ _ hlegal harg hne hibuf hobuf rfl henc rfl hload
  rw [after_wsClear] at henc hload ⊢
  exact exec_hufDec_after_hufEnc rfl hlegal harg hne hibuf hobuf henc hload

end Sys2Proof.Machine
end

section
/-!
The Huffman codes of inputs with one to four distinct symbols: what settles O30. The queue of leaves is known
once the symbols are listed in its order, the tree once the queue is, and the levels once the leaf depths are.
-/

namespace Sys2Proof.Machine

/-! ### The queue of leaves -/

theorem HuffItem.before_iff (a b : HuffItem) :
    a.before b = true ↔ a.freq < b.freq ∨ (a.freq = b.freq ∧ a.order < b.order) := by
  simp [HuffItem.before]

/-- Inserting a node with a creation order of its own keeps the queue in order (42_huffman.md R172). -/
theorem huffInsert_pairwise {t : HuffItem} {q : List HuffItem} (ht : ∀ u ∈ q, t.order ≠ u.order)
    (hq : q.Pairwise fun a b => a.before b = true) : (huffInsert t q).Pairwise fun a b => a.before b = true := by
  induction q with
  | nil => simp [huffInsert]
  | cons u q ih =>
    obtain ⟨hne, ht⟩ := List.forall_mem_cons.1 ht
    obtain ⟨hu, hq'⟩ := List.pairwise_cons.1 hq
    unfold huffInsert
    split
    case isTrue hb =>
      refine List.pairwise_cons.2 ⟨List.forall_mem_cons.2 ⟨hb, fun v hv => ?_⟩, hq⟩
      have huv := hu v hv
      simp only [HuffItem.before_iff] at hb huv ⊢
      omega
    case isFalse hb =>
      refine List.pairwise_cons.2 ⟨fun v hv => ?_, ih ht hq'⟩
      obtain rfl | hv := List.mem_cons.1 ((huffInsert_perm t q).mem_iff.1 hv)
      · simp only [HuffItem.before_iff] at hb ⊢
        omega
      · exact hu v hv

theorem foldr_huffInsert_pairwise {q : List HuffItem} (hq : (q.map HuffItem.order).Nodup) :
    (q.foldr huffInsert []).Pairwise fun a b => a.before b = true := by
  induction q with
  | nil => exact .nil
  | cons t q ih =>
    obtain ⟨ht, hq⟩ := List.nodup_cons.1 hq
    refine huffInsert_pairwise (fun u hu heq => ht ?_) (ih hq)
    exact heq ▸ List.mem_map_of_mem ((foldr_huffInsert_perm q).mem_iff.1 hu)

/-- In an ascending list the places of symbols are in the order of the symbols. -/
theorem Ascending.idxOf_lt_iff {l : List Byte} (h : Ascending l) {a b : Byte} (ha : a ∈ l) (hb : b ∈ l) :
    l.idxOf a < l.idxOf b ↔ a.toNat < b.toNat := by
  have hlt {a b : Byte} (ha : a ∈ l) (hb : b ∈ l) (hab : l.idxOf a < l.idxOf b) : a.toNat < b.toNat := by
    have := List.pairwise_iff_getElem.1 h _ _ (List.idxOf_lt_length_of_mem ha) (List.idxOf_lt_length_of_mem hb) hab
    rwa [List.getElem_idxOf, List.getElem_idxOf] at this
  refine ⟨hlt ha hb, fun hab => ?_⟩
  obtain hlt' | heq | hgt := Nat.lt_trichotomy (l.idxOf a) (l.idxOf b)
  · exact hlt'
  · rw [List.idxOf_inj ha] at heq
    exact absurd (heq ▸ hab) (lt_irrefl _)
  · exact absurd (hlt hb ha hgt) hab.not_gt

section
variable {data l : List Byte}

/-- The queue's order of two leaves is R172's, by frequency and then by symbol. -/
theorem huffLeaf_before_iff {a b : Byte} (ha : a ∈ data) (hb : b ∈ data) :
    (huffLeaf data a).before (huffLeaf data b) = true ↔ leafBefore data a b := by
  rw [HuffItem.before_iff, leafBefore, ← (distinctSymbols_ascending data).idxOf_lt_iff (mem_distinctSymbols.2 ha)
    (mem_distinctSymbols.2 hb)]
  rfl

variable (hmem : ∀ e, e ∈ l ↔ e ∈ data) (hl : l.Pairwise (leafBefore data))
include hmem hl

theorem perm_distinctSymbols : l.Perm (distinctSymbols data) := by
  refine (List.perm_ext_iff_of_nodup (hl.imp fun hab heq => ?_) (distinctSymbols_ascending data).nodup).2 fun e =>
    (hmem e).trans mem_distinctSymbols.symm
  subst heq
  exact absurd hab (by simp [leafBefore])

/-- The queue is the list of leaves in R172's order. -/
theorem huffLeaves_eq : huffLeaves data = l.map (huffLeaf data) := by
  have horders : (((distinctSymbols data).map (huffLeaf data)).map HuffItem.order).Nodup := by
    rw [List.map_map]
    refine List.Nodup.map_on (fun a ha b hb heq => ?_) (distinctSymbols_ascending data).nodup
    exact (List.idxOf_inj ha).1 heq
  have hsorted := foldr_huffInsert_pairwise horders
  rw [← huffLeaves_eq_foldr] at hsorted
  refine List.Perm.eq_of_pairwise (fun a b _ _ hab hba => ?_) hsorted ?_
    ((huffLeaves_perm data).trans ((perm_distinctSymbols hmem hl).symm.map _))
  · simp only [HuffItem.before_iff] at hab hba
    omega
  · exact List.pairwise_map.2 (hl.imp_of_mem fun ha hb hab =>
      (huffLeaf_before_iff ((hmem _).1 ha) ((hmem _).1 hb)).2 hab)

/-- The leaf depths, from the tree that merging the leaves in R172's order gives. -/
theorem leafDepths_eq {t : HuffTree} (ht : huffMerge l.length l.length (l.map (huffLeaf data)) = some t) :
    leafDepths data = t.depths 0 := by
  rw [leafDepths, huffLeaves_eq hmem hl, List.length_map, ht]

end

/-! ### The levels -/

/-- The levels, from the members of each and a last one that is not empty (42_huffman.md R173, R175). -/
theorem huffLevels_eq {data : List Byte} (hne : data ≠ []) {levels : List (List Byte)}
    (hasc : ∀ l ∈ levels, Ascending l) (hlast : levels.getD (levels.length - 1) [] ≠ [])
    (hmem : ∀ c d, (c, d) ∈ leafDepths data ↔ c ∈ levels.getD d []) : huffLevels data = levels := by
  have hlt (c : Byte) (d : Nat) (h : (c, d) ∈ leafDepths data) : d < levels.length := by
    by_contra hd
    rw [hmem, List.getD_eq_default _ _ (Nat.le_of_not_lt hd)] at h
    cases h
  obtain ⟨c, hc⟩ := List.exists_mem_of_ne_nil _ hlast
  rw [← hmem] at hc
  have hdeepest : deepestLeaf data + 1 = levels.length := by
    have hle := deepestLeaf_le_iff.2 fun p hp => Nat.le_sub_one_of_lt (hlt p.1 p.2 hp)
    have hge := deepestLeaf_le_iff.1 le_rfl _ hc
    have := hlt _ _ hc
    omega
  rw [huffLevels_eq_map, hdeepest]
  refine List.ext_getElem (by simp) fun d _ hd => ?_
  rw [List.getElem_map, List.getElem_range]
  refine (huffLevel_ascending data d).eq_of_mem_iff (hasc _ (List.getElem_mem hd)) fun c => ?_
  rw [mem_huffLevel hne, hmem, List.getD_eq_getElem _ _ hd]

/-- What HUF_ENC writes, from the levels and the code of each symbol. -/
theorem huffBits_of_levels {data : List Byte} {levels : List (List Byte)} {code : Byte → List Bool}
    (h : huffLevels data = levels) (hcode : ∀ e ∈ data, codeOf (huffCodes 0 0 levels) e = code e) :
    huffBits data =
      headerFields 1 (levels.map List.length) ++ levels.flatten.flatMap symbolBits ++ data.flatMap code := by
  rw [huffBits_eq, levelCounts, h, List.flatMap_congr hcode]

/-! ### The leaf depths of one to four symbols -/

theorem leafBefore_total (data : List Byte) {a b : Byte} (h : a.toNat ≠ b.toNat) :
    leafBefore data a b ∨ leafBefore data b a := by
  simp only [leafBefore]
  omega

section
variable {data : List Byte}

theorem leafDepths_oneSymbol {c : Byte} (hmem : ∀ e, e ∈ data ↔ e = c) : leafDepths data = [(c, 0)] :=
  leafDepths_eq (l := [c]) (t := .leaf c) (by simp [hmem]) (List.pairwise_singleton ..) rfl

theorem leafDepths_twoSymbols {p q : Byte} (hmem : ∀ e, e ∈ data ↔ e = p ∨ e = q) (hpq : leafBefore data p q) :
    leafDepths data = [(p, 1), (q, 1)] :=
  leafDepths_eq (l := [p, q]) (t := .node (.leaf p) (.leaf q)) (by simp [hmem]) (by simpa) rfl

/-- Of three leaves the first two are merged, and whichever of their node and the third leaf comes first, the
third leaf has depth 1. -/
theorem leafDepths_threeSymbols {p q z : Byte} (hmem : ∀ e, e ∈ data ↔ e = p ∨ e = q ∨ e = z)
    (hpq : leafBefore data p q) (hpz : leafBefore data p z) (hqz : leafBefore data q z) :
    leafDepths data = [(p, 2), (q, 2), (z, 1)] ∨ leafDepths data = [(z, 1), (p, 2), (q, 2)] := by
  set node : HuffItem :=
    { freq := data.count p + data.count q, order := 3, tree := .node (.leaf p) (.leaf q) }
  have hmerge : huffMerge 3 3 ([p, q, z].map (huffLeaf data)) =
      huffMerge 2 4 (if node.before (huffLeaf data z) then [node, huffLeaf data z] else [huffLeaf data z, node]) := rfl
  have heq {t : HuffTree} (ht : huffMerge 3 3 ([p, q, z].map (huffLeaf data)) = some t) :
      leafDepths data = t.depths 0 :=
    leafDepths_eq (l := [p, q, z]) (by simp [hmem]) (by simp [hpq, hpz, hqz]) ht
  split at hmerge
  · exact .inl (heq (t := .node (.node (.leaf p) (.leaf q)) (.leaf z)) hmerge)
  · exact .inr (heq (t := .node (.leaf z) (.node (.leaf p) (.leaf q))) hmerge)

/-- Of four leaves with frequencies `f`, `f`, `2f` and `2f`, the last two are merged before the node of the first
two, which was created later (42_huffman.md R172). -/
theorem leafDepths_fourSymbols {a b c d : Byte} {f : Nat}
    (hmem : ∀ e, e ∈ data ↔ e = a ∨ e = b ∨ e = c ∨ e = d) (hab : a.toNat < b.toNat) (hbc : b.toNat < c.toNat)
    (hcd : c.toNat < d.toNat) (ha : data.count a = f) (hb : data.count b = f)
    (hc : data.count c = 2 * f) (hd : data.count d = 2 * f) :
    leafDepths data = [(a, 2), (b, 2), (c, 2), (d, 2)] := by
  have hl : [a, b, c, d].Pairwise (leafBefore data) := by
    simp only [List.pairwise_cons, List.mem_cons, List.not_mem_nil, or_false, forall_eq_or_imp, forall_eq,
      IsEmpty.forall_iff, implies_true, List.Pairwise.nil, and_true, leafBefore, ha, hb, hc, hd, lt_self_iff_false,
      true_and, false_or]
    omega
  have hmem' : ∀ e, e ∈ [a, b, c, d] ↔ e ∈ data := by simp [hmem]
  have horder (e : Byte) (he : e ∈ [a, b, c, d]) : (huffLeaf data e).order < 4 := by
    have hperm := perm_distinctSymbols hmem' hl
    exact (List.idxOf_lt_length_of_mem (hperm.mem_iff.1 he)).trans_eq hperm.length_eq.symm
  set ab : HuffItem :=
    { freq := data.count a + data.count b, order := 4, tree := .node (.leaf a) (.leaf b) } with hab'
  set cd : HuffItem :=
    { freq := data.count c + data.count d, order := 5, tree := .node (.leaf c) (.leaf d) } with hcd'
  have habc : ¬ ab.before (huffLeaf data c) = true := by
    have := horder c (by simp)
    simp only [HuffItem.before_iff, hab', ha, hb, show (huffLeaf data c).freq = 2 * f from hc]
    omega
  have habd : ¬ ab.before (huffLeaf data d) = true := by
    have := horder d (by simp)
    simp only [HuffItem.before_iff, hab', ha, hb, show (huffLeaf data d).freq = 2 * f from hd]
    omega
  have hcdab : ¬ cd.before ab = true := by
    simp only [HuffItem.before_iff, hcd', hab', ha, hb, hc, hd]
    omega
  refine leafDepths_eq (l := [a, b, c, d]) (t := .node (.node (.leaf a) (.leaf b)) (.node (.leaf c) (.leaf d)))
    hmem' hl ?_
  have hfirst : huffInsert ab [huffLeaf data c, huffLeaf data d] = [huffLeaf data c, huffLeaf data d, ab] := by
    simp only [huffInsert, if_neg habc, if_neg habd]
  have hsecond : huffInsert cd [ab] = [ab, cd] := by simp only [huffInsert, if_neg hcdab]
  calc huffMerge 4 4 ([a, b, c, d].map (huffLeaf data))
      = huffMerge 3 5 (huffInsert ab [huffLeaf data c, huffLeaf data d]) := rfl
    _ = huffMerge 2 6 (huffInsert cd [ab]) := by rw [hfirst]; rfl
    _ = some (.node (.node (.leaf a) (.leaf b)) (.node (.leaf c) (.leaf d))) := by rw [hsecond]; rfl

end

/-! ### What HUF_ENC writes of one to four symbols -/

/-- The first entry of a symbol in a code table is its code. -/
theorem codeOf_cons (k e : Byte) (bits : List Bool) (codes : List (Byte × List Bool)) :
    codeOf ((k, bits) :: codes) e = if e = k then bits else codeOf codes e := by
  simp only [codeOf, List.lookup_cons]
  by_cases h : e = k
  · rw [if_pos h, h, beq_self_eq_true]
    rfl
  · rw [if_neg h, beq_false_of_ne h]

theorem ne_of_toNat_lt {a b : Byte} (h : a.toNat < b.toNat) : a ≠ b := fun heq => h.ne (heq ▸ rfl)

section
variable {data : List Byte}

/-- R181: one symbol is a one-leaf tree. -/
theorem huffBits_oneSymbol {c : Byte} (hmem : ∀ e, e ∈ data ↔ e = c) : huffBits data = true :: symbolBits c := by
  have hne : data ≠ [] := List.ne_nil_of_mem ((hmem c).2 rfl)
  have hlevels : huffLevels data = [[c]] := huffLevels_eq hne (by simp) (by simp) fun e d => by
    cases d <;> simp [leafDepths_oneSymbol hmem]
  have hheader : headerFields 1 [1] = [true] := rfl
  rw [huffBits_of_levels (code := fun _ => []) hlevels]
  · simp [hheader]
  · intro e he
    rw [(hmem e).1 he]
    exact (codeOf_cons c c [] []).trans (if_pos rfl)

/-- Two symbols have a leaf each under the root, whatever their frequencies. -/
theorem huffBits_twoSymbols {a b : Byte} (hab : a.toNat < b.toNat) (hmem : ∀ e, e ∈ data ↔ e = a ∨ e = b) :
    huffBits data =
      [false] ++ [false, true] ++ symbolBits a ++ symbolBits b ++ data.map fun e => decide (e = b) := by
  have hne : data ≠ [] := List.ne_nil_of_mem ((hmem a).2 (.inl rfl))
  have hdepths : ∀ e d, (e, d) ∈ leafDepths data ↔ (e = a ∨ e = b) ∧ d = 1 := by
    obtain hl | hl := leafBefore_total data hab.ne
    · simp [leafDepths_twoSymbols hmem hl, or_and_right]
    · simp [leafDepths_twoSymbols (fun e => (hmem e).trans or_comm) hl, or_and_right, or_comm]
  have hlevels : huffLevels data = [[], [a, b]] := huffLevels_eq hne (by simp [hab]) (by simp) fun e d => by
    match d with
    | 0 | 1 | d + 2 => simp [hdepths]
  have hheader : headerFields 1 [0, 2] = [false, false, true] := rfl
  have hcodes : huffCodes 0 0 [[], [a, b]] = [(a, [false]), (b, [true])] := rfl
  rw [huffBits_of_levels (code := fun e => [decide (e = b)]) hlevels]
  · simp [hheader, List.map_eq_flatMap]
  · intro e he
    rw [hcodes]
    obtain rfl | rfl := (hmem e).1 he
    · simp [codeOf_cons, ne_of_toNat_lt hab]
    · simp [codeOf_cons, (ne_of_toNat_lt hab).symm]

/-- Three symbols, of which `z` comes last by frequency and then by symbol. -/
theorem huffBits_threeSymbols {x y z : Byte} (hxy : x.toNat < y.toNat)
    (hmem : ∀ e, e ∈ data ↔ e = x ∨ e = y ∨ e = z) (hxz : leafBefore data x z) (hyz : leafBefore data y z) :
    huffBits data =
      [false] ++ [true, false] ++ [false, true] ++ symbolBits z ++ symbolBits x ++ symbolBits y ++
        data.flatMap (fun e => if e = z then [false] else [true, decide (e = y)]) := by
  have hne : data ≠ [] := List.ne_nil_of_mem ((hmem x).2 (.inl rfl))
  have hperm : (leafDepths data).Perm [(z, 1), (x, 2), (y, 2)] := by
    obtain hl | hl := leafBefore_total data hxy.ne
    · obtain h | h := leafDepths_threeSymbols hmem hl hxz hyz
      · exact h ▸ .trans (.cons _ (.swap ..)) (.swap ..)
      · exact h ▸ .refl _
    · obtain h | h := leafDepths_threeSymbols (fun e => (hmem e).trans or_left_comm) hl hyz hxz
      · exact h ▸ .trans (.cons _ (.swap ..)) (.trans (.swap ..) (.cons _ (.swap ..)))
      · exact h ▸ .cons _ (.swap ..)
  have hdepths : ∀ e d, (e, d) ∈ leafDepths data ↔ (e = z ∧ d = 1) ∨ ((e = x ∨ e = y) ∧ d = 2) := by
    simp [hperm.mem_iff, or_and_right]
  have hlevels : huffLevels data = [[], [z], [x, y]] := huffLevels_eq hne (by simp [hxy]) (by simp) fun e d => by
    match d with
    | 0 | 1 | 2 | d + 3 => simp [hdepths]
  have hheader : headerFields 1 [0, 1, 2] = [false] ++ [true, false] ++ [false, true] := rfl
  have hcodes : huffCodes 0 0 [[], [z], [x, y]] = [(z, [false]), (x, [true, false]), (y, [true, true])] := by
    simp [huffCodes, msbBits, intBits]
  rw [huffBits_of_levels (code := fun e => if e = z then [false] else [true, decide (e = y)]) hlevels]
  · simp [hheader]
  · intro e he
    rw [hcodes]
    have hzx : z ≠ x := by
      rintro rfl
      simp [leafBefore] at hxz
    have hzy : z ≠ y := by
      rintro rfl
      simp [leafBefore] at hyz
    simp only [codeOf_cons]
    obtain rfl | rfl | rfl := (hmem e).1 he
    · simp [hzx.symm, ne_of_toNat_lt hxy]
    · simp [hzy.symm, (ne_of_toNat_lt hxy).symm]
    · simp

/-- Four symbols with frequencies `f`, `f`, `2f` and `2f`, ascending. -/
theorem huffBits_fourSymbols {a b c d : Byte} {f : Nat}
    (hmem : ∀ e, e ∈ data ↔ e = a ∨ e = b ∨ e = c ∨ e = d) (hab : a.toNat < b.toNat) (hbc : b.toNat < c.toNat)
    (hcd : c.toNat < d.toNat) (ha : data.count a = f) (hb : data.count b = f)
    (hc : data.count c = 2 * f) (hd : data.count d = 2 * f) :
    huffBits data =
      [false] ++ [false, false] ++ [false, false, true] ++ symbolBits a ++ symbolBits b ++ symbolBits c ++
        symbolBits d ++ data.flatMap (fun e => [decide (e = c ∨ e = d), decide (e = b ∨ e = d)]) := by
  have hne : data ≠ [] := List.ne_nil_of_mem ((hmem a).2 (.inl rfl))
  have hdepths : ∀ e k, (e, k) ∈ leafDepths data ↔ (e = a ∨ e = b ∨ e = c ∨ e = d) ∧ k = 2 := by
    simp [leafDepths_fourSymbols hmem hab hbc hcd ha hb hc hd, or_and_right]
  have hasc : Ascending [a, b, c, d] := by
    simp only [List.pairwise_cons, List.mem_cons, List.not_mem_nil, or_false, forall_eq_or_imp, forall_eq,
      IsEmpty.forall_iff, implies_true, List.Pairwise.nil, and_true]
    omega
  have hlevels : huffLevels data = [[], [], [a, b, c, d]] :=
    huffLevels_eq hne (by simpa using hasc) (by simp) fun e k => by
      match k with
      | 0 | 1 | 2 | k + 3 => simp [hdepths]
  have hheader : headerFields 1 [0, 0, 4] = [false] ++ [false, false] ++ [false, false, true] := rfl
  have hcodes : huffCodes 0 0 [[], [], [a, b, c, d]] =
      [(a, [false, false]), (b, [false, true]), (c, [true, false]), (d, [true, true])] := rfl
  rw [huffBits_of_levels (code := fun e => [decide (e = c ∨ e = d), decide (e = b ∨ e = d)]) hlevels]
  · simp [hheader]
  · intro e he
    rw [hcodes]
    have hne' : a ≠ b ∧ a ≠ c ∧ a ≠ d ∧ b ≠ c ∧ b ≠ d ∧ c ≠ d := by
      refine ⟨?_, ?_, ?_, ?_, ?_, ?_⟩ <;> exact ne_of_toNat_lt (by omega)
    obtain ⟨nab, nac, nad, nbc, nbd, ncd⟩ := hne'
    simp only [codeOf_cons]
    obtain rfl | rfl | rfl | rfl := (hmem e).1 he
    · simp [nab, nac, nad]
    · simp [nab.symm, nbc, nbd]
    · simp [nac.symm, nbc.symm, ncd]
    · simp [nad.symm, nbd.symm, ncd.symm]

end

/-! ### HUF_ENC -/

theorem State.mem_inputBytes {s : State} {e : Byte} :
    e ∈ s.inputBytes ↔ ∃ k, k < s.ilen.toNat ∧ s.ibufByte k = e := by
  simp [State.inputBytes]

/-- `HUF_ENC` when its bits fit (42_huffman.md R180). -/
theorem exec_hufEnc_of_fits {s : State} {bits : List Bool} (hcap : s.ilen.toNat ≤ s.params.ibufCap)
    (hne : s.ilen ≠ 0) (hbits : huffBits s.inputBytes = bits) (hfits : s.ws.length + bits.length ≤ s.params.wsCap) :
    exec .hufEnc s = .next (s.appended bits) := by
  rw [exec_hufEnc hcap hne, hbits, s.finishWrite_wsPutAll_of_fits hfits]

theorem State.ilen_ne_zero_of_mem {s : State} {e : Byte} (h : e ∈ s.inputBytes) : s.ilen ≠ 0 := by
  rintro h0
  obtain ⟨k, hk, -⟩ := State.mem_inputBytes.1 h
  simp [h0] at hk

/-- Settles O30: the input's members are the symbols that each clause names, and `huffBits_oneSymbol` to
`huffBits_fourSymbols` say what is written of them. -/
theorem hufEncOneOrTwoSymbols : Obligations.HufEncOneOrTwoSymbols := by
  unfold Obligations.HufEncOneOrTwoSymbols
  intro s hcap
  refine ⟨fun c hlen hall hroom => ?one, fun a b hab hall ha hb hroom => ?two,
    fun x y z bits hxy hx hy hz hall hxz hyz hbits hroom => ?three,
    fun a b c d f bits hab hbc hcd hall hf ha hb hc hd hbits hroom => ?four⟩
  case one =>
    have hpos : 0 < s.ilen.toNat := BitVec.toNat_pos_of_ne_zero hlen
    have hmem (e : Byte) : e ∈ s.inputBytes ↔ e = c := by
      rw [State.mem_inputBytes]
      exact ⟨fun ⟨k, hk, he⟩ => he ▸ hall k hk, fun he => ⟨0, hpos, he ▸ hall 0 hpos⟩⟩
    have hnine : (huffBits s.inputBytes).length = 9 := by rw [huffBits_oneSymbol hmem]; simp
    rw [exec_hufEnc_of_fits hcap hlen rfl (by rwa [hnine]), State.appended, hnine, huffBits_oneSymbol hmem]
    rfl
  case two =>
    have hmem (e : Byte) : e ∈ s.inputBytes ↔ e = a ∨ e = b := by
      rw [State.mem_inputBytes]
      refine ⟨fun ⟨k, hk, he⟩ => he ▸ hall k hk, ?_⟩
      rintro (rfl | rfl)
      · exact ha
      · exact hb
    have hlen : (huffBits s.inputBytes).length = 19 + s.ilen.toNat := by
      rw [huffBits_twoSymbols hab hmem]
      simp only [List.length_append, List.length_cons, List.length_nil, symbolBits_length, List.length_map,
        State.inputBytes_length]
    have hbody : s.inputBytes.map (fun e => decide (e = b)) =
        (List.range s.ilen.toNat).map fun k => decide (s.ibufByte k = b) := List.map_map
    rw [exec_hufEnc_of_fits hcap (State.ilen_ne_zero_of_mem ((hmem a).2 (.inl rfl))) rfl (by rwa [hlen]),
      State.appended, hlen, huffBits_twoSymbols hab hmem, hbody]
  case three =>
    have hmem (e : Byte) : e ∈ s.inputBytes ↔ e = x ∨ e = y ∨ e = z :=
      ⟨hall e, by rintro (rfl | rfl | rfl) <;> assumption⟩
    exact exec_hufEnc_of_fits hcap (State.ilen_ne_zero_of_mem hx)
      ((huffBits_threeSymbols hxy hmem hxz hyz).trans hbits.symm) hroom
  case four =>
    have hmem (e : Byte) : e ∈ s.inputBytes ↔ e = a ∨ e = b ∨ e = c ∨ e = d := by
      refine ⟨hall e, ?_⟩
      rintro (rfl | rfl | rfl | rfl) <;> exact List.count_pos_iff.1 (by omega)
    exact exec_hufEnc_of_fits hcap (State.ilen_ne_zero_of_mem ((hmem a).2 (.inl rfl)))
      ((huffBits_fourSymbols hmem hab hbc hcd ha hb hc hd).trans hbits.symm) hroom

end Sys2Proof.Machine
end

section
/-!
The LZSS window, its candidates, and what one emission of the encoder can be (43_lzss.md R200 to R205). Both
coders keep as their window the trimmed sequence of all bytes so far. This is what settles O31 and O32.
-/

namespace Sys2Proof.Machine

/-! ### The window -/

@[simp] theorem trimWindow_length (m : Nat) (w : List Byte) : (trimWindow m w).length = min m w.length := by
  simp only [trimWindow, List.length_drop]
  omega

theorem trimWindow_of_length_le {m : Nat} {w : List Byte} (h : w.length ≤ m) : trimWindow m w = w := by
  rw [trimWindow, Nat.sub_eq_zero_of_le h, List.drop_zero]

theorem trimWindow_zero (w : List Byte) : trimWindow 0 w = [] := List.drop_length

/-- What a trim dropped stays dropped (43_lzss.md R204). -/
theorem trimWindow_trimWindow_append (m : Nat) (w s : List Byte) :
    trimWindow m (trimWindow m w ++ s) = trimWindow m (w ++ s) := by
  have hgrown : trimWindow m w ++ s = (w ++ s).drop (w.length - m) :=
    (List.drop_append_of_le_length (Nat.sub_le ..)).symm
  rw [hgrown, trimWindow, List.drop_drop, trimWindow, List.length_drop, List.length_append]
  congr 1
  omega

/-! ### Candidates -/

theorem mem_matchStarts {w : List Byte} {c : Byte} {p : Nat} : p ∈ matchStarts w c ↔ w[p]? = some c := by
  simp only [matchStarts, List.mem_filter, List.mem_range, decide_eq_true_eq, and_iff_right_iff_imp]
  exact fun h => (List.getElem?_eq_some_iff.1 h).1

theorem matchStarts_singleton (c : Byte) : matchStarts [c] c = [0] := by simp [matchStarts]

theorem pickCandidate_minPosition {ps : List Nat} (h : ps ≠ []) :
    ps.min? = some (pickCandidate .minPosition ps) := by
  obtain ⟨p, ps, rfl⟩ := List.exists_cons_of_ne_nil h
  rw [List.min?_cons', pickCandidate, List.headD_cons, List.foldl_cons, Nat.min_self]

theorem pickCandidate_mem (rule : PickRule) {ps : List Nat} (h : ps ≠ []) : pickCandidate rule ps ∈ ps := by
  cases rule with
  | minPosition => exact List.min?_mem (pickCandidate_minPosition h)
  | other k =>
    obtain ⟨p, ps, rfl⟩ := List.exists_cons_of_ne_nil h
    rw [pickCandidate]
    split
    · assumption
    · exact List.mem_cons_self

theorem pickCandidate_singleton (rule : PickRule) (p : Nat) : pickCandidate rule [p] = p :=
  List.mem_singleton.1 (pickCandidate_mem rule (List.cons_ne_nil p []))

/-- Settles O32: the default choice is the minimum of the list, and the model checks that any other is a
member. -/
theorem lzssPickTakesACandidate : Obligations.LzssPickTakesACandidate := by
  unfold Obligations.LzssPickTakesACandidate
  rintro rule ps h
  refine ⟨pickCandidate_mem rule h, ?_⟩
  rintro rfl p hp
  exact (List.min?_eq_some_iff.1 (pickCandidate_minPosition h)).2 p hp

/-! ### Matches -/

/-- `s` stands at position `p` of the window `w` once `w` has grown by `s` (43_lzss.md R202): the source of a
match may overlap the match. -/
def RepeatsAt (w : List Byte) (p : Nat) (s : List Byte) : Prop := ∀ k, k < s.length → (w ++ s)[p + k]? = s[k]?

section
variable {w s : List Byte} {p : Nat}

theorem repeatsAt_append (hp : p < w.length) {c : Byte} :
    RepeatsAt w p (s ++ [c]) ↔ RepeatsAt w p s ∧ (w ++ s)[p + s.length]? = some c := by
  simp only [RepeatsAt, ← List.append_assoc, List.length_append, List.length_singleton]
  rw [Nat.forall_lt_succ_right]
  have hlast : (w ++ s ++ [c])[p + s.length]? = (w ++ s)[p + s.length]? :=
    List.getElem?_append_left (by rw [List.length_append]; omega)
  rw [hlast, List.getElem?_concat_length]
  refine and_congr_left' (forall₂_congr fun k hk => ?_)
  rw [List.getElem?_append_left (by rw [List.length_append]; omega), List.getElem?_append_left hk]

theorem RepeatsAt.of_append {t : List Byte} (hp : p < w.length) (h : RepeatsAt w p (s ++ t)) : RepeatsAt w p s := by
  induction t using List.reverseRecOn with
  | nil => rwa [List.append_nil] at h
  | append_singleton t c ih =>
    rw [← List.append_assoc] at h
    exact ih ((repeatsAt_append hp).1 h).1

/-- A candidate for a first byte repeats that byte. -/
theorem repeatsAt_of_mem_matchStarts {c : Byte} (h : p ∈ matchStarts w c) : p < w.length ∧ RepeatsAt w p [c] := by
  have hget := mem_matchStarts.1 h
  have hlt : p < w.length := (List.getElem?_eq_some_iff.1 hget).1
  refine ⟨hlt, (repeatsAt_append hlt (s := [])).2 ⟨nofun, ?_⟩⟩
  rwa [List.append_nil]

/-- The copy of a match reproduces the bytes that the encoder matched (43_lzss.md R208). -/
theorem copyMatch_of_repeatsAt (hp : p < w.length) (h : RepeatsAt w p s) :
    copyMatch (w.length - p - 1) s.length w = w ++ s := by
  induction s generalizing w p with
  | nil => exact (List.append_nil w).symm
  | cons x s ih =>
    have hhead : w.getD p 0 = x := by
      have hget := h 0 (Nat.succ_pos _)
      rw [Nat.add_zero, List.getElem?_append_left hp, List.getElem?_cons_zero] at hget
      rw [List.getD_eq_getElem?_getD, hget, Option.getD_some]
    have htail : RepeatsAt (w ++ [x]) (p + 1) s := fun k hk => by
      have hget := h (k + 1) (Nat.succ_lt_succ hk)
      rwa [List.append_cons, ← Nat.add_assoc, Nat.add_right_comm, List.getElem?_cons_succ] at hget
    have hih := ih (w := w ++ [x]) (p := p + 1) (by simp; omega) htail
    rw [List.length_append, List.length_singleton, Nat.add_sub_add_right] at hih
    rw [List.length_cons, copyMatch, show w.length - (w.length - p - 1) - 1 = p by omega, hhead, hih,
      ← List.append_cons]

end

/-! ### The extension loop -/

section
variable {m : Nat} {w s : List Byte} {ps : List Nat}

/-- The loop stops at the end of the input, or when the match is as long as the bound (43_lzss.md R202). -/
theorem extendMatch_stop {rest : List Byte} {len : Nat} (h : rest = [] ∨ m ≤ len) :
    extendMatch m w ps len rest = (w, ps, len, rest) := by
  cases rest with
  | nil => rfl
  | cons c rest => rw [extendMatch, if_neg (h.resolve_left (List.cons_ne_nil c rest)).not_gt]

theorem extendMatch_cons {c : Byte} {data : List Byte} {len : Nat} (hlen : len < m)
    (hps : (ps.filter fun p => decide (w[p + len]? = some c)) ≠ []) :
    extendMatch m w ps len (c :: data) =
      extendMatch m (w ++ [c]) (ps.filter fun p => decide (w[p + len]? = some c)) (len + 1) data := by
  rw [extendMatch, if_pos hlen, if_neg (by rwa [List.isEmpty_iff])]

theorem extendMatch_break {c : Byte} {data : List Byte} {len : Nat}
    (hps : (ps.filter fun p => decide (w[p + len]? = some c)) = []) :
    extendMatch m w ps len (c :: data) = (w, ps, len, c :: data) := by
  rw [extendMatch]
  split
  · rw [if_pos (List.isEmpty_iff.2 hps)]
  · rfl

/-- What the loop may answer when `s` is matched so far (43_lzss.md R202): it has taken some bytes of the input,
the match is within the bound, and some candidates are left, each of which repeats the whole match. -/
def MatchEnd (m : Nat) (w s data : List Byte) : List Byte × List Nat × Nat × List Byte → Prop
  | (w', ps', len, rest) => ∃ ext, data = ext ++ rest ∧ w' = w ++ (s ++ ext) ∧ len = (s ++ ext).length ∧ len ≤ m ∧
      ps' ≠ [] ∧ ∀ p ∈ ps', p < w.length ∧ RepeatsAt w p (s ++ ext)

theorem matchEnd_self (data : List Byte) (hps : ps ≠ []) (hs : s.length ≤ m)
    (hrep : ∀ p ∈ ps, p < w.length ∧ RepeatsAt w p s) : MatchEnd m w s data (w ++ s, ps, s.length, data) :=
  ⟨[], rfl, by rw [List.append_nil], by rw [List.append_nil], hs, hps, by rwa [List.append_nil]⟩

theorem MatchEnd.cons {c : Byte} {data : List Byte} {x : List Byte × List Nat × Nat × List Byte}
    (h : MatchEnd m w (s ++ [c]) data x) : MatchEnd m w s (c :: data) x := by
  obtain ⟨ext, rfl, hw, hlen, hm, hps, hrep⟩ := h
  rw [← List.append_cons] at hw hlen hrep
  exact ⟨c :: ext, rfl, hw, hlen, hm, hps, hrep⟩

theorem extendMatch_matchEnd (data : List Byte) (hps : ps ≠ []) (hs : s.length ≤ m)
    (hrep : ∀ p ∈ ps, p < w.length ∧ RepeatsAt w p s) :
    MatchEnd m w s data (extendMatch m (w ++ s) ps s.length data) := by
  induction data generalizing s ps with
  | nil => exact matchEnd_self [] hps hs hrep
  | cons c data ih =>
    obtain hm | hlt := hs.eq_or_lt
    · rw [extendMatch_stop (.inr hm.ge)]
      exact matchEnd_self _ hps hs hrep
    by_cases hps' : (ps.filter fun p => decide ((w ++ s)[p + s.length]? = some c)) = []
    · rw [extendMatch_break hps']
      exact matchEnd_self _ hps hs hrep
    have hgrown : (s ++ [c]).length = s.length + 1 := List.length_append
    rw [extendMatch_cons hlt hps', List.append_assoc, ← hgrown]
    refine (ih hps' (by rwa [hgrown]) fun p hp => ?_).cons
    obtain ⟨hmem, hnext⟩ := List.mem_filter.1 hp
    obtain ⟨hp', hs'⟩ := hrep p hmem
    exact ⟨hp', (repeatsAt_append hp').2 ⟨hs', of_decide_eq_true hnext⟩⟩

/-- When every candidate repeats the bytes `ext`, up to the end of the input or to the bound, the loop takes them
and keeps all candidates. -/
theorem extendMatch_of_repeatsAt {ext rest : List Byte} (hps : ps ≠ []) (hlen : (s ++ ext).length ≤ m)
    (hstop : rest = [] ∨ m ≤ (s ++ ext).length) (hrep : ∀ p ∈ ps, p < w.length ∧ RepeatsAt w p (s ++ ext)) :
    extendMatch m (w ++ s) ps s.length (ext ++ rest) = (w ++ (s ++ ext), ps, (s ++ ext).length, rest) := by
  induction ext generalizing s with
  | nil =>
    rw [List.append_nil] at hstop ⊢
    exact extendMatch_stop hstop
  | cons c ext ih =>
    rw [List.append_cons] at hlen hstop hrep ⊢
    have hnext : ∀ p ∈ ps, decide ((w ++ s)[p + s.length]? = some c) = true := fun p hp => by
      obtain ⟨hlt, hp'⟩ := hrep p hp
      exact decide_eq_true ((repeatsAt_append hlt).1 (hp'.of_append hlt)).2
    have hfilter : ps.filter (fun p => decide ((w ++ s)[p + s.length]? = some c)) = ps := List.filter_eq_self.2 hnext
    rw [List.cons_append, extendMatch_cons (by simp at hlen; omega) (by rwa [hfilter]), hfilter, ← ih hlen hstop hrep,
      List.append_assoc, List.length_append, List.length_singleton]

end

/-! ### Emissions of the encoder -/

section
variable (pick : PickRule) (m fuel : Nat) {w : List Byte}

@[simp] theorem lzssBitsFrom_nil : lzssBitsFrom pick m fuel w [] = [] := by cases fuel <;> rfl

/-- A byte that the window does not hold is a literal (43_lzss.md R201). -/
theorem lzssBitsFrom_literal {c : Byte} (data : List Byte) (h : matchStarts w c = []) :
    lzssBitsFrom pick m (fuel + 1) w (c :: data) =
      false :: symbolBits c ++ lzssBitsFrom pick m fuel (trimWindow m (w ++ [c])) data := by
  rw [lzssBitsFrom, h, symbolBits_eq_intBits]
  rfl

/-- Any other byte starts a match, which the extension loop ends (43_lzss.md R202, R203). -/
theorem lzssBitsFrom_match {c : Byte} {data w' data' : List Byte} {ps' : List Nat} {len : Nat}
    (h : matchStarts w c ≠ [])
    (hext : extendMatch m (w ++ [c]) (matchStarts w c) 1 data = (w', ps', len, data')) (hlen : len ≠ 0) :
    lzssBitsFrom pick m (fuel + 1) w (c :: data) =
      true :: fieldBits (w.length - pickCandidate pick ps' - 1) (bitsFor w.length) ++ monoCode len ++
        lzssBitsFrom pick m fuel (trimWindow m w') data' := by
  simp only [lzssBitsFrom, if_neg (mt List.isEmpty_iff.1 h), hext]
  rw [fieldBits_eq_intBits, monoCode_eq_monoBits hlen]

/-- A match whose candidates all repeat it, up to the end of the input or to the bound. -/
theorem lzssBitsFrom_of_repeatsAt {c : Byte} {s rest : List Byte} {ps : List Nat} (hstarts : matchStarts w c = ps)
    (hps : ps ≠ []) (hlen : (c :: s).length ≤ m) (hstop : rest = [] ∨ m ≤ (c :: s).length)
    (hrep : ∀ p ∈ ps, RepeatsAt w p (c :: s)) :
    lzssBitsFrom pick m (fuel + 1) w (c :: s ++ rest) =
      true :: fieldBits (w.length - pickCandidate pick ps - 1) (bitsFor w.length) ++ monoCode (c :: s).length ++
        lzssBitsFrom pick m fuel (trimWindow m (w ++ c :: s)) rest := by
  subst hstarts
  exact lzssBitsFrom_match pick m fuel hps (extendMatch_of_repeatsAt (s := [c]) hps hlen hstop fun p hp =>
    ⟨(repeatsAt_of_mem_matchStarts hp).1, hrep p hp⟩) (Nat.succ_ne_zero _)

/-- One emission over the window `w` (43_lzss.md R201 to R205): a literal, or a match that the decoder's copy turns
back into the bytes it stands for. -/
inductive Emission (m : Nat) (w : List Byte) : List Byte → List Bool → Prop
  | literal (c : Byte) : Emission m w [c] (false :: symbolBits c)
  | copy {dist : Nat} {s : List Byte} (hne : s ≠ []) (hm : s.length ≤ m) (hdist : dist < w.length)
      (hcopy : copyMatch dist s.length w = w ++ s) :
      Emission m w s (true :: fieldBits dist (bitsFor w.length) ++ monoCode s.length)

theorem Emission.ne_nil {s : List Byte} {bits : List Bool} (h : Emission m w s bits) : s ≠ [] := by
  cases h with
  | literal c => exact List.cons_ne_nil c []
  | copy hne => exact hne

/-- A pass of the encoder is one emission, of the bytes at the front of its input. -/
theorem exists_emission (hw : w.length ≤ m) (c : Byte) (data : List Byte) :
    ∃ s rest bits, c :: data = s ++ rest ∧ Emission m w s bits ∧
      lzssBitsFrom pick m (fuel + 1) w (c :: data) =
        bits ++ lzssBitsFrom pick m fuel (trimWindow m (w ++ s)) rest := by
  by_cases hstarts : matchStarts w c = []
  · exact ⟨[c], data, _, rfl, .literal c, lzssBitsFrom_literal pick m fuel data hstarts⟩
  have hrep : ∀ p ∈ matchStarts w c, p < w.length ∧ RepeatsAt w p [c] := fun _ => repeatsAt_of_mem_matchStarts
  obtain ⟨p, hp⟩ := List.exists_mem_of_ne_nil _ hstarts
  have hone : [c].length ≤ m := (Nat.succ_le_of_lt (Nat.zero_lt_of_lt (hrep p hp).1)).trans hw
  have hend := extendMatch_matchEnd data hstarts hone hrep
  rcases hext : extendMatch m (w ++ [c]) (matchStarts w c) [c].length data with ⟨w', ps', len, rest⟩
  rw [hext] at hend
  obtain ⟨ext, rfl, rfl, rfl, hlen, hps', hall⟩ := hend
  obtain ⟨hlt, hcopy⟩ := hall _ (pickCandidate_mem pick hps')
  exact ⟨c :: ext, rest, _, rfl,
    .copy (List.cons_ne_nil c ext) hlen (by omega) (copyMatch_of_repeatsAt hlt hcopy),
    lzssBitsFrom_match pick m fuel hstarts hext (Nat.succ_ne_zero _)⟩

end

/-! ### LZSS_ENC -/

/-- `LZSS_ENC` when its bits fit (43_lzss.md R207). -/
theorem exec_lzssEnc_of_fits {s : State} {bits : List Bool} (hcap : s.ilen.toNat ≤ s.params.ibufCap)
    (hbits : lzssBits s.params.pick s.arg1.toNat s.inputBytes = bits)
    (hfits : s.ws.length + bits.length ≤ s.params.wsCap) : exec .lzssEnc s = .next (s.appended bits) := by
  rw [exec_lzssEnc hcap, hbits, s.finishWrite_wsPutAll_of_fits hfits]

/-- A literal is 9 bits (43_lzss.md R201). -/
theorem length_literals (data : List Byte) : (data.flatMap fun c => false :: symbolBits c).length = 9 * data.length := by
  simp [List.length_flatMap, Nat.mul_comm]

/-- With window bound 0 the window stays empty, so every byte is a literal. -/
theorem lzssBits_zero (pick : PickRule) (data : List Byte) :
    lzssBits pick 0 data = data.flatMap fun c => false :: symbolBits c := by
  unfold lzssBits
  induction data with
  | nil => rfl
  | cons c data ih => rw [List.length_cons, lzssBitsFrom_literal pick 0 _ data rfl, trimWindow_zero, ih]; rfl

/-- Settles O31: the bits of a window bound 0 are the literals of the input. -/
theorem lzssEncWindowZeroIsLiterals : Obligations.LzssEncWindowZeroIsLiterals := by
  unfold Obligations.LzssEncWindowZeroIsLiterals
  intro s hbound hcap hroom
  have hbound' : s.arg1.toNat = 0 := congrArg BitVec.toNat hbound
  have hlen : (s.inputBytes.flatMap fun c => false :: symbolBits c).length = 9 * s.ilen.toNat := by
    rw [length_literals, State.inputBytes_length]
  have hinput : s.inputBytes.flatMap (fun c => false :: symbolBits c) =
      (List.range s.ilen.toNat).flatMap fun k => false :: symbolBits (s.ibufByte k) := List.flatMap_map ..
  rw [exec_lzssEnc_of_fits hcap (by rw [hbound', lzssBits_zero]) (by rwa [hlen]), State.appended, hlen, hinput]

end Sys2Proof.Machine
end

section
/-!
The LZSS decoder on a stream that is known to go on with given fields (43_lzss.md R208): what settles O39 and O40,
and what the round trip reads with.
-/

namespace Sys2Proof.Machine

/-! ### Streams that start with a flag -/

theorem Reader.holds_cons {r : Reader} {b : Bool} {bs : List Bool} :
    r.Holds (b :: bs) ↔ r.Holds [b] ∧ (r.skip 1).Holds bs := Reader.holds_append (as := [b])

theorem Reader.EndsWithin.skip {r : Reader} {bits : List Bool} {n : Nat} (h : r.EndsWithin bits n) :
    r.Holds bits ∧ (r.skip bits.length).EndsWithin [] n :=
  Reader.EndsWithin.append (bs := []) (by rwa [List.append_nil])

/-! ### One pass of the decoder -/

section
variable {r : Reader} {n m fuel : Nat} {w out : List Byte} (hn : out.length < n)
include hn

theorem lzssDecodeFrom_noFlag (h : r.get = .error .streamExhausted) :
    lzssDecodeFrom n m (fuel + 1) w out r = .error .streamExhausted := by
  rw [lzssDecodeFrom, if_neg hn.not_ge, h]
  rfl

/-- After a flag 0 comes a symbol. -/
theorem Reader.Holds.lzssDecodeFrom_false (h : r.Holds [false]) :
    lzssDecodeFrom n m (fuel + 1) w out r = (do
      let (c, r) ← (r.skip 1).getByte
      lzssDecodeFrom n m fuel (trimWindow m (w ++ [c])) (out ++ [c]) r) := by
  rw [lzssDecodeFrom, if_neg hn.not_ge, h.get]
  rfl

theorem Reader.Holds.lzssDecodeFrom_emptyWindow (h : r.Holds [true]) (hw : w.length = 0) :
    lzssDecodeFrom n m (fuel + 1) w out r = .error .malformedHeader := by
  rw [lzssDecodeFrom, if_neg hn.not_ge, h.get]
  exact if_pos hw

/-- After a flag 1 and over a window that holds some byte comes a distance, and after it a length. -/
theorem Reader.Holds.lzssDecodeFrom_true (h : r.Holds [true]) (hw : w.length ≠ 0) :
    lzssDecodeFrom n m (fuel + 1) w out r = (do
      let (dist, r) ← (r.skip 1).getInt (bitsFor w.length)
      if w.length ≤ dist then .error .malformedHeader
      else do
        let (len, r) ← Machine.unmono r
        if m < len ∨ n < out.length + len then .error .malformedHeader
        else
          lzssDecodeFrom n m fuel (trimWindow m (copyMatch dist len w))
            (out ++ (copyMatch dist len w).drop w.length) r) := by
  rw [lzssDecodeFrom, if_neg hn.not_ge, h.get]
  exact if_neg hw

theorem lzssDecodeFrom_shortSymbol (h : r.EndsWithin [false] 8) :
    lzssDecodeFrom n m (fuel + 1) w out r = .error .streamExhausted := by
  obtain ⟨hflag, hend⟩ : r.Holds [false] ∧ (r.skip 1).EndsWithin [] 8 := h.skip
  rw [hflag.lzssDecodeFrom_false hn, hend.getByte]
  rfl

theorem lzssDecodeFrom_shortDistance (hw : w.length ≠ 0) (h : r.EndsWithin [true] (bitsFor w.length)) :
    lzssDecodeFrom n m (fuel + 1) w out r = .error .streamExhausted := by
  obtain ⟨hflag, hend⟩ : r.Holds [true] ∧ (r.skip 1).EndsWithin [] (bitsFor w.length) := h.skip
  rw [hflag.lzssDecodeFrom_true hn hw, hend.getInt]
  rfl

/-- A literal adds its symbol to the output and the window. -/
theorem Reader.Holds.lzssDecodeFrom_literal {c : Byte} (h : r.Holds (false :: symbolBits c)) :
    lzssDecodeFrom n m (fuel + 1) w out r =
      lzssDecodeFrom n m fuel (trimWindow m (w ++ [c])) (out ++ [c]) (r.skip 9) := by
  obtain ⟨hflag, hsymbol⟩ := Reader.holds_cons.1 h
  rw [hflag.lzssDecodeFrom_false hn, hsymbol.getByte, Reader.skip_skip]
  rfl

section
variable {dist : Nat} (h : r.Holds (true :: fieldBits dist (bitsFor w.length)))
include h

theorem Reader.Holds.lzssDecodeFrom_far (hw : w.length ≠ 0) (hfar : w.length ≤ dist) (hdist : dist < 2 ^ bitsFor w.length) :
    lzssDecodeFrom n m (fuel + 1) w out r = .error .malformedHeader := by
  obtain ⟨hflag, hfield⟩ := Reader.holds_cons.1 h
  rw [hflag.lzssDecodeFrom_true hn hw, hfield.getInt_field hdist]
  exact if_pos hfar

/-- After a distance inside the window comes the length. -/
theorem Reader.Holds.lzssDecodeFrom_distance (hdist : dist < w.length) :
    lzssDecodeFrom n m (fuel + 1) w out r = (do
      let (len, r) ← Machine.unmono (r.skip (true :: fieldBits dist (bitsFor w.length)).length)
      if m < len ∨ n < out.length + len then .error .malformedHeader
      else
        lzssDecodeFrom n m fuel (trimWindow m (copyMatch dist len w))
          (out ++ (copyMatch dist len w).drop w.length) r) := by
  obtain ⟨hflag, hfield⟩ := Reader.holds_cons.1 h
  rw [hflag.lzssDecodeFrom_true hn (Nat.ne_zero_of_lt hdist),
    hfield.getInt_field (hdist.trans_le (le_two_pow_bitsFor _)), Reader.skip_skip]
  simp only [bind, Except.bind, if_neg hdist.not_ge, List.length_cons, fieldBits_length,
    Nat.add_comm (bitsFor w.length) 1]

end

section
variable {dist len : Nat} (hdist : dist < w.length) (hlen : len ≠ 0)
  (h : r.Holds (true :: fieldBits dist (bitsFor w.length) ++ monoCode len))
include hdist hlen h

theorem Reader.Holds.lzssDecodeFrom_long (hlong : m < len ∨ n < out.length + len) :
    lzssDecodeFrom n m (fuel + 1) w out r = .error .malformedHeader := by
  obtain ⟨hfields, hcode⟩ := Reader.holds_append.1 h
  rw [hfields.lzssDecodeFrom_distance hn hdist, hcode.unmono hlen]
  exact if_pos hlong

/-- A match adds the bytes that its copy adds. -/
theorem Reader.Holds.lzssDecodeFrom_match (hm : len ≤ m) (hfits : out.length + len ≤ n) {s : List Byte}
    (hcopy : copyMatch dist len w = w ++ s) :
    lzssDecodeFrom n m (fuel + 1) w out r =
      lzssDecodeFrom n m fuel (trimWindow m (w ++ s)) (out ++ s)
        (r.skip (true :: fieldBits dist (bitsFor w.length) ++ monoCode len).length) := by
  obtain ⟨hfields, hcode⟩ := Reader.holds_append.1 h
  rw [hfields.lzssDecodeFrom_distance hn hdist, hcode.unmono hlen]
  refine (if_neg (not_or.2 ⟨hm.not_gt, hfits.not_gt⟩)).trans ?_
  rw [hcopy, List.drop_left, Reader.skip_skip, List.length_append (bs := monoCode len), monoCode_length]

end

end

/-! ### Literals -/

/-- With the output complete nothing is read. -/
theorem lzssDecodeFrom_done {n m fuel : Nat} {w out : List Byte} {r : Reader} (h : n ≤ out.length) :
    lzssDecodeFrom n m fuel w out r = .ok (out, r) := by
  cases fuel with
  | zero => rfl
  | succ fuel => rw [lzssDecodeFrom, if_pos h]

/-- A run of literals; the window holds the end of the output. -/
theorem Reader.Holds.lzssDecodeFrom_literals {r : Reader} {n m fuel : Nat} {out data : List Byte}
    (hn : out.length + data.length ≤ n) (h : r.Holds (data.flatMap fun c => false :: symbolBits c)) :
    lzssDecodeFrom n m (fuel + data.length) (trimWindow m out) out r =
      lzssDecodeFrom n m fuel (trimWindow m (out ++ data)) (out ++ data) (r.skip (9 * data.length)) := by
  induction data generalizing out r with
  | nil => rw [List.append_nil]; rfl
  | cons c data ih =>
    obtain ⟨hliteral, hrest⟩ := Reader.holds_append.1 h
    rw [List.length_cons] at hn
    have hih := ih (out := out ++ [c]) (r := r.skip 9) (by simp; omega) hrest
    rw [List.length_cons, ← Nat.add_assoc, hliteral.lzssDecodeFrom_literal (by omega), trimWindow_trimWindow_append, hih,
      ← List.append_cons, Reader.skip_skip, Nat.mul_succ, Nat.add_comm 9]

/-- The decoder after its first literals: the window holds the last `M` of them. -/
theorem Reader.Holds.lzssDecode_literals {r : Reader} {data : List Byte} (m n : Nat) (hn : data.length ≤ n)
    (h : r.Holds (data.flatMap fun c => false :: symbolBits c)) :
    lzssDecode m n r =
      lzssDecodeFrom n m (n - data.length) (trimWindow m data) data
        (r.skip (data.flatMap fun c => false :: symbolBits c).length) := by
  have hrun := h.lzssDecodeFrom_literals (n := n) (m := m) (fuel := n - data.length) (out := []) (by simpa using hn)
  rw [Nat.sub_add_cancel hn, ← length_literals, List.nil_append, trimWindow_of_length_le (Nat.zero_le m)] at hrun
  exact hrun

/-! ### LZSS_DEC -/

/-- Settles O39: the output is complete after the literals. -/
theorem lzssDecReadsLiterals : Obligations.LzssDecReadsLiterals := by
  unfold Obligations.LzssDecReadsLiterals
  intro s data hr hn hlen h
  have hdec := (State.reader_holds h).lzssDecode_literals s.arg1.toNat s.arg0.toNat hlen.le
  rw [lzssDecodeFrom_done hlen.ge, length_literals] at hdec
  rw [exec_lzssDec]
  exact State.decodeCommand_skip hr hn hlen hdec

/-- Settles O40: after the literals, each clause is what one pass of the decoder answers for such a stream. -/
theorem lzssDecRejectsMatchWithoutWindow : Obligations.LzssDecRejectsMatchWithoutWindow := by
  unfold Obligations.LzssDecRejectsMatchWithoutWindow
  rintro s data _ _ hr hn hlen rfl rfl
  set lits := data.flatMap fun c => false :: symbolBits c
  obtain ⟨fuel, hfuel⟩ : ∃ fuel, s.arg0.toNat - data.length = fuel + 1 :=
    Nat.exists_eq_succ_of_ne_zero (Nat.sub_ne_zero_of_lt hlen)
  have hfail {e : ErrCode} (h : s.reader.Holds lits)
      (hpass : lzssDecodeFrom s.arg0.toNat s.arg1.toNat (fuel + 1) (trimWindow s.arg1.toNat data) data
        (s.reader.skip lits.length) = .error e) :
      ∃ t, exec .lzssDec s = .next t ∧ s.failedSpoiling s.arg0.toNat e t := by
    rw [exec_lzssDec]
    exact State.decodeCommand_error hr hn ((h.lzssDecode_literals _ _ hlen.le).trans (hfuel ▸ hpass))
  rw [← trimWindow_length]
  refine ⟨fun hw h => ?emptyWindow, fun dist hw hfar hdist h => ?far, fun dist len hdist hpos hlong h => ?long, ?short⟩
  case emptyWindow =>
    obtain ⟨hdata, hflag⟩ := Reader.holds_append.1 (State.reader_holds h)
    exact hfail hdata (hflag.lzssDecodeFrom_emptyWindow hlen hw)
  case far =>
    obtain ⟨hdata, hfields⟩ := Reader.holds_append.1 (State.reader_holds h)
    exact hfail hdata (hfields.lzssDecodeFrom_far hlen hw hfar hdist)
  case long =>
    rw [List.append_assoc] at h
    obtain ⟨hdata, hfields⟩ := Reader.holds_append.1 (State.reader_holds h)
    exact hfail hdata (hfields.lzssDecodeFrom_long hlen hdist (Nat.pos_iff_ne_zero.1 hpos) hlong)
  case short =>
    rintro (h | h | ⟨hw, h⟩ | ⟨dist, hdist, h⟩)
    · obtain ⟨hdata, hend⟩ := (State.reader_endsWithin h).skip
      exact hfail hdata (lzssDecodeFrom_noFlag hlen hend.get)
    · obtain ⟨hdata, hend⟩ := (State.reader_endsWithin h).append
      exact hfail hdata (lzssDecodeFrom_shortSymbol hlen hend)
    · obtain ⟨hdata, hend⟩ := (State.reader_endsWithin h).append
      exact hfail hdata (lzssDecodeFrom_shortDistance hlen hw hend)
    · obtain ⟨hheld, hcode⟩ := State.unmono_endsInCode h
      obtain ⟨hdata, hfields⟩ := Reader.holds_append.1 hheld
      rw [List.length_append, ← Reader.skip_skip] at hcode
      refine hfail hdata ?_
      rw [hfields.lzssDecodeFrom_distance hlen hdist, hcode]
      rfl

end Sys2Proof.Machine
end

section
/-!
The LZSS decoder on what the encoder wrote (43_lzss.md R209): what settles O45. Each emission of the encoder is
one pass of the decoder, and both then have the same window.
-/

namespace Sys2Proof.Machine

/-- One pass of the decoder turns an emission back into its bytes. -/
theorem Emission.lzssDecodeFrom {m n fuel : Nat} {w s out : List Byte} {bits : List Bool} {r : Reader}
    (h : Emission m w s bits) (hr : r.Holds bits) (hn : out.length + s.length ≤ n) :
    Machine.lzssDecodeFrom n m (fuel + 1) w out r =
      Machine.lzssDecodeFrom n m fuel (trimWindow m (w ++ s)) (out ++ s) (r.skip bits.length) := by
  have hpass : out.length < n := by
    have := List.length_pos_iff.2 h.ne_nil
    omega
  cases h with
  | literal c => exact hr.lzssDecodeFrom_literal hpass
  | copy hne hm hdist hcopy =>
    exact hr.lzssDecodeFrom_match hpass hdist (mt List.length_eq_zero_iff.1 hne) hm hn hcopy

/-- The decoder inverts the encoder after any bytes `out`: both windows hold the end of them. -/
theorem Reader.Holds.lzssDecodeFrom_lzssBitsFrom (pick : PickRule) (m : Nat) {fuel : Nat} {out data : List Byte}
    {r : Reader} (hfuel : data.length ≤ fuel) (h : r.Holds (lzssBitsFrom pick m fuel (trimWindow m out) data)) :
    lzssDecodeFrom (out ++ data).length m fuel (trimWindow m out) out r =
      .ok (out ++ data, r.skip (lzssBitsFrom pick m fuel (trimWindow m out) data).length) := by
  induction fuel generalizing out data r with
  | zero =>
    obtain rfl := List.length_eq_zero_iff.1 (Nat.le_zero.1 hfuel)
    rw [List.append_nil]
    rfl
  | succ fuel ih =>
    cases data with
    | nil =>
      rw [List.append_nil, lzssDecodeFrom_done le_rfl, lzssBitsFrom_nil]
      rfl
    | cons c data =>
      have hw : (trimWindow m out).length ≤ m := (trimWindow_length m out).trans_le (Nat.min_le_left ..)
      obtain ⟨s, rest, bits, hdata, hemission, hbits⟩ := exists_emission pick m fuel hw c data
      rw [trimWindow_trimWindow_append] at hbits
      rw [hbits] at h ⊢
      obtain ⟨hfirst, hrest⟩ := Reader.holds_append.1 h
      have hs := List.length_pos_iff.2 hemission.ne_nil
      rw [hdata] at hfuel ⊢
      rw [List.length_append] at hfuel
      have hdec := ih (by omega) hrest
      rw [List.append_assoc, Reader.skip_skip, ← List.length_append] at hdec
      rw [hemission.lzssDecodeFrom hfirst (by simp), trimWindow_trimWindow_append, hdec]

/-- The decoder inverts the encoder and reads exactly its bits (43_lzss.md R209). -/
theorem Reader.Holds.lzssDecode_lzssBits {pick : PickRule} {m : Nat} {data : List Byte} {r : Reader}
    (h : r.Holds (lzssBits pick m data)) :
    lzssDecode m data.length r = .ok (data, r.skip (lzssBits pick m data).length) := by
  have hstart : trimWindow m [] = [] := trimWindow_of_length_le (Nat.zero_le m)
  have hdec := Reader.Holds.lzssDecodeFrom_lzssBitsFrom pick m (out := []) (r := r) (le_refl data.length)
    (by rwa [hstart])
  rwa [hstart] at hdec

/-! ### A decode command on a freshly loaded stream -/

/-- A decoder that accepts the whole write stream delivers its output when that stream is loaded, and the cursor
then stands at the end of it. -/
theorem State.decodeCommand_streamLoaded {s : State} {data : List Byte}
    {body : Nat → Reader → Except ErrCode (List Byte × Reader)} (hn : data.length = s.arg0.toNat)
    (hbody : ∀ r : Reader, r.Holds s.ws → body data.length r = .ok (data, r.skip s.ws.length))
    (hobuf : s.arg0.toNat ≤ s.params.obufCap) (hrbuf : (s.ws.length + 7) / 8 ≤ s.params.rbufCap)
    (hsmall : s.ws.length < 2 ^ 32) :
    ∃ t, s.streamLoaded.decodeCommand body = .next t ∧ t.err = .noError ∧ t.olen = s.arg0 ∧
      t.rpos.toNat = s.ws.length ∧ ∀ a, a < s.arg0.toNat → t.obufByte a = data.getD a 0 := by
  have hbytes : (s.ws.length + 7) / 8 < 2 ^ 32 := by omega
  have hdec := hbody _ (State.reader_holds (s.streamLoaded_holdsBits hbytes))
  rw [hn] at hdec
  obtain ⟨t, ht, hout, hstate⟩ := State.decodeCommand_skip (s := s.streamLoaded)
    ((State.streamLoaded_rlen hbytes).trans_le hrbuf) hobuf hn hdec
  refine ⟨t, ht, by rw [hstate], by rw [hstate]; rfl, ?_, fun a ha => (hout a).trans (if_pos ha)⟩
  have hrpos : t.rpos = BitVec.ofNat 32 s.ws.length := by
    rw [hstate]
    exact BitVec.zero_add _
  rw [hrpos]
  exact Nat.mod_eq_of_lt hsmall

/-! ### The round trip -/

/-- `LZSS_ENC` succeeds only on an input that IBUF holds. -/
theorem ilen_le_of_after_lzssEnc {s : State} (h : (after .lzssEnc s).err = .noError) :
    s.ilen.toNat ≤ s.params.ibufCap := by
  by_contra hlong
  rw [after_of_exec (exec_encoder_of_long (.inr (.inl rfl)) (Nat.lt_of_not_le hlong))] at h
  exact absurd h nofun

/-- The round trip from an empty write stream. -/
theorem exec_lzssDec_after_lzssEnc {s : State} (hws : s.ws = []) (hlegal : s.params.legal) (harg : s.arg0 = s.ilen)
    (hobuf : s.ilen.toNat ≤ s.params.obufCap) (henc : (after .lzssEnc s).err = .noError)
    (hload : (after (.rsLoad false) (after .lzssEnc s)).err = .noError) :
    ∃ t, exec .lzssDec (after (.rsLoad false) (after .lzssEnc s)) = .next t ∧ t.err = .noError ∧ t.olen = s.ilen ∧
      t.rpos.toNat = (after .lzssEnc s).ws.length ∧ ∀ a, a < s.ilen.toNat → t.obufByte a = s.ibufByte a := by
  obtain ⟨-, -, -, -, hwsCap⟩ := hlegal
  obtain ⟨hroom, henc'⟩ := after_eq_appended (exec_lzssEnc (ilen_le_of_after_lzssEnc henc)) (by rw [henc]; nofun)
  obtain ⟨hfits, hload'⟩ := after_rsLoad_eq_streamLoaded (by rw [hload]; nofun)
  rw [hws, List.length_nil, Nat.zero_add] at hroom
  rw [henc'] at hfits hload' ⊢
  set bits := lzssBits s.params.pick s.arg1.toNat s.inputBytes
  have hstream : (s.appended bits).ws = bits := by rw [State.appended, hws, List.nil_append]
  have hbody (r : Reader) (h : r.Holds (s.appended bits).ws) :
      lzssDecode s.arg1.toNat s.inputBytes.length r = .ok (s.inputBytes, r.skip (s.appended bits).ws.length) := by
    rw [hstream] at h ⊢
    exact h.lzssDecode_lzssBits
  obtain ⟨t, ht, herr, holen, hrpos, hbytes⟩ := State.decodeCommand_streamLoaded (s := s.appended bits)
    (s.inputBytes_length.trans (congrArg BitVec.toNat harg.symm)) hbody
    ((congrArg BitVec.toNat harg).trans_le hobuf) hfits (by rw [hstream]; omega)
  rw [hload', exec_lzssDec]
  refine ⟨t, ht, herr, holen.trans harg, hrpos, fun a ha => ?_⟩
  rw [hbytes a (ha.trans_eq (congrArg BitVec.toNat harg.symm)), State.inputBytes_getD s ha]

/-- Settles O45: LZSS_DEC reads what LZSS_ENC wrote from the empty write stream. -/
theorem lzssRoundTrip : Obligations.LzssRoundTrip := by
  unfold Obligations.LzssRoundTrip
  rintro s _ _ hlegal harg hobuf rfl henc rfl hload
  rw [after_wsClear] at henc hload ⊢
  exact exec_lzssDec_after_lzssEnc rfl hlegal harg hobuf henc hload

end Sys2Proof.Machine
end

section
/-!
What the LZSS encoder writes of a run, of an alternation of two bytes, and of the example of 43_lzss.md R207: what
settles O58. In each the candidates of a match repeat all of it, so they all survive to its end.
-/

namespace Sys2Proof.Machine

/-! ### A run of one byte -/

section
variable (pick : PickRule) (c : Byte)

/-- A run is a repetition of the byte before it. -/
theorem repeatsAt_replicate (k : Nat) : RepeatsAt [c] 0 (List.replicate k c) := fun i hi => by
  have hgrown : [c] ++ List.replicate k c = List.replicate (k + 1) c := rfl
  rw [List.length_replicate] at hi
  rw [hgrown, Nat.zero_add, List.getElem?_replicate_of_lt (hi.trans (Nat.lt_succ_self k)),
    List.getElem?_replicate_of_lt hi]

/-- A match with the one byte of the window is at distance 0, in 0 bits (43_lzss.md R203). -/
theorem lzssBitsFrom_replicate {m fuel k : Nat} {rest : List Byte} (hk : k + 1 ≤ m) (hstop : rest = [] ∨ m ≤ k + 1) :
    lzssBitsFrom pick m (fuel + 1) [c] (List.replicate (k + 1) c ++ rest) =
      true :: monoCode (k + 1) ++
        lzssBitsFrom pick m fuel (trimWindow m (List.replicate (k + 2) c)) rest := by
  have hlen : (c :: List.replicate k c).length = k + 1 := List.length_replicate (n := k + 1)
  have hrep : ∀ p ∈ [0], RepeatsAt [c] p (c :: List.replicate k c) := fun p hp =>
    List.mem_singleton.1 hp ▸ repeatsAt_replicate c (k + 1)
  have hbits := lzssBitsFrom_of_repeatsAt pick m fuel (matchStarts_singleton c) (List.cons_ne_nil 0 [])
    (hlen.trans_le hk) (rest := rest) (by rwa [hlen]) hrep
  rwa [hlen, pickCandidate_singleton] at hbits

/-- With a bound of at least `n − 1` the whole run after its first byte is one match. -/
theorem lzssBits_run {m n : Nat} (hn : 2 ≤ n) (hm : n ≤ m + 1) :
    lzssBits pick m (List.replicate n c) = false :: symbolBits c ++ true :: monoCode (n - 1) := by
  obtain ⟨k, rfl⟩ := Nat.exists_eq_add_of_le' hn
  have hwindow : trimWindow m ([] ++ [c]) = [c] := trimWindow_of_length_le (by simp; omega)
  rw [lzssBits, List.length_replicate, List.replicate_succ, lzssBitsFrom_literal pick m _ _ rfl, hwindow]
  have hmatch := lzssBitsFrom_replicate pick c (m := m) (fuel := k) (k := k) (rest := []) (by omega) (.inl rfl)
  rw [List.append_nil, lzssBitsFrom_nil, List.append_nil] at hmatch
  rw [hmatch]
  rfl

/-- With bound 1 every byte of the run after its first is a match of length 1. -/
theorem lzssBits_run_of_bound_one {n : Nat} (hn : 1 ≤ n) :
    lzssBits pick 1 (List.replicate n c) =
      false :: symbolBits c ++ (List.replicate (n - 1) [true, false]).flatten := by
  have hmatches (k : Nat) :
      lzssBitsFrom pick 1 k [c] (List.replicate k c) = (List.replicate k [true, false]).flatten := by
    induction k with
    | zero => rfl
    | succ k ih =>
      have hmatch := lzssBitsFrom_replicate pick c (m := 1) (fuel := k) (k := 0) (rest := List.replicate k c) le_rfl
        (.inr le_rfl)
      rw [show trimWindow 1 (List.replicate 2 c) = [c] from rfl, ih] at hmatch
      exact hmatch
  obtain ⟨k, rfl⟩ := Nat.exists_eq_add_of_le' hn
  rw [lzssBits, List.length_replicate, List.replicate_succ, lzssBitsFrom_literal pick 1 _ _ rfl]
  exact congrArg _ (hmatches k)

end

/-! ### An alternation of two bytes -/

/-- The first `n` bytes of `a`, `b`, `a`, `b`, and so on. -/
def alternation (a b : Byte) (n : Nat) : List Byte := (List.range n).map fun k => if k % 2 = 0 then a else b

section
variable (a b : Byte)

@[simp] theorem alternation_length (n : Nat) : (alternation a b n).length = n := by simp [alternation]

theorem alternation_getElem? {n k : Nat} (h : k < n) :
    (alternation a b n)[k]? = some (if k % 2 = 0 then a else b) := by
  simp [alternation, h]

theorem alternation_succ (n : Nat) : alternation a b (n + 1) = a :: alternation b a n := by
  simp only [alternation, List.range_succ_eq_map, List.map_cons, List.map_map]
  refine congrArg (a :: ·) (List.map_congr_left fun k _ => ?_)
  obtain h | h := Nat.mod_two_eq_zero_or_one k <;> simp [Nat.add_mod, h]

theorem alternation_add_two (n : Nat) : alternation a b (n + 2) = a :: b :: alternation a b n := by
  rw [alternation_succ, alternation_succ]

theorem alternation_append (i n : Nat) :
    alternation a b (2 * i) ++ alternation a b n = alternation a b (2 * i + n) := by
  induction i with
  | zero => rw [Nat.mul_zero, Nat.zero_add]; rfl
  | succ i ih => rw [Nat.mul_succ, Nat.add_right_comm, alternation_add_two, alternation_add_two, ← ih]; rfl

variable {a b}

/-- After an even number of its bytes an alternation repeats them, from every even position. -/
theorem repeatsAt_alternation {i p : Nat} (n : Nat) (hp : p < 2 * i) (heven : p % 2 = 0) :
    RepeatsAt (alternation a b (2 * i)) p (alternation a b n) := fun k hk => by
  rw [alternation_length] at hk
  rw [alternation_append, alternation_getElem? a b (by omega), alternation_getElem? a b hk, Nat.add_mod, heven,
    Nat.zero_add, Nat.mod_mod]

variable (hab : a ≠ b)
include hab

theorem even_of_mem_matchStarts_alternation {n p : Nat} (h : p ∈ matchStarts (alternation a b n) a) :
    p < n ∧ p % 2 = 0 := by
  have hget := mem_matchStarts.1 h
  have hlt : p < n := by simpa using (List.getElem?_eq_some_iff.1 hget).1
  refine ⟨hlt, by_contra fun hodd => hab ?_⟩
  rw [alternation_getElem? a b hlt, if_neg hodd] at hget
  exact (Option.some.inj hget).symm

variable (pick : PickRule) {m : Nat}

/-- A match over a window that is an alternation, up to the end of the input or to the bound. -/
theorem lzssBitsFrom_alternation {fuel i k : Nat} {rest : List Byte} {ps : List Nat}
    (hps : matchStarts (alternation a b (2 * i)) a = ps) (hne : ps ≠ []) (hk : k + 1 ≤ m)
    (hstop : rest = [] ∨ m ≤ k + 1) :
    lzssBitsFrom pick m (fuel + 1) (alternation a b (2 * i)) (alternation a b (k + 1) ++ rest) =
      true :: fieldBits (2 * i - pickCandidate pick ps - 1) (bitsFor (2 * i)) ++ monoCode (k + 1) ++
        lzssBitsFrom pick m fuel (trimWindow m (alternation a b (2 * i + (k + 1)))) rest := by
  have hlen := alternation_length a b (k + 1)
  have hrep : ∀ p ∈ ps, RepeatsAt (alternation a b (2 * i)) p (alternation a b (k + 1)) := fun p hp => by
    obtain ⟨hlt, heven⟩ := even_of_mem_matchStarts_alternation hab (hps ▸ hp)
    exact repeatsAt_alternation (k + 1) hlt heven
  rw [alternation_succ] at hlen hrep
  have hbits := lzssBitsFrom_of_repeatsAt pick m fuel hps hne (hlen.trans_le hk) (rest := rest) (by rwa [hlen]) hrep
  rwa [hlen, alternation_length, ← alternation_succ, alternation_append] at hbits

/-- The first two bytes are literals. -/
theorem lzssBits_alternation {n : Nat} (hm : 2 ≤ m) :
    lzssBits pick m (alternation a b (n + 2)) =
      false :: symbolBits a ++ false :: symbolBits b ++
        lzssBitsFrom pick m n (alternation a b 2) (alternation a b n) := by
  have hstarts : matchStarts [a] b = [] := by simp [matchStarts, hab]
  have hone : trimWindow m ([] ++ [a]) = [a] := trimWindow_of_length_le (by simp; omega)
  have htwo : trimWindow m ([a] ++ [b]) = alternation a b 2 := trimWindow_of_length_le (by simpa)
  rw [lzssBits, alternation_length, alternation_add_two, lzssBitsFrom_literal pick m _ _ rfl, hone,
    lzssBitsFrom_literal pick m _ _ hstarts, htwo, List.append_assoc]

theorem matchStarts_alternation_two : matchStarts (alternation a b (2 * 1)) a = [0] := by
  have hwindow : alternation a b (2 * 1) = [a, b] := rfl
  simp [hwindow, matchStarts, List.range_succ, hab.symm]

theorem matchStarts_alternation_four : matchStarts (alternation a b (2 * 2)) a = [0, 2] := by
  have hwindow : alternation a b (2 * 2) = [a, b, a, b] := rfl
  simp [hwindow, matchStarts, List.range_succ, hab.symm]

/-- With a bound of at least `n − 2` all bytes after the first two are one match, at distance 1. -/
theorem lzssBits_alternation_oneMatch {n : Nat} (hn : 3 ≤ n) (hm : 2 ≤ m) (hnm : n ≤ m + 2) :
    lzssBits pick m (alternation a b n) =
      false :: symbolBits a ++ false :: symbolBits b ++ [true, true] ++ monoCode (n - 2) := by
  obtain ⟨k, rfl⟩ := Nat.exists_eq_add_of_le' hn
  have hmatch := lzssBitsFrom_alternation hab pick (m := m) (fuel := k) (k := k) (rest := [])
    (matchStarts_alternation_two hab) (List.cons_ne_nil 0 []) (by omega) (.inl rfl)
  rw [List.append_nil, lzssBitsFrom_nil, List.append_nil, pickCandidate_singleton] at hmatch
  rw [lzssBits_alternation hab pick (n := k + 1) hm, hmatch, List.append_assoc]
  rfl

/-- The example of 43_lzss.md R207: the second match has two candidates, and the default takes the older one. -/
theorem lzssBits_alternation_eight :
    lzssBits .minPosition 4 (alternation a b 8) =
      false :: symbolBits a ++ false :: symbolBits b ++ [true, true] ++ monoCode 4 ++ [true, true, true] ++
        monoCode 2 := by
  have hfirst : lzssBitsFrom .minPosition 4 6 (alternation a b 2) (alternation a b 4 ++ alternation a b 2) =
      [true, true] ++ monoCode 4 ++ lzssBitsFrom .minPosition 4 5 (alternation a b 4) (alternation a b 2) :=
    lzssBitsFrom_alternation hab .minPosition (matchStarts_alternation_two hab) (List.cons_ne_nil 0 []) le_rfl
      (.inr le_rfl)
  have hsecond : lzssBitsFrom .minPosition 4 5 (alternation a b 4) (alternation a b 2) =
      [true, true, true] ++ monoCode 2 :=
    lzssBitsFrom_alternation hab .minPosition (k := 1) (rest := []) (matchStarts_alternation_four hab)
      (List.cons_ne_nil 0 [2]) (by decide) (.inl rfl)
  have hsplit : alternation a b 6 = alternation a b 4 ++ alternation a b 2 := rfl
  rw [lzssBits_alternation hab .minPosition (n := 6) (by decide), hsplit, hfirst, hsecond]
  simp only [List.append_assoc]

end

/-! ### LZSS_ENC -/

/-- Settles O58: the input is a run or an alternation, and the bits are those of `lzssBits_run`,
`lzssBits_run_of_bound_one`, `lzssBits_alternation_oneMatch` and `lzssBits_alternation_eight`. -/
theorem lzssEncEmitsMatches : Obligations.LzssEncEmitsMatches := by
  unfold Obligations.LzssEncEmitsMatches
  rintro s _ bits rfl hcap hroom
  have hexec (h : lzssBits s.params.pick s.arg1.toNat s.inputBytes = bits) :
      exec .lzssEnc s = .next (s.appended bits) := exec_lzssEnc_of_fits hcap h hroom
  refine ⟨fun c hall => ?run, fun a b hab hall => ?alternation⟩
  case run =>
    have hinput : s.inputBytes = List.replicate s.ilen.toNat c :=
      List.eq_replicate_iff.2 ⟨s.inputBytes_length, fun e he => by
        obtain ⟨k, hk, rfl⟩ := State.mem_inputBytes.1 he
        exact hall k hk⟩
    rw [hinput] at hexec
    refine ⟨fun hn hm hbits => hexec ?_, fun hn hm hbits => hexec ?_⟩
    · rw [lzssBits_run _ c hn hm, hbits]
    · have hone : s.arg1.toNat = 1 := congrArg BitVec.toNat hm
      rw [hone, lzssBits_run_of_bound_one _ c hn, hbits]
  case alternation =>
    have hinput : s.inputBytes = alternation a b s.ilen.toNat :=
      List.map_congr_left fun k hk => hall k (List.mem_range.1 hk)
    rw [hinput] at hexec
    refine ⟨fun hn hm hnm hbits => hexec ?_, fun hpick hn hm hbits => hexec ?_⟩
    · rw [lzssBits_alternation_oneMatch hab _ hn hm hnm, hbits]
    · have hfour : s.arg1.toNat = 4 := congrArg BitVec.toNat hm
      rw [hpick, hfour, hn, lzssBits_alternation_eight hab, hbits]

end Sys2Proof.Machine
end

section
/-!
The LZW decoder on a stream that is known to go on with given fields (44_lzw.md R241): what settles O41 and O59,
and what the round trip reads with.
-/

namespace Sys2Proof.Machine

/-! ### The dictionary -/

@[simp] theorem LzwDec.settlePend_nextId (d : LzwDec) (c : Byte) : (d.settlePend c).nextId = d.nextId := by
  unfold LzwDec.settlePend
  split <;> rfl

theorem LzwDec.settlePend_none {d : LzwDec} (h : d.pend = none) (c : Byte) : d.settlePend c = d := by
  rw [LzwDec.settlePend, h]

theorem LzwDec.settlePend_some {d : LzwDec} {id : Nat} {stem : List Byte} (h : d.pend = some (id, stem)) (c : Byte) :
    (d.settlePend c).table = (id, stem ++ [c]) :: d.table := by
  rw [LzwDec.settlePend, h]

theorem LzwDec.phrase_of_lookup {d : LzwDec} {x : Nat} {ph : List Byte} (h : d.table.lookup x = some ph) :
    d.phrase x = some ph := by
  rw [LzwDec.phrase, h]

section
variable {d : LzwDec} {x : Nat} (h : d.table.lookup x = none)
include h

theorem LzwDec.phrase_of_no_pend (hp : d.pend = none) : d.phrase x = none := by
  rw [LzwDec.phrase, h, hp]

theorem LzwDec.phrase_pend {stem : List Byte} (hp : d.pend = some (x, stem)) :
    d.phrase x = some (stem ++ [stem.headD 0]) := by
  rw [LzwDec.phrase, h, hp]
  exact if_pos rfl

theorem LzwDec.phrase_not_pend {id : Nat} {stem : List Byte} (hp : d.pend = some (id, stem)) (hx : x ≠ id) :
    d.phrase x = none := by
  rw [LzwDec.phrase, h, hp]
  exact if_neg hx

end

/-- The dictionary after a code for the phrase `ph` (44_lzw.md R241). -/
def LzwDec.afterCode (d : LzwDec) (ph : List Byte) : LzwDec :=
  { d.settlePend (ph.headD 0) with nextId := d.nextId + 1, pend := some (d.nextId, ph) }

/-- The dictionary after the escaped symbol `c` (44_lzw.md R241). -/
def LzwDec.afterEscape (d : LzwDec) (c : Byte) : LzwDec :=
  { table := (d.nextId, [c]) :: (d.settlePend c).table, nextId := d.nextId + 2, pend := some (d.nextId + 1, [c]) }

/-- The first id after the seeded symbols. -/
@[simp] theorem lzwDecSeed_nextId (esc : Bool) (alphabet : List Byte) :
    (lzwDecSeed esc alphabet).nextId = (if esc then 1 else 0) + alphabet.length := rfl

@[simp] theorem lzwDecSeed_pend (esc : Bool) (alphabet : List Byte) : (lzwDecSeed esc alphabet).pend = none := rfl

/-- The seeded ids are consecutive, and each names its symbol. -/
theorem lzwDecSeed_lookup (esc : Bool) (alphabet : List Byte) (x : Nat) :
    (lzwDecSeed esc alphabet).table.lookup x =
      if (if esc then 1 else 0) ≤ x ∧ x < (if esc then 1 else 0) + alphabet.length then
        some [alphabet.getD (x - if esc then 1 else 0) 0]
      else none := by
  have hseed (base k : Nat) : ((alphabet.zipIdx k).map fun (c, j) => (base + j, [c])).lookup x =
      if base + k ≤ x ∧ x < base + k + alphabet.length then some [alphabet.getD (x - (base + k)) 0] else none := by
    induction alphabet generalizing k with
    | nil => exact (if_neg (by simp)).symm
    | cons c l ih =>
      rw [List.zipIdx_cons, List.map_cons, List.lookup_cons, List.length_cons, ih (k + 1)]
      by_cases hx : x = base + k
      · simp [hx]
      · rw [beq_false_of_ne hx]
        by_cases hlt : base + k ≤ x ∧ x < base + k + (l.length + 1)
        · rw [if_pos hlt, if_pos (by omega), show x - (base + k) = x - (base + (k + 1)) + 1 by omega,
            List.getD_cons_succ]
        · rw [if_neg hlt, if_neg (by omega)]
  exact hseed _ 0

/-! ### One emission -/

section
variable {r : Reader} {esc : Bool} {d : LzwDec}

theorem LzwDec.emission_shortCode (h : r.EndsWithin [] (bitsFor d.nextId)) :
    d.emission esc r = .error .streamExhausted := by
  rw [LzwDec.emission, h.getInt]
  rfl

section
variable {x : Nat} (hx : x < 2 ^ bitsFor d.nextId) (h : r.Holds (fieldBits x (bitsFor d.nextId)))
include hx h

/-- The escape code is followed by a symbol. -/
theorem Reader.Holds.emission_escape (hesc : esc = true ∧ x = 0) :
    d.emission esc r = (do
      let (c, r) ← (r.skip (bitsFor d.nextId)).getByte
      .ok ([c], d.afterEscape c, r)) := by
  rw [LzwDec.emission, h.getInt_field hx]
  refine (if_pos hesc).trans ?_
  simp only [LzwDec.afterEscape, LzwDec.settlePend_nextId]

variable (hesc : ¬ (esc = true ∧ x = 0))
include hesc

theorem Reader.Holds.emission_unnamed (hph : d.phrase x = none) : d.emission esc r = .error .malformedHeader := by
  rw [LzwDec.emission, h.getInt_field hx]
  refine (if_neg hesc).trans ?_
  rw [hph]

/-- Any other code stands for the phrase it names. -/
theorem Reader.Holds.emission_code {ph : List Byte} (hph : d.phrase x = some ph) :
    d.emission esc r = .ok (ph, d.afterCode ph, r.skip (bitsFor d.nextId)) := by
  rw [LzwDec.emission, h.getInt_field hx]
  refine (if_neg hesc).trans ?_
  simp only [hph, LzwDec.afterCode, LzwDec.settlePend_nextId]

end

/-- An escaped symbol, code and byte. -/
theorem Reader.Holds.emission_symbol {c : Byte} (h : r.Holds (fieldBits 0 (bitsFor d.nextId) ++ symbolBits c)) :
    d.emission true r = .ok ([c], d.afterEscape c, r.skip (bitsFor d.nextId + 8)) := by
  obtain ⟨hcode, hsymbol⟩ := Reader.holds_append.1 h
  rw [fieldBits_length] at hsymbol
  rw [hcode.emission_escape (Nat.two_pow_pos _) ⟨rfl, rfl⟩, hsymbol.getByte, ← Reader.skip_skip]
  rfl

theorem LzwDec.emission_shortSymbol (h : r.EndsWithin (fieldBits 0 (bitsFor d.nextId)) 8) :
    d.emission true r = .error .streamExhausted := by
  obtain ⟨hcode, hend⟩ := h.skip
  rw [fieldBits_length] at hend
  rw [hcode.emission_escape (Nat.two_pow_pos _) ⟨rfl, rfl⟩, hend.getByte]
  rfl

end

/-! ### One pass of the decoder -/

/-- With the output complete nothing is read. -/
theorem lzwDecodeFrom_done {esc : Bool} {n fuel : Nat} {d : LzwDec} {out : List Byte} {r : Reader}
    (h : n ≤ out.length) : lzwDecodeFrom esc n fuel d out r = .ok (out, r) := by
  cases fuel with
  | zero => rfl
  | succ fuel => rw [lzwDecodeFrom, if_pos h]

section
variable {r r' : Reader} {esc : Bool} {n fuel : Nat} {d d' : LzwDec} {out ph : List Byte} (hn : out.length < n)
include hn

theorem lzwDecodeFrom_error {e : ErrCode} (h : d.emission esc r = .error e) :
    lzwDecodeFrom esc n (fuel + 1) d out r = .error e := by
  rw [lzwDecodeFrom, if_neg hn.not_ge, h]
  rfl

variable (h : d.emission esc r = .ok (ph, d', r'))
include h

theorem lzwDecodeFrom_long (hlong : n < out.length + ph.length) :
    lzwDecodeFrom esc n (fuel + 1) d out r = .error .malformedHeader := by
  rw [lzwDecodeFrom, if_neg hn.not_ge, h]
  exact if_pos hlong

theorem lzwDecodeFrom_pass (hfits : out.length + ph.length ≤ n) :
    lzwDecodeFrom esc n (fuel + 1) d out r = lzwDecodeFrom esc n fuel d' (out ++ ph) r' := by
  rw [lzwDecodeFrom, if_neg hn.not_ge, h]
  exact if_neg hfits.not_gt

end

/-! ### The first two codes -/

/-- A code from the first seeded id on is no escape. -/
theorem not_escape_of_le {esc : Bool} {x : Nat} (hx : (if esc then 1 else 0) ≤ x) : ¬ (esc = true ∧ x = 0) := by
  rintro ⟨rfl, rfl⟩
  exact absurd hx (by decide)

/-- A decoder whose first emission fails. -/
theorem lzwDecode_firstError {esc : Bool} {alphabet : List Byte} {n : Nat} {r : Reader} {e : ErrCode} (hn : n ≠ 0)
    (h : (lzwDecSeed esc alphabet).emission esc r = .error e) : lzwDecode esc alphabet n r = .error e := by
  obtain ⟨fuel, rfl⟩ := Nat.exists_eq_succ_of_ne_zero hn
  exact lzwDecodeFrom_error (Nat.succ_pos fuel) h

/-- The dictionary after a first code of the seeded symbol `c`: the entry `n0` is pending. -/
def lzwDecAfterSeeded (esc : Bool) (alphabet : List Byte) (n0 : Nat) (c : Byte) : LzwDec :=
  { table := (lzwDecSeed esc alphabet).table, nextId := n0 + 1, pend := some (n0, [c]) }

section
variable {esc : Bool} {alphabet : List Byte} {base n0 : Nat} (hbase : base = if esc then 1 else 0)
  (hn0 : n0 = base + alphabet.length)
include hbase hn0

theorem lzwDecSeed_lookup_free {x : Nat} (hx : n0 ≤ x) : (lzwDecSeed esc alphabet).table.lookup x = none := by
  subst hbase hn0
  rw [lzwDecSeed_lookup, if_neg fun h => h.2.not_ge hx]

variable {r : Reader} {x : Nat} (hx : base ≤ x) (hxn : x < n0)
include hx hxn

theorem lzwDecSeed_lookup_seeded :
    (lzwDecSeed esc alphabet).table.lookup x = some [alphabet.getD (x - base) 0] := by
  subst hbase hn0
  rw [lzwDecSeed_lookup, if_pos ⟨hx, hxn⟩]

/-- The decoder after a first code of a seeded symbol. -/
theorem Reader.Holds.lzwDecode_seeded (h : r.Holds (fieldBits x (bitsFor n0))) (n : Nat) :
    lzwDecode esc alphabet (n + 2) r =
      lzwDecodeFrom esc (n + 2) (n + 1) (lzwDecAfterSeeded esc alphabet n0 (alphabet.getD (x - base) 0))
        [alphabet.getD (x - base) 0] (r.skip (bitsFor n0)) := by
  have hid : (lzwDecSeed esc alphabet).nextId = n0 := by rw [hn0, hbase, lzwDecSeed_nextId]
  have hw : x < 2 ^ bitsFor n0 := hxn.trans_le (le_two_pow_bitsFor n0)
  have hphrase := LzwDec.phrase_of_lookup (lzwDecSeed_lookup_seeded hbase hn0 hx hxn)
  have hafter (c : Byte) : (lzwDecSeed esc alphabet).afterCode [c] = lzwDecAfterSeeded esc alphabet n0 c := by
    rw [LzwDec.afterCode, LzwDec.settlePend_none (lzwDecSeed_pend ..), hid, lzwDecAfterSeeded]
  rw [← hid] at h hw
  have hem := h.emission_code hw (not_escape_of_le (hbase ▸ hx)) hphrase
  rw [hafter, hid] at hem
  exact lzwDecodeFrom_pass (Nat.succ_pos _) hem (by simp)

/-- A second code for the pending entry stands for the symbol twice. -/
theorem Reader.Holds.emission_pending (c : Byte)
    (h : r.Holds (fieldBits x (bitsFor n0) ++ fieldBits n0 (bitsFor (n0 + 1)))) :
    ∃ d, (lzwDecAfterSeeded esc alphabet n0 c).emission esc (r.skip (bitsFor n0)) =
      .ok ([c, c], d, r.skip (bitsFor n0 + bitsFor (n0 + 1))) := by
  have hfield := (Reader.holds_append.1 h).2
  rw [fieldBits_length] at hfield
  have hphrase : (lzwDecAfterSeeded esc alphabet n0 c).phrase n0 = some [c, c] :=
    LzwDec.phrase_pend (d := lzwDecAfterSeeded esc alphabet n0 c) (lzwDecSeed_lookup_free hbase hn0 le_rfl) rfl
  have hem := hfield.emission_code (Nat.lt_of_succ_le (le_two_pow_bitsFor (n0 + 1)))
    (not_escape_of_le (hbase ▸ hx.trans hxn.le)) hphrase
  rw [Reader.skip_skip] at hem
  exact ⟨_, hem⟩

end

/-! ### LZW_DEC -/

section
variable {s : State} (hr : s.rlen.toNat ≤ s.params.rbufCap) (hn : s.arg0.toNat ≤ s.params.obufCap)
include hr hn

theorem exec_lzwDec_error {esc : Bool} {e : ErrCode}
    (h : lzwDecode esc s.alphabet s.arg0.toNat s.reader = .error e) :
    ∃ t, exec (.lzwDec esc) s = .next t ∧ s.failedSpoiling s.arg0.toNat e t := by
  rw [exec_lzwDec]
  exact State.decodeCommand_error hr hn h

theorem exec_lzwDec_skip {esc : Bool} {out : List Byte} {k : Nat} (hout : out.length = s.arg0.toNat)
    (h : lzwDecode esc s.alphabet s.arg0.toNat s.reader = .ok (out, s.reader.skip k)) :
    ∃ t, exec (.lzwDec esc) s = .next t ∧
      (∀ a, t.obufByte a = if a < s.arg0.toNat then out.getD a 0 else s.obufByte a) ∧
      t = { s with obuf := t.obuf, olen := s.arg0, rpos := s.rpos + BitVec.ofNat 32 k, result0 := s.arg0,
                   result1 := BitVec.ofNat 32 k, err := .noError, pending := none } := by
  rw [exec_lzwDec]
  exact State.decodeCommand_skip hr hn hout h

/-- `N = 0` reads nothing (44_lzw.md R240). -/
theorem exec_lzwDec_zero (esc : Bool) (h : s.arg0 = 0) :
    exec (.lzwDec esc) s =
      .next { s with olen := 0, result0 := 0, result1 := 0, err := .noError, pending := none } := by
  have hzero : s.arg0.toNat = 0 := congrArg BitVec.toNat h
  have hdec : lzwDecode esc s.alphabet s.arg0.toNat s.reader = .ok ([], s.reader) := by rw [hzero]; rfl
  have hobuf : s.obuf.storeRange 0 [] = s.obuf := by simp [Memory.storeRange, Memory.cellsFrom]
  have hrpos : BitVec.ofNat 32 s.reader.pos = s.rpos := by
    rw [State.reader, BitVec.ofNat_toNat, BitVec.setWidth_eq]
  have hmoved : s.reader.pos - s.rpos.toNat = 0 := Nat.sub_self _
  rw [exec_lzwDec, State.decodeCommand_ok hr hn hdec, hzero]
  simp only [State.deliver, State.succeed, hobuf, hrpos, hmoved]
  rfl

end

/-- Settles O41: the escape code of an empty dictionary has no bits, so its symbol is read at once; and without
escape the code of no bits names no entry. -/
theorem lzwDecWithEmptyAlphabet : Obligations.LzwDecWithEmptyAlphabet := by
  unfold Obligations.LzwDecWithEmptyAlphabet
  intro s hr hn halpha
  have hempty : s.alphabet = [] := List.eq_nil_iff_forall_not_mem.2 halpha
  refine ⟨fun c harg h => ?_, fun harg => exec_lzwDec_error hr hn ?_⟩
  · have hone : s.arg0.toNat = 1 := congrArg BitVec.toNat harg
    have hdec : lzwDecode true s.alphabet s.arg0.toNat s.reader = .ok ([c], s.reader.skip 8) := by
      rw [hone, hempty]
      exact lzwDecodeFrom_pass (d := lzwDecSeed true []) Nat.zero_lt_one
        (Reader.Holds.emission_symbol (State.reader_holds h)) le_rfl
    obtain ⟨t, ht, hobuf, hstate⟩ := exec_lzwDec_skip hr hn (out := [c]) hone.symm hdec
    refine ⟨t, ht, fun a => ?_, by rw [hstate, harg]; rfl⟩
    rw [hobuf, hone]
    exact ite_congr (propext Nat.lt_one_iff) (fun ha => by rw [ha]; rfl) fun _ => rfl
  · rw [hempty]
    refine lzwDecode_firstError (BitVec.toNat_pos_of_ne_zero harg).ne' ?_
    have hcode : s.reader.Holds (fieldBits 0 0) := ⟨Nat.zero_le _, rfl⟩
    exact hcode.emission_unnamed (d := lzwDecSeed false []) Nat.zero_lt_one nofun rfl

/-- Settles O59: the first code over the seeded dictionary, and after a seeded symbol the second code over the
dictionary whose pending entry is `n0`. -/
theorem lzwDecChecksItsCodes : Obligations.LzwDecChecksItsCodes := by
  unfold Obligations.LzwDecChecksItsCodes
  rintro s esc base n0 hr hn hbase hn0
  have hfail {e : ErrCode} (h : lzwDecode esc s.alphabet s.arg0.toNat s.reader = .error e) :
      ∃ t, exec (.lzwDec esc) s = .next t ∧ s.failedSpoiling s.arg0.toNat e t := exec_lzwDec_error hr hn h
  have hid : (lzwDecSeed esc s.alphabet).nextId = n0 := by rw [hn0, hbase, lzwDecSeed_nextId]
  have hzero (h : s.arg0 ≠ 0) : s.arg0.toNat ≠ 0 := (BitVec.toNat_pos_of_ne_zero h).ne'
  have hesc {x : Nat} (hx : base ≤ x) : ¬ (esc = true ∧ x = 0) := not_escape_of_le (hbase ▸ hx)
  refine ⟨fun x harg hx hw h => ?badFirst, fun harg h => ?shortFirst, exec_lzwDec_zero hr hn esc, fun x hx hxn => ?_⟩
  case badFirst =>
    have hfirst := State.reader_holds h
    rw [← hid] at hfirst hw
    exact hfail (lzwDecode_firstError (hzero harg) (hfirst.emission_unnamed hw (hesc (by omega))
      (LzwDec.phrase_of_no_pend (lzwDecSeed_lookup_free hbase hn0 hx) rfl)))
  case shortFirst =>
    refine hfail (lzwDecode_firstError (hzero harg) ?_)
    rw [← hid] at h
    obtain h | ⟨rfl, h⟩ := h
    · exact LzwDec.emission_shortCode (State.reader_endsWithin h)
    · exact LzwDec.emission_shortSymbol (State.reader_endsWithin h)
  set c := s.alphabet.getD (x - base) 0
  have hfirst (n : Nat) (h : s.reader.Holds (fieldBits x (bitsFor n0))) :
      lzwDecode esc s.alphabet (n + 2) s.reader =
        lzwDecodeFrom esc (n + 2) (n + 1) (lzwDecAfterSeeded esc s.alphabet n0 c) [c] (s.reader.skip (bitsFor n0)) :=
    h.lzwDecode_seeded hbase hn0 hx hxn n
  have hfailSecond {e : ErrCode} (harg : 2 ≤ s.arg0.toNat) (h : s.reader.Holds (fieldBits x (bitsFor n0)))
      (hem : (lzwDecAfterSeeded esc s.alphabet n0 c).emission esc (s.reader.skip (bitsFor n0)) = .error e) :
      ∃ t, exec (.lzwDec esc) s = .next t ∧ s.failedSpoiling s.arg0.toNat e t := by
    obtain ⟨n, hN⟩ := Nat.exists_eq_add_of_le' harg
    refine hfail ?_
    rw [hN, hfirst n h]
    exact lzwDecodeFrom_error (by simp) hem
  refine ⟨fun harg h => ?shortSecond, fun y harg hy hyw h => ?badSecond, fun harg h => ?pendingLong,
    fun len harg hlen h => ?pending⟩
  case shortSecond =>
    obtain ⟨hcode, hend⟩ := (State.reader_endsWithin h).skip
    rw [fieldBits_length] at hend
    exact hfailSecond harg hcode (LzwDec.emission_shortCode hend)
  case badSecond =>
    obtain ⟨hcode, hfield⟩ := Reader.holds_append.1 (State.reader_holds h)
    rw [fieldBits_length] at hfield
    exact hfailSecond harg hcode (hfield.emission_unnamed (d := lzwDecAfterSeeded esc s.alphabet n0 c) hyw
      (hesc (by omega)) (LzwDec.phrase_not_pend (lzwDecSeed_lookup_free hbase hn0 hy.le) rfl hy.ne'))
  case pendingLong =>
    have htwo : s.arg0.toNat = 2 := congrArg BitVec.toNat harg
    have hheld := State.reader_holds h
    obtain ⟨d, hem⟩ := hheld.emission_pending hbase hn0 hx hxn c
    rw [htwo] at hfail
    refine hfail ?_
    rw [hfirst 0 (Reader.holds_append.1 hheld).1]
    exact lzwDecodeFrom_long (by simp) hem (by simp)
  case pending =>
    have hthree : s.arg0.toNat = 3 := congrArg BitVec.toNat harg
    have hheld := State.reader_holds h
    obtain ⟨d, hem⟩ := hheld.emission_pending hbase hn0 hx hxn c
    have hdec : lzwDecode esc s.alphabet s.arg0.toNat s.reader = .ok ([c, c, c], s.reader.skip len) := by
      rw [hthree, hfirst 1 (Reader.holds_append.1 hheld).1, lzwDecodeFrom_pass (by simp) hem (by simp),
        lzwDecodeFrom_done (by simp), hlen]
      rfl
    obtain ⟨t, ht, hobuf, hstate⟩ := exec_lzwDec_skip hr hn (out := [c, c, c]) hthree.symm hdec
    refine ⟨t, ht, fun a => ?_, by rw [hstate, harg]⟩
    rw [hobuf, hthree]
    exact ite_congr rfl (fun ha => List.getD_replicate (n := 3) _ ha) fun _ => rfl

end Sys2Proof.Machine
end

section
/-!
The LZW encoder on a stream with room for all it writes (44_lzw.md R234 to R238): what an emission writes, what a
byte does, and that the model's encoder is this one wherever its output fits.
-/

namespace Sys2Proof.Machine

/-! ### The trie -/

/-- An allocation changes one child (44_lzw.md R237). -/
@[simp] theorem LzwEnc.alloc_child (e : LzwEnc) (t p : Option Nat) (c b : Byte) :
    (e.alloc t c).child p b = if t = p ∧ c = b then some e.nextId else e.child p b := by
  simp only [LzwEnc.child, LzwEnc.alloc, List.find?_cons]
  by_cases h : t = p ∧ c = b
  · simp [h]
  · have hne : (decide (t = p) && decide (c = b)) = false := by simpa using h
    rw [hne, if_neg h]

@[simp] theorem LzwEnc.alloc_nextId (e : LzwEnc) (t : Option Nat) (c : Byte) :
    (e.alloc t c).nextId = e.nextId + 1 := rfl

/-- A child is the end of an edge. -/
theorem LzwEnc.mem_edges_of_child {e : LzwEnc} {p : Option Nat} {c : Byte} {u : Nat} (h : e.child p c = some u) :
    { parent := p, sym := c, id := u } ∈ e.edges := by
  obtain ⟨x, hx, rfl⟩ := Option.map_eq_some_iff.1 h
  have hmatch := List.find?_some hx
  simp only [Bool.and_eq_true, decide_eq_true_eq] at hmatch
  obtain ⟨rfl, rfl⟩ := hmatch
  exact List.mem_of_find?_eq_some hx

/-- Where `Begin` succeeds, the match is a child of the root or, in escape mode, the byte alone
(44_lzw.md R235). -/
theorem LzwEnc.begin_ok {esc : Bool} {e e' : LzwEnc} {c : Byte} (h : e.begin esc c = .ok e') :
    (∃ t, e.child none c = some t ∧ e' = { e with cur := .node t }) ∨
      (esc = true ∧ e' = { e with cur := .virt c }) := by
  unfold LzwEnc.begin at h
  split at h
  · next t ht => exact .inl ⟨t, ht, (Except.ok.inj h).symm⟩
  · split at h
    · next hesc => exact .inr ⟨hesc, (Except.ok.inj h).symm⟩
    · cases h

/-- `Begin` succeeds on every byte in escape mode, and else on a child of the root. -/
theorem LzwEnc.exists_begin {esc : Bool} {e : LzwEnc} {c : Byte} (h : esc = true ∨ e.child none c ≠ none) :
    ∃ e', e.begin esc c = .ok e' := by
  unfold LzwEnc.begin
  split
  · exact ⟨_, rfl⟩
  · next hnone => exact ⟨_, if_pos (h.resolve_right fun hsome => hsome hnone)⟩

/-! ### One emission -/

/-- The bits of `Emit(cur)` (44_lzw.md R234, R237). -/
def LzwEnc.code (e : LzwEnc) : List Bool :=
  match e.cur with
  | .start => []
  | .node t => fieldBits t (bitsFor e.nextId)
  | .virt c => fieldBits 0 (bitsFor e.nextId) ++ symbolBits c

/-- The encoder after `Emit(cur)`, and the node it answers (44_lzw.md R237). -/
def LzwEnc.emitted (e : LzwEnc) : LzwEnc × Option Nat :=
  match e.cur with
  | .start => (e, none)
  | .node t => ({ e with ws := e.ws ++ e.code }, some t)
  | .virt c => ({ e with ws := e.ws ++ e.code }.alloc none c, some e.nextId)

@[simp] theorem LzwEnc.emitted_ws (e : LzwEnc) : e.emitted.1.ws = e.ws ++ e.code := by
  unfold LzwEnc.emitted
  split
  · next h => simp only [LzwEnc.code, h, List.append_nil]
  · rfl
  · rfl

/-- An emission takes a code and at most one symbol. -/
theorem LzwEnc.code_length_le (e : LzwEnc) : e.code.length ≤ bitsFor e.nextId + 8 := by
  unfold LzwEnc.code
  split <;> simp

/-- The model's emission is this one, or runs out of room. -/
theorem LzwEnc.emit_eq {e : LzwEnc} {cap : Nat} (h : e.ws.length ≤ cap) :
    e.emit cap = if e.ws.length + e.code.length ≤ cap then .ok e.emitted else .error .capacityExceeded := by
  obtain ⟨edges, nextId, mr, cur, ws⟩ := e
  cases cur with
  | start => exact (if_pos h).symm
  | node t =>
    simp only [LzwEnc.emit, LzwEnc.emitted, LzwEnc.code, wsPutInt, fieldBits_eq_intBits, intBits_length]
    split <;> rfl
  | virt c =>
    simp only [LzwEnc.emit, LzwEnc.emitted, LzwEnc.code, wsPutInt, List.length_append, fieldBits_eq_intBits,
      symbolBits_eq_intBits, intBits_length, ← Nat.add_assoc, ← List.append_assoc]
    by_cases hcode : ws.length + bitsFor nextId ≤ cap
    · simp only [if_pos hcode, bind, Except.bind, List.length_append, intBits_length]
      by_cases hsymbol : ws.length + bitsFor nextId + 8 ≤ cap
      · rw [if_pos hsymbol, if_pos hsymbol]
      · rw [if_neg hsymbol, if_neg hsymbol]
    · rw [if_neg hcode, if_neg (by omega)]
      rfl

/-! ### One byte -/

/-- The encoder after an emission and the entry for the failed extension by `c` (44_lzw.md R236). -/
def LzwEnc.restarted (e : LzwEnc) (c : Byte) : LzwEnc := e.emitted.1.alloc e.emitted.2 c

/-- The step for one byte (44_lzw.md R236), when there is room. -/
def LzwEnc.advance (esc : Bool) (e : LzwEnc) (c : Byte) : Except ErrCode LzwEnc :=
  match e.cur with
  | .start => e.begin esc c
  | .node _ | .virt _ =>
    match e.extension esc c with
    | some u => .ok { e with cur := .node u }
    | none => (e.restarted c).begin esc c

/-- The steps for the bytes in turn, when there is room. -/
def LzwEnc.advanceAll (esc : Bool) : LzwEnc → List Byte → Except ErrCode LzwEnc
  | e, [] => .ok e
  | e, c :: data => do
    let e ← e.advance esc c
    LzwEnc.advanceAll esc e data

theorem LzwEnc.restarted_node {e : LzwEnc} {t : Nat} (h : e.cur = .node t) (c : Byte) :
    e.restarted c = { e with ws := e.ws ++ e.code }.alloc (some t) c := by
  rw [LzwEnc.restarted, LzwEnc.emitted, h]

/-- An escaped symbol gets a node of its own, and the failed extension one below it. -/
theorem LzwEnc.restarted_virt {e : LzwEnc} {b : Byte} (h : e.cur = .virt b) (c : Byte) :
    e.restarted c = ({ e with ws := e.ws ++ e.code }.alloc none b).alloc (some e.nextId) c := by
  rw [LzwEnc.restarted, LzwEnc.emitted, h]

@[simp] theorem LzwEnc.restarted_ws (e : LzwEnc) (c : Byte) : (e.restarted c).ws = e.ws ++ e.code := e.emitted_ws

/-- An emission allocates at most one node, and the failed extension is one more. -/
theorem LzwEnc.restarted_nextId_le (e : LzwEnc) (c : Byte) : (e.restarted c).nextId ≤ e.nextId + 2 := by
  unfold LzwEnc.restarted LzwEnc.emitted
  split <;> simp

/-- No allocation takes a child away. -/
theorem LzwEnc.restarted_child_ne_none {e : LzwEnc} {p : Option Nat} {b : Byte} (h : e.child p b ≠ none) (c : Byte) :
    (e.restarted c).child p b ≠ none := by
  have halloc {e : LzwEnc} (h : e.child p b ≠ none) (t : Option Nat) (c : Byte) : (e.alloc t c).child p b ≠ none := by
    rw [LzwEnc.alloc_child]
    split
    · nofun
    · exact h
  refine halloc ?_ _ c
  unfold LzwEnc.emitted
  split
  · exact h
  · exact h
  · exact halloc (e := { e with ws := e.ws ++ e.code }) h _ _

/-- An extension follows an edge from the matched node. -/
theorem LzwEnc.extension_some {esc : Bool} {e : LzwEnc} {c : Byte} {u : Nat} (h : e.extension esc c = some u) :
    ∃ t, e.cur = .node t ∧ e.child (some t) c = some u := by
  unfold LzwEnc.extension at h
  split at h
  case h_2 | h_3 => cases h
  case h_1 t hcur =>
    split at h
    case h_2 => cases h
    case h_1 v hchild =>
      split at h
      · cases h
      · exact ⟨t, hcur, hchild.trans h⟩

theorem LzwEnc.advance_start {esc : Bool} {e : LzwEnc} {c : Byte} (h : e.cur = .start) :
    e.advance esc c = e.begin esc c := by
  rw [LzwEnc.advance, h]

section
variable {esc : Bool} {e : LzwEnc} {c : Byte} (hcur : e.cur ≠ .start)
include hcur

theorem LzwEnc.advance_extend {u : Nat} (h : e.extension esc c = some u) :
    e.advance esc c = .ok { e with cur := .node u } := by
  unfold LzwEnc.advance
  split
  · contradiction
  all_goals rw [h]

theorem LzwEnc.advance_restart (h : e.extension esc c = none) :
    e.advance esc c = (e.restarted c).begin esc c := by
  unfold LzwEnc.advance
  split
  · contradiction
  all_goals rw [h]

/-- The step for a byte after the first. -/
theorem LzwEnc.advance_ok {e' : LzwEnc} (h : e.advance esc c = .ok e') :
    (∃ t u, e.cur = .node t ∧ e.child (some t) c = some u ∧ e' = { e with cur := .node u }) ∨
      (e.restarted c).begin esc c = .ok e' := by
  cases hext : e.extension esc c with
  | none => exact .inr ((LzwEnc.advance_restart hcur hext).symm.trans h)
  | some u =>
    obtain ⟨t, ht, hchild⟩ := LzwEnc.extension_some hext
    exact .inl ⟨t, u, ht, hchild, (Except.ok.inj ((LzwEnc.advance_extend hcur hext).symm.trans h)).symm⟩

end

/-! ### The model's encoder -/

theorem LzwEnc.begin_ws {esc : Bool} {e e' : LzwEnc} {c : Byte} (h : e.begin esc c = .ok e') : e'.ws = e.ws := by
  obtain ⟨t, -, rfl⟩ | ⟨-, rfl⟩ := LzwEnc.begin_ok h <;> rfl

/-- A byte only adds to the write stream. -/
theorem LzwEnc.advance_ws_le {esc : Bool} {e e' : LzwEnc} {c : Byte} (h : e.advance esc c = .ok e') :
    e.ws.length ≤ e'.ws.length := by
  by_cases hcur : e.cur = .start
  · rw [LzwEnc.advance_start hcur] at h
    rw [LzwEnc.begin_ws h]
  · obtain ⟨t, u, -, -, rfl⟩ | h := LzwEnc.advance_ok hcur h
    · exact le_rfl
    · rw [LzwEnc.begin_ws h, LzwEnc.restarted_ws, List.length_append]
      exact Nat.le_add_right ..

theorem LzwEnc.advanceAll_ws_le {esc : Bool} {e e' : LzwEnc} {data : List Byte} (h : e.advanceAll esc data = .ok e') :
    e.ws.length ≤ e'.ws.length := by
  induction data generalizing e with
  | nil => cases h; exact le_rfl
  | cons c data ih =>
    obtain ⟨e₁, h₁, h⟩ := except_bind_ok.1 h
    exact (LzwEnc.advance_ws_le h₁).trans (ih h)

section
variable {esc : Bool} {e e' : LzwEnc} {cap : Nat} (hcap : e.ws.length ≤ cap)
include hcap

/-- After a failed extension the model emits, and goes on as here if that fits. -/
theorem LzwEnc.byte_restart {c : Byte} (hcur : e.cur ≠ .start) (hext : e.extension esc c = none) :
    e.byte esc cap c =
      if e.ws.length + e.code.length ≤ cap then (e.restarted c).begin esc c else .error .capacityExceeded := by
  have hemit : (do
      let (e, t) ← e.emit cap
      (e.alloc t c).begin esc c) =
      if e.ws.length + e.code.length ≤ cap then (e.restarted c).begin esc c else .error .capacityExceeded := by
    rw [LzwEnc.emit_eq hcap]
    by_cases hfits : e.ws.length + e.code.length ≤ cap
    · rw [if_pos hfits, if_pos hfits]
      rfl
    · rw [if_neg hfits, if_neg hfits]
      rfl
  unfold LzwEnc.byte
  split
  · contradiction
  all_goals
    rw [hext]
    exact hemit

/-- The model's step is this one where its output fits. -/
theorem LzwEnc.byte_ok_iff {c : Byte} :
    e.byte esc cap c = .ok e' ↔ e.advance esc c = .ok e' ∧ e'.ws.length ≤ cap := by
  have hkeeps (hbyte : e.byte esc cap c = e.advance esc c) (hws : e.advance esc c = .ok e' → e'.ws = e.ws) :
      e.byte esc cap c = .ok e' ↔ e.advance esc c = .ok e' ∧ e'.ws.length ≤ cap := by
    rw [hbyte]
    exact ⟨fun h => ⟨h, by rwa [hws h]⟩, And.left⟩
  by_cases hcur : e.cur = .start
  · refine hkeeps ?_ fun h => LzwEnc.begin_ws ((LzwEnc.advance_start hcur).symm.trans h)
    rw [LzwEnc.byte, LzwEnc.advance, hcur]
  cases hext : e.extension esc c with
  | some u =>
    have hadvance := LzwEnc.advance_extend hcur hext
    obtain ⟨t, ht, -⟩ := LzwEnc.extension_some hext
    refine hkeeps ?_ fun h => by cases hadvance.symm.trans h; rfl
    rw [hadvance, LzwEnc.byte, ht, hext]
  | none =>
    rw [LzwEnc.byte_restart hcap hcur hext, LzwEnc.advance_restart hcur hext]
    have hlen (h : (e.restarted c).begin esc c = .ok e') : e'.ws.length = e.ws.length + e.code.length := by
      rw [LzwEnc.begin_ws h, LzwEnc.restarted_ws, List.length_append]
    by_cases hfits : e.ws.length + e.code.length ≤ cap
    · rw [if_pos hfits]
      exact ⟨fun h => ⟨h, (hlen h).trans_le hfits⟩, And.left⟩
    · rw [if_neg hfits]
      exact ⟨nofun, fun ⟨h, hle⟩ => absurd ((hlen h).symm.trans_le hle) hfits⟩

theorem LzwEnc.bytes_ok_iff {data : List Byte} :
    e.bytes esc cap data = .ok e' ↔ e.advanceAll esc data = .ok e' ∧ e'.ws.length ≤ cap := by
  induction data generalizing e with
  | nil => exact ⟨fun h => ⟨h, by cases h; exact hcap⟩, And.left⟩
  | cons c data ih =>
    rw [LzwEnc.bytes, LzwEnc.advanceAll, except_bind_ok, except_bind_ok]
    constructor
    · rintro ⟨e₁, h₁, h⟩
      obtain ⟨h₁, hcap₁⟩ := (LzwEnc.byte_ok_iff hcap).1 h₁
      obtain ⟨h, hle⟩ := (ih hcap₁).1 h
      exact ⟨⟨e₁, h₁, h⟩, hle⟩
    · rintro ⟨⟨e₁, h₁, h⟩, hle⟩
      have hcap₁ := (LzwEnc.advanceAll_ws_le h).trans hle
      exact ⟨e₁, (LzwEnc.byte_ok_iff hcap).2 ⟨h₁, hcap₁⟩, (ih hcap₁).2 ⟨h, hle⟩⟩

/-- The final emission, for its write stream. -/
theorem LzwEnc.emit_ws_ok_iff {ws' : List Bool} :
    (do
      let (e, _) ← e.emit cap
      .ok e.ws) = Except.ok (ε := ErrCode) ws' ↔ ws' = e.ws ++ e.code ∧ ws'.length ≤ cap := by
  have hlen : (e.ws ++ e.code).length = e.ws.length + e.code.length := List.length_append
  rw [LzwEnc.emit_eq hcap]
  split
  case isTrue hfits =>
    refine ⟨fun h => ?_, fun h => congrArg Except.ok (e.emitted_ws.trans h.1.symm)⟩
    have hws : e.ws ++ e.code = ws' := e.emitted_ws.symm.trans (Except.ok.inj h)
    exact ⟨hws.symm, hws ▸ hlen.trans_le hfits⟩
  case isFalse hfull => exact ⟨nofun, fun ⟨h, hle⟩ => absurd (hlen.symm.trans_le (h ▸ hle)) hfull⟩

end

/-- The model's encoder succeeds exactly where this one does and its output fits (44_lzw.md R238). -/
theorem lzwEncode_ok_iff {esc : Bool} {alphabet data : List Byte} {cap : Nat} {ws ws' : List Bool}
    (hcap : ws.length ≤ cap) :
    lzwEncode esc alphabet cap ws data = .ok ws' ↔
      ∃ e, (lzwSeed esc alphabet ws).advanceAll esc data = .ok e ∧ ws' = e.ws ++ e.code ∧ ws'.length ≤ cap := by
  rw [lzwEncode, except_bind_ok]
  refine exists_congr fun e => ?_
  rw [LzwEnc.bytes_ok_iff (e := lzwSeed esc alphabet ws) hcap, and_assoc]
  refine and_congr_right fun _ => ⟨fun ⟨hle, h⟩ => (LzwEnc.emit_ws_ok_iff hle).1 h, fun ⟨hws, hle⟩ => ?_⟩
  have hroom : e.ws.length ≤ cap := by
    rw [hws, List.length_append] at hle
    exact (Nat.le_add_right ..).trans hle
  exact ⟨hroom, (LzwEnc.emit_ws_ok_iff hroom).2 ⟨hws, hle⟩⟩

end Sys2Proof.Machine
end

section
/-!
The LZW decoder on what the encoder wrote (44_lzw.md R241, R242): what settles O46. The decoder's dictionary names
every node of the encoder's trie, once its pending entry is completed by the first byte of the match that the
encoder is in; so each emission names the bytes it was made for.
-/

namespace Sys2Proof.Machine

/-! ### Names of nodes -/

/-- `table` names the node `p` of the trie with the string `ph`; the root has the empty string (44_lzw.md R231). -/
def TableNames (table : List (Nat × List Byte)) (ph : List Byte) : Option Nat → Prop
  | none => ph = []
  | some t => table.lookup t = some ph

/-- `table` names every node of the trie with the symbols on its path, and no id outside `[base, nextId)`. -/
structure TrieNamed (base : Nat) (edges : List LzwEdge) (nextId : Nat) (table : List (Nat × List Byte)) : Prop where
  base_le : base ≤ nextId
  ids : ∀ x ph, table.lookup x = some ph → base ≤ x ∧ x < nextId
  edges : ∀ x ∈ edges, ∃ ph, TableNames table ph x.parent ∧ table.lookup x.id = some (ph ++ [x.sym])

section
variable {base nextId : Nat} {edges : List LzwEdge} {table : List (Nat × List Byte)}

theorem TableNames.eq {ph ph' : List Byte} {p : Option Nat} (h : TableNames table ph p) (h' : TableNames table ph' p) :
    ph = ph' := by
  cases p with
  | none => exact h.trans h'.symm
  | some t => exact Option.some.inj (h.symm.trans h')

variable (h : TrieNamed base edges nextId table)
include h

theorem TrieNamed.lookup_nextId : table.lookup nextId = none :=
  Option.eq_none_iff_forall_ne_some.2 fun ph hph => (h.ids _ ph hph).2.false

/-- A new entry leaves the names of all nodes. -/
theorem TrieNamed.names_cons {ph new : List Byte} {p : Option Nat} (hp : TableNames table ph p) :
    TableNames ((nextId, new) :: table) ph p := by
  cases p with
  | none => exact hp
  | some t =>
    have hne : t ≠ nextId := (h.ids t ph hp).2.ne
    rw [TableNames, List.lookup_cons, beq_false_of_ne hne]
    exact hp

/-- A child's name is its parent's and the symbol. -/
theorem TrieNamed.lookup_of_mem {p : Option Nat} {c : Byte} {u : Nat} {ph : List Byte}
    (hmem : { parent := p, sym := c, id := u } ∈ edges) (hp : TableNames table ph p) :
    table.lookup u = some (ph ++ [c]) := by
  obtain ⟨ph', hp', hu⟩ := h.edges _ hmem
  rw [hp.eq hp']
  exact hu

/-- An allocation in the trie is a new entry of the table (44_lzw.md R237, R241). -/
theorem TrieNamed.alloc {p : Option Nat} {ph : List Byte} (hp : TableNames table ph p) (c : Byte) :
    TrieNamed base ({ parent := p, sym := c, id := nextId } :: edges) (nextId + 1) ((nextId, ph ++ [c]) :: table) where
  base_le := Nat.le_succ_of_le h.base_le
  ids x ph' hx := by
    rw [List.lookup_cons] at hx
    by_cases hxn : x = nextId
    · exact ⟨hxn ▸ h.base_le, by omega⟩
    · rw [beq_false_of_ne hxn] at hx
      obtain ⟨hlo, hhi⟩ := h.ids x ph' hx
      exact ⟨hlo, hhi.trans (Nat.lt_succ_self _)⟩
  edges := by
    refine List.forall_mem_cons.2 ⟨⟨ph, h.names_cons hp, List.lookup_cons_self⟩, fun x hx => ?_⟩
    obtain ⟨ph', hp', hx'⟩ := h.edges x hx
    exact ⟨ph', h.names_cons hp', h.names_cons (p := some x.id) hx'⟩

end

/-- The seeded dictionaries of encoder and decoder agree (44_lzw.md R232, R241). -/
theorem trieNamed_seed (esc : Bool) (alphabet : List Byte) (ws : List Bool) :
    TrieNamed (if esc then 1 else 0) (lzwSeed esc alphabet ws).edges (lzwSeed esc alphabet ws).nextId
      (lzwDecSeed esc alphabet).table where
  base_le := Nat.le_add_right ..
  ids x ph hx := by
    rw [lzwDecSeed_lookup] at hx
    exact (Option.ite_none_right_eq_some.1 hx).1
  edges x hx := by
    obtain ⟨⟨c, j⟩, hj, rfl⟩ := List.mem_map.1 hx
    obtain ⟨hlt, hc⟩ := List.getElem?_eq_some_iff.1 (List.mem_zipIdx_iff_getElem?.1 hj)
    refine ⟨[], rfl, ?_⟩
    have hbound : (if esc then 1 else 0) ≤ (if esc then 1 else 0) + j ∧
        (if esc then 1 else 0) + j < (if esc then 1 else 0) + alphabet.length :=
      ⟨Nat.le_add_right .., Nat.add_lt_add_left hlt _⟩
    rw [lzwDecSeed_lookup, if_pos hbound, Nat.add_sub_cancel_left, List.getD_eq_getElem _ _ hlt, hc]
    rfl

/-! ### The decoder follows the encoder -/

/-- A pending entry has a stem, and an id that the table does not have yet. -/
def LzwDec.PendOk (d : LzwDec) : Prop :=
  ∀ id stem, d.pend = some (id, stem) → stem ≠ [] ∧ d.table.lookup id = none

/-- The encoder `e` is matching the bytes `m`, and the decoder `d` has read all that was emitted before them. -/
structure LzwSync (esc : Bool) (e : LzwEnc) (d : LzwDec) (m : List Byte) : Prop where
  ne_nil : m ≠ []
  nextId : d.nextId = e.nextId
  pend : d.PendOk
  named : TrieNamed (if esc then 1 else 0) e.edges e.nextId (d.settlePend (m.headD 0)).table
  cur : (∃ t, e.cur = .node t ∧ (d.settlePend (m.headD 0)).table.lookup t = some m) ∨
    ∃ c, e.cur = .virt c ∧ esc = true ∧ m = [c]

section
variable {esc : Bool} {e : LzwEnc} {d : LzwDec} {m : List Byte}

theorem LzwSync.cur_ne_start (h : LzwSync esc e d m) : e.cur ≠ .start := by
  obtain ⟨t, ht, -⟩ | ⟨c, hc, -⟩ := h.cur
  · rw [ht]; nofun
  · rw [hc]; nofun

/-- What the completed dictionary names, the decoder finds: its pending entry ends in the first byte of the string
that it names (44_lzw.md R241). -/
theorem LzwDec.PendOk.phrase (hd : d.PendOk) {t : Nat} (ht : (d.settlePend (m.headD 0)).table.lookup t = some m) :
    d.phrase t = some m := by
  cases hp : d.pend with
  | none =>
    rw [LzwDec.settlePend_none hp] at ht
    exact LzwDec.phrase_of_lookup ht
  | some entry =>
    obtain ⟨id, stem⟩ := entry
    obtain ⟨hstem, hfree⟩ := hd id stem hp
    rw [LzwDec.settlePend_some hp, List.lookup_cons] at ht
    by_cases hid : t = id
    · subst hid
      rw [beq_self_eq_true] at ht
      have hm : stem ++ [m.headD 0] = m := Option.some.inj ht
      obtain ⟨b, stem, rfl⟩ := List.exists_cons_of_ne_nil hstem
      have hhead : m.headD 0 = b := by rw [← hm]; rfl
      rw [LzwDec.phrase_pend hfree hp, ← hm, hhead]
      rfl
    · rw [beq_false_of_ne hid] at ht
      exact LzwDec.phrase_of_lookup ht

/-- An extension makes the match longer and changes nothing else. -/
theorem LzwSync.extend (h : LzwSync esc e d m) {t u : Nat} {c : Byte} (ht : e.cur = .node t)
    (hu : e.child (some t) c = some u) : LzwSync esc { e with cur := .node u } d (m ++ [c]) := by
  have hhead : (m ++ [c]).headD 0 = m.headD 0 := by
    obtain ⟨b, m, rfl⟩ := List.exists_cons_of_ne_nil h.ne_nil
    rfl
  refine ⟨by simp, h.nextId, h.pend, by rw [hhead]; exact h.named, .inl ⟨u, rfl, ?_⟩⟩
  obtain ⟨t', ht', hm⟩ | ⟨b, hb, -⟩ := h.cur
  · cases ht.symm.trans ht'
    rw [hhead]
    exact h.named.lookup_of_mem (LzwEnc.mem_edges_of_child hu) (p := some t) hm
  · cases ht.symm.trans hb

/-- A match starts over a dictionary that the decoder has, but for the last byte of its pending entry. -/
theorem lzwSync_of_begin {e' : LzwEnc} {c : Byte} (hid : d.nextId = e.nextId) (hd : d.PendOk)
    (hnamed : TrieNamed (if esc then 1 else 0) e.edges e.nextId (d.settlePend c).table) (h : e.begin esc c = .ok e') :
    LzwSync esc e' d [c] := by
  obtain ⟨t, ht, rfl⟩ | ⟨hesc, rfl⟩ := LzwEnc.begin_ok h
  · exact ⟨by simp, hid, hd, hnamed, .inl ⟨t, rfl, hnamed.lookup_of_mem (LzwEnc.mem_edges_of_child ht) (ph := []) rfl⟩⟩
  · exact ⟨by simp, hid, hd, hnamed, .inr ⟨c, rfl, hesc, rfl⟩⟩

/-- One emission of the encoder is one of the decoder, for the bytes of the match; and then, with the entry for the
failed extension, the decoder is as far as the encoder. -/
theorem LzwSync.emission (h : LzwSync esc e d m) :
    ∃ d', (∀ r : Reader, r.Holds e.code → d.emission esc r = .ok (m, d', r.skip e.code.length)) ∧
      ∀ c e', (e.restarted c).begin esc c = .ok e' → LzwSync esc e' d' [c] := by
  obtain ⟨hne, hid, hd, hnamed, ⟨t, ht, hm⟩ | ⟨b, hb, rfl, rfl⟩⟩ := h
  · obtain ⟨hlo, hhi⟩ := hnamed.ids t m hm
    have hcode : e.code = fieldBits t (bitsFor d.nextId) := by rw [LzwEnc.code, ht, hid]
    have hwidth : t < 2 ^ bitsFor d.nextId := hhi.trans_le (hid ▸ le_two_pow_bitsFor _)
    rw [hcode, fieldBits_length]
    refine ⟨d.afterCode m, fun r hr => hr.emission_code hwidth (not_escape_of_le hlo) (hd.phrase hm),
      fun c e' hbegin => ?_⟩
    rw [LzwEnc.restarted_node ht] at hbegin
    refine lzwSync_of_begin (congrArg (· + 1) hid) ?_ ?_ hbegin
    · rintro id stem hpend
      cases hpend
      exact ⟨hne, hid ▸ hnamed.lookup_nextId⟩
    · rw [LzwDec.settlePend_some (d := d.afterCode m) rfl, hid]
      exact hnamed.alloc (p := some t) hm c
  · have hcode : e.code = fieldBits 0 (bitsFor d.nextId) ++ symbolBits b := by rw [LzwEnc.code, hb, hid]
    rw [hcode, List.length_append, fieldBits_length, symbolBits_length]
    refine ⟨d.afterEscape b, fun r hr => hr.emission_symbol, fun c e' hbegin => ?_⟩
    have hsymbol :
        TrieNamed 1 ({ parent := none, sym := b, id := e.nextId } :: e.edges) (e.nextId + 1)
          (d.afterEscape b).table := by
      rw [LzwDec.afterEscape, hid]
      exact hnamed.alloc (p := none) (ph := []) rfl b
    have hlookup : (d.afterEscape b).table.lookup e.nextId = some [b] := by
      rw [LzwDec.afterEscape, hid]
      exact List.lookup_cons_self
    rw [LzwEnc.restarted_virt hb] at hbegin
    refine lzwSync_of_begin (congrArg (· + 2) hid) ?_ ?_ hbegin
    · rintro id stem hpend
      cases hpend
      exact ⟨by simp, hid ▸ hsymbol.lookup_nextId⟩
    · rw [LzwDec.settlePend_some (d := d.afterEscape b) rfl, hid]
      exact hsymbol.alloc (p := some e.nextId) hlookup c

/-- A pass of the decoder, on the way to an output that goes on with its phrase. -/
theorem lzwDecodeFrom_phrase {r r' : Reader} {d' : LzwDec} {fuel : Nat} (hm : m ≠ [])
    (h : d.emission esc r = .ok (m, d', r')) (out rest : List Byte) :
    lzwDecodeFrom esc (out ++ m ++ rest).length (fuel + 1) d out r =
      lzwDecodeFrom esc (out ++ m ++ rest).length fuel d' (out ++ m) r' := by
  have hpos := List.length_pos_iff.2 hm
  exact lzwDecodeFrom_pass (by simp; omega) h (by simp)

/-- The decoder's passes from here on turn what the encoder still writes into the bytes of the match and those after
it. -/
theorem LzwSync.lzwDecodeFrom {data : List Byte} {e' : LzwEnc} (h : LzwSync esc e d m)
    (hrun : e.advanceAll esc data = .ok e') :
    ∃ bits, e'.ws ++ e'.code = e.ws ++ bits ∧ ∀ (r : Reader) (out : List Byte) (fuel : Nat), r.Holds bits →
      data.length < fuel →
      Machine.lzwDecodeFrom esc (out ++ m ++ data).length fuel d out r =
        .ok (out ++ m ++ data, r.skip bits.length) := by
  induction data generalizing e d m with
  | nil =>
    obtain rfl : e = e' := Except.ok.inj hrun
    refine ⟨e.code, rfl, fun r out fuel hr hfuel => ?_⟩
    obtain ⟨fuel, rfl⟩ := Nat.exists_eq_succ_of_ne_zero hfuel.ne'
    obtain ⟨d', hem, -⟩ := h.emission
    rw [lzwDecodeFrom_phrase h.ne_nil (hem r hr), lzwDecodeFrom_done (by simp), List.append_nil]
  | cons c data ih =>
    obtain ⟨e₁, hstep, hrun⟩ := except_bind_ok.1 hrun
    obtain ⟨t, u, ht, hu, rfl⟩ | hbegin := LzwEnc.advance_ok h.cur_ne_start hstep
    · obtain ⟨bits, hws, hdec⟩ := ih (h.extend ht hu) hrun
      refine ⟨bits, hws, fun r out fuel hr hfuel => ?_⟩
      have hout := hdec r out fuel hr (Nat.lt_of_succ_lt hfuel)
      rwa [← List.append_assoc, ← List.append_cons] at hout
    · obtain ⟨d', hem, hnext⟩ := h.emission
      obtain ⟨bits, hws, hdec⟩ := ih (hnext c e₁ hbegin) hrun
      rw [LzwEnc.begin_ws hbegin, LzwEnc.restarted_ws, List.append_assoc] at hws
      refine ⟨e.code ++ bits, hws, fun r out fuel hr hfuel => ?_⟩
      obtain ⟨hcode, hrest⟩ := Reader.holds_append.1 hr
      obtain ⟨fuel, rfl⟩ := Nat.exists_eq_succ_of_ne_zero (Nat.ne_zero_of_lt hfuel)
      have hout := hdec (r.skip e.code.length) (out ++ m) fuel hrest (Nat.lt_of_succ_lt_succ hfuel)
      rw [List.append_assoc (out ++ m) [c] data, List.singleton_append, Reader.skip_skip, ← List.length_append] at hout
      rw [lzwDecodeFrom_phrase h.ne_nil (hem r hcode), hout]

end

/-- The decoder inverts the encoder and reads exactly its bits (44_lzw.md R242). -/
theorem lzwDecode_of_lzwEncode {esc : Bool} {alphabet data : List Byte} {cap : Nat} {bits : List Bool}
    (henc : lzwEncode esc alphabet cap [] data = .ok bits) {r : Reader} (hr : r.Holds bits) :
    lzwDecode esc alphabet data.length r = .ok (data, r.skip bits.length) := by
  obtain ⟨e', hrun, rfl, -⟩ := (lzwEncode_ok_iff (Nat.zero_le cap)).1 henc
  cases data with
  | nil =>
    obtain rfl := Except.ok.inj hrun
    rfl
  | cons c data =>
    obtain ⟨e, hbegin, hrun⟩ := except_bind_ok.1 hrun
    rw [LzwEnc.advance_start rfl] at hbegin
    have hsync : LzwSync esc e (lzwDecSeed esc alphabet) [c] :=
      lzwSync_of_begin rfl nofun (trieNamed_seed esc alphabet []) hbegin
    obtain ⟨bits, hws, hdec⟩ := hsync.lzwDecodeFrom hrun
    have hempty : e.ws = [] := LzwEnc.begin_ws hbegin
    rw [hempty, List.nil_append] at hws
    rw [hws] at hr ⊢
    exact hdec r [] (data.length + 1) hr (Nat.lt_succ_self _)

/-! ### The round trip -/

/-- `LZW_ENC` on an input that IBUF holds (44_lzw.md R239). -/
theorem exec_lzwEnc {esc : Bool} {s : State} (hcap : s.ilen.toNat ≤ s.params.ibufCap) :
    exec (.lzwEnc esc) s = s.finishWrite (lzwEncode esc s.alphabet s.params.wsCap s.ws s.inputBytes) := by
  simp only [exec, execLzwEnc, if_neg hcap.not_gt]

theorem exec_lzwEnc_of_long {esc : Bool} {s : State} (h : s.params.ibufCap < s.ilen.toNat) :
    exec (.lzwEnc esc) s = .next (s.failedWith .capacityExceeded) := by
  simp only [exec, execLzwEnc, if_pos h, State.raise_eq_failedWith]

/-- `LZW_ENC` from an empty stream succeeds only on an input that its coder encodes. -/
theorem lzwEncode_of_after_lzwEnc {esc : Bool} {s : State} (hws : s.ws = [])
    (h : (after (.lzwEnc esc) s).err = .noError) :
    ∃ bits, lzwEncode esc s.alphabet s.params.wsCap [] s.inputBytes = .ok bits ∧
      after (.lzwEnc esc) s = s.appended bits := by
  have hcap : s.ilen.toNat ≤ s.params.ibufCap := by
    by_contra hlong
    rw [after_of_exec (exec_lzwEnc_of_long (Nat.lt_of_not_le hlong))] at h
    cases h
  have hexec := exec_lzwEnc (esc := esc) hcap
  cases henc : lzwEncode esc s.alphabet s.params.wsCap s.ws s.inputBytes with
  | error e =>
    rw [henc, State.finishWrite_error] at hexec
    rw [after_of_exec hexec] at h
    obtain rfl : e = .noError := h
    have hends := ends_lzwEncode (E := [.capacityExceeded, .unknownSymbol]) (by simp) s.params.wsCap (esc := esc)
      (by simp) s.alphabet s.ws s.inputBytes
    rw [henc] at hends
    exact absurd hends (by simp [Ends])
  | ok bits =>
    rw [henc, ← List.nil_append bits, ← hws, State.finishWrite_append] at hexec
    exact ⟨bits, hws ▸ henc, after_of_exec hexec⟩

/-- The round trip from an empty write stream. -/
theorem exec_lzwDec_after_lzwEnc {esc : Bool} {s : State} (hws : s.ws = []) (hlegal : s.params.legal)
    (harg : s.arg0 = s.ilen) (hobuf : s.ilen.toNat ≤ s.params.obufCap)
    (henc : (after (.lzwEnc esc) s).err = .noError)
    (hload : (after (.rsLoad false) (after (.lzwEnc esc) s)).err = .noError) :
    ∃ t, exec (.lzwDec esc) (after (.rsLoad false) (after (.lzwEnc esc) s)) = .next t ∧ t.err = .noError ∧
      t.olen = s.ilen ∧ t.rpos.toNat = (after (.lzwEnc esc) s).ws.length ∧
      ∀ a, a < s.ilen.toNat → t.obufByte a = s.ibufByte a := by
  obtain ⟨-, -, -, -, hwsCap⟩ := hlegal
  obtain ⟨bits, hbits, henc'⟩ := lzwEncode_of_after_lzwEnc hws henc
  obtain ⟨hfits, hload'⟩ := after_rsLoad_eq_streamLoaded (by rw [hload]; nofun)
  rw [henc'] at hfits hload' ⊢
  have hstream : (s.appended bits).ws = bits := by rw [State.appended, hws, List.nil_append]
  have hsmall : bits.length ≤ s.params.wsCap := by
    obtain ⟨-, -, -, hle⟩ := (lzwEncode_ok_iff (Nat.zero_le _)).1 hbits
    exact hle
  have hbody (r : Reader) (h : r.Holds (s.appended bits).ws) :
      lzwDecode esc s.alphabet s.inputBytes.length r = .ok (s.inputBytes, r.skip (s.appended bits).ws.length) := by
    rw [hstream] at h ⊢
    exact lzwDecode_of_lzwEncode hbits h
  obtain ⟨t, ht, herr, holen, hrpos, hbytes⟩ := State.decodeCommand_streamLoaded (s := s.appended bits)
    (s.inputBytes_length.trans (congrArg BitVec.toNat harg.symm)) hbody
    ((congrArg BitVec.toNat harg).trans_le hobuf) hfits (by rw [hstream]; omega)
  rw [hload', exec_lzwDec]
  refine ⟨t, ht, herr, holen.trans harg, hrpos, fun a ha => ?_⟩
  rw [hbytes a (ha.trans_eq (congrArg BitVec.toNat harg.symm)), State.inputBytes_getD s ha]

/-- Settles O46: LZW_DEC reads what LZW_ENC wrote from the empty write stream. -/
theorem lzwRoundTrip : Obligations.LzwRoundTrip := by
  unfold Obligations.LzwRoundTrip
  rintro esc s _ _ hlegal harg hobuf rfl henc rfl hload
  rw [after_wsClear] at henc hload ⊢
  exact exec_lzwDec_after_lzwEnc rfl hlegal harg hobuf henc hload

end Sys2Proof.Machine
end

section
/-!
What the LZW encoder writes with room for 34 bits a byte, and of three inputs that extend a match: what settles O33.
-/

namespace Sys2Proof.Machine

/-! ### Every byte is encoded -/

/-- Every byte of `data` starts a match (44_lzw.md R235). -/
def LzwEnc.Begins (esc : Bool) (e : LzwEnc) (data : List Byte) : Prop :=
  ∀ c ∈ data, esc = true ∨ e.child none c ≠ none

/-- `e'` is `e` after at most `k` emissions of at most 34 bits and two ids each (44_lzw.md R231). -/
structure LzwGrown (k : Nat) (e e' : LzwEnc) : Prop where
  ws : ∃ bits, e'.ws = e.ws ++ bits ∧ bits.length ≤ 34 * k
  nextId : e'.nextId ≤ e.nextId + 2 * k
  cur : e'.cur ≠ .start
  child : ∀ c, e.child none c ≠ none → e'.child none c ≠ none

theorem LzwGrown.trans {j k : Nat} {e₁ e₂ e₃ : LzwEnc} (h : LzwGrown j e₁ e₂) (h' : LzwGrown k e₂ e₃) :
    LzwGrown (j + k) e₁ e₃ := by
  obtain ⟨as, has, hj⟩ := h.ws
  obtain ⟨bs, hbs, hk⟩ := h'.ws
  have hid := h.nextId
  have hid' := h'.nextId
  refine ⟨⟨as ++ bs, by rw [hbs, has, List.append_assoc], ?_⟩, by omega, h'.cur, fun c hc => h'.child c (h.child c hc)⟩
  rw [List.length_append]
  omega

theorem LzwEnc.begin_cur_ne_start {esc : Bool} {e e' : LzwEnc} {c : Byte} (h : e.begin esc c = .ok e') :
    e'.cur ≠ .start := by
  obtain ⟨t, -, rfl⟩ | ⟨-, rfl⟩ := LzwEnc.begin_ok h <;> nofun

theorem LzwEnc.begin_nextId {esc : Bool} {e e' : LzwEnc} {c : Byte} (h : e.begin esc c = .ok e') :
    e'.nextId = e.nextId := by
  obtain ⟨t, -, rfl⟩ | ⟨-, rfl⟩ := LzwEnc.begin_ok h <;> rfl

theorem LzwEnc.begin_child {esc : Bool} {e e' : LzwEnc} {c : Byte} (h : e.begin esc c = .ok e') (p : Option Nat)
    (b : Byte) : e'.child p b = e.child p b := by
  obtain ⟨t, -, rfl⟩ | ⟨-, rfl⟩ := LzwEnc.begin_ok h <;> rfl

/-- With an id below `2^26` an emission is at most 34 bits (44_lzw.md R231). -/
theorem LzwEnc.code_length_le_of_nextId_le {e : LzwEnc} (h : e.nextId ≤ 2 ^ 26) : e.code.length ≤ 34 := by
  have hcode := e.code_length_le
  have hwidth := (bitsFor_le_iff e.nextId 26).2 h
  omega

theorem LzwEnc.exists_advance {esc : Bool} {e : LzwEnc} {c : Byte} (hcur : e.cur ≠ .start) (hid : e.nextId ≤ 2 ^ 26)
    (hc : esc = true ∨ e.child none c ≠ none) : ∃ e', e.advance esc c = .ok e' ∧ LzwGrown 1 e e' := by
  cases hext : e.extension esc c with
  | some u =>
    exact ⟨_, LzwEnc.advance_extend hcur hext, ⟨[], (List.append_nil _).symm, Nat.zero_le _⟩, Nat.le_add_right ..,
      nofun, fun _ => id⟩
  | none =>
    obtain ⟨e', h⟩ := LzwEnc.exists_begin (hc.imp_right fun hchild => LzwEnc.restarted_child_ne_none hchild c)
    refine ⟨e', (LzwEnc.advance_restart hcur hext).trans h, ⟨e.code, ?_, LzwEnc.code_length_le_of_nextId_le hid⟩, ?_,
      LzwEnc.begin_cur_ne_start h, fun b hb => ?_⟩
    · rw [LzwEnc.begin_ws h, LzwEnc.restarted_ws]
    · exact (LzwEnc.begin_nextId h).trans_le (e.restarted_nextId_le c)
    · rw [LzwEnc.begin_child h]
      exact LzwEnc.restarted_child_ne_none hb c

theorem LzwEnc.exists_advanceAll {esc : Bool} {e : LzwEnc} {data : List Byte} (hcur : e.cur ≠ .start)
    (hid : e.nextId + 2 * data.length ≤ 2 ^ 26) (hdata : e.Begins esc data) :
    ∃ e', e.advanceAll esc data = .ok e' ∧ LzwGrown data.length e e' := by
  induction data generalizing e with
  | nil => exact ⟨e, rfl, ⟨[], (List.append_nil _).symm, Nat.zero_le _⟩, le_rfl, hcur, fun _ => id⟩
  | cons c data ih =>
    rw [List.length_cons] at hid ⊢
    obtain ⟨hc, hdata⟩ := List.forall_mem_cons.1 hdata
    obtain ⟨e₁, h₁, hgrown₁⟩ := LzwEnc.exists_advance hcur (by omega) hc
    have hid₁ := hgrown₁.nextId
    obtain ⟨e', h', hgrown'⟩ := ih hgrown₁.cur (by omega) fun b hb => (hdata b hb).imp_right (hgrown₁.child b)
    exact ⟨e', except_bind_ok.2 ⟨e₁, h₁, h'⟩, Nat.add_comm 1 _ ▸ hgrown₁.trans hgrown'⟩

/-- A symbol of the alphabet has a seeded node (44_lzw.md R232). -/
theorem lzwSeed_child_ne_none {alphabet : List Byte} {c : Byte} (h : c ∈ alphabet) (esc : Bool) (ws : List Bool) :
    (lzwSeed esc alphabet ws).child none c ≠ none := by
  obtain ⟨j, hj⟩ := List.getElem?_of_mem h
  have hpair : (c, j) ∈ alphabet.zipIdx := List.mem_zipIdx_iff_getElem?.2 hj
  have hedge : LzwEdge.mk none c ((if esc then 1 else 0) + j) ∈ (lzwSeed esc alphabet ws).edges :=
    List.mem_map.2 ⟨(c, j), hpair, rfl⟩
  intro hnone
  have hfind := List.find?_eq_none.1 (Option.map_eq_none_iff.1 hnone) _ hedge
  simp at hfind

/-- A run of the encoder whose output fits. -/
theorem lzwEncode_of_run {esc : Bool} {alphabet data : List Byte} {cap : Nat} {ws bits : List Bool} {e : LzwEnc}
    (hrun : (lzwSeed esc alphabet ws).advanceAll esc data = .ok e) (hbits : e.ws ++ e.code = ws ++ bits)
    (hfits : ws.length + bits.length ≤ cap) : lzwEncode esc alphabet cap ws data = .ok (ws ++ bits) :=
  (lzwEncode_ok_iff ((Nat.le_add_right ..).trans hfits)).2 ⟨e, hrun, hbits.symm, List.length_append.trans_le hfits⟩

/-- The encoder succeeds on an input whose bytes all start a match, and writes at most 34 bits a byte
(44_lzw.md R231, R239). -/
theorem exists_lzwEncode {esc : Bool} {alphabet data : List Byte} {cap : Nat} {ws : List Bool}
    (hdata : esc = true ∨ ∀ c ∈ data, c ∈ alphabet) (halpha : alphabet.length ≤ 256) (hlen : data.length ≤ 2 ^ 24)
    (hroom : ws.length + 34 * data.length ≤ cap) :
    ∃ bits, bits.length ≤ 34 * data.length ∧ lzwEncode esc alphabet cap ws data = .ok (ws ++ bits) := by
  cases data with
  | nil => exact ⟨[], le_rfl, lzwEncode_of_run rfl rfl hroom⟩
  | cons c data =>
    have hbegins : (lzwSeed esc alphabet ws).Begins esc (c :: data) := fun b hb =>
      hdata.imp_right fun hall => lzwSeed_child_ne_none (hall b hb) esc ws
    obtain ⟨hc, hbegins⟩ := List.forall_mem_cons.1 hbegins
    obtain ⟨e₁, hbegin⟩ := LzwEnc.exists_begin hc
    have hid : e₁.nextId ≤ 257 := by
      rw [LzwEnc.begin_nextId hbegin]
      have hbase : (if esc then 1 else 0) ≤ 1 := by cases esc <;> decide
      show (if esc then 1 else 0) + alphabet.length ≤ 257
      omega
    rw [List.length_cons] at hlen hroom ⊢
    obtain ⟨e, hrun, hgrown⟩ := LzwEnc.exists_advanceAll (LzwEnc.begin_cur_ne_start hbegin) (by omega)
      fun b hb => (hbegins b hb).imp_right fun h => by rwa [LzwEnc.begin_child hbegin]
    obtain ⟨bits, hws, hbits⟩ := hgrown.ws
    have hid' := hgrown.nextId
    have hcode := LzwEnc.code_length_le_of_nextId_le (e := e) (by omega)
    have hlen : (bits ++ e.code).length ≤ 34 * (data.length + 1) := by
      rw [List.length_append]
      omega
    refine ⟨bits ++ e.code, hlen, lzwEncode_of_run (except_bind_ok.2 ⟨e₁, ?_, hrun⟩) ?_ (by omega)⟩
    · exact (LzwEnc.advance_start rfl).trans hbegin
    · rw [hws, LzwEnc.begin_ws hbegin, ← List.append_assoc]
      rfl

/-! ### Inputs that extend a match -/

/-- The example of 44_lzw.md R239: escapes `a` and `b`, then `ab` twice, which is the node 2. -/
theorem lzwRun_alternation {a b : Byte} (hab : a ≠ b) (ws : List Bool) :
    ∃ e, (lzwSeed true [] ws).advanceAll true (alternation a b 6) = .ok e ∧
      e.ws ++ e.code =
        ws ++ (fieldBits 0 (bitsFor 1) ++ symbolBits a ++ (fieldBits 0 (bitsFor 3) ++ symbolBits b) ++
          fieldBits 2 (bitsFor 5) ++ fieldBits 2 (bitsFor 6)) := by
  have hdata : alternation a b 6 = [a, b, a, b, a, b] := rfl
  simp [hdata, LzwEnc.advanceAll, LzwEnc.advance, lzwSeed, LzwEnc.begin, LzwEnc.child, LzwEnc.extension,
    LzwEnc.restarted, LzwEnc.emitted, LzwEnc.code, LzwEnc.alloc, bind, Except.bind, hab, hab.symm]

/-- A run in escape mode: every extension would land on the newest node, so each byte after the first is the id of
`c` (44_lzw.md R239). -/
theorem lzwRun_replicate_escape (c : Byte) (ws : List Bool) :
    ∃ e, (lzwSeed true [] ws).advanceAll true (List.replicate 4 c) = .ok e ∧
      e.ws ++ e.code =
        ws ++ (fieldBits 0 (bitsFor 1) ++ symbolBits c ++ fieldBits 1 (bitsFor 3) ++ fieldBits 1 (bitsFor 4) ++
          fieldBits 1 (bitsFor 5)) := by
  simp [List.replicate, LzwEnc.advanceAll, LzwEnc.advance, lzwSeed, LzwEnc.begin, LzwEnc.child, LzwEnc.extension,
    LzwEnc.restarted, LzwEnc.emitted, LzwEnc.code, LzwEnc.alloc, bind, Except.bind]

/-- A run without escape over the alphabet `c`: `c`, then `cc` by the newest node, then `c`. -/
theorem lzwRun_replicate_alphabet (c : Byte) (ws : List Bool) :
    ∃ e, (lzwSeed false [c] ws).advanceAll false (List.replicate 4 c) = .ok e ∧
      e.ws ++ e.code =
        ws ++ (fieldBits 0 (bitsFor 1) ++ fieldBits 1 (bitsFor 2) ++ fieldBits 0 (bitsFor 3)) := by
  simp [List.replicate, LzwEnc.advanceAll, LzwEnc.advance, lzwSeed, LzwEnc.begin, LzwEnc.child, LzwEnc.extension,
    LzwEnc.restarted, LzwEnc.emitted, LzwEnc.code, LzwEnc.alloc, bind, Except.bind]

/-! ### LZW_ENC -/

/-- `LZW_ENC` when its coder succeeds (44_lzw.md R239). -/
theorem exec_lzwEnc_of_ok {esc : Bool} {s : State} {bits : List Bool} (hcap : s.ilen.toNat ≤ s.params.ibufCap)
    (h : lzwEncode esc s.alphabet s.params.wsCap s.ws s.inputBytes = .ok (s.ws ++ bits)) :
    exec (.lzwEnc esc) s = .next (s.appended bits) := by
  rw [exec_lzwEnc hcap, h, State.finishWrite_append]

theorem State.alphabet_length_le (s : State) : s.alphabet.length ≤ 256 := by
  rw [State.alphabet, List.length_map]
  exact (List.length_filter_le ..).trans_eq List.length_range

/-- Settles O33: `exists_lzwEncode` on the input in IBUF, and the three runs. -/
theorem lzwEncCompletes : Obligations.LzwEncCompletes := by
  unfold Obligations.LzwEncCompletes
  refine ⟨fun esc s hlegal hcap hinput hroom => ?completes, fun s a b hlen hcap halpha hab hall hroom => ?alternation,
    fun s c hlen hcap hall => ?run⟩
  case completes =>
    obtain ⟨⟨-, hibuf⟩, -⟩ := hlegal
    obtain ⟨bits, hbits, henc⟩ := exists_lzwEncode (esc := esc) (alphabet := s.alphabet) (data := s.inputBytes)
      (cap := s.params.wsCap) (ws := s.ws)
      (hinput.imp_right fun hall e he => by
        obtain ⟨k, hk, rfl⟩ := State.mem_inputBytes.1 he
        exact hall k hk)
      s.alphabet_length_le (s.inputBytes_length.trans_le (hcap.trans hibuf)) (by rwa [s.inputBytes_length])
    rw [s.inputBytes_length] at hbits
    exact ⟨_, bits, exec_lzwEnc_of_ok hcap henc, hbits, henc, rfl⟩
  case alternation =>
    have hempty : s.alphabet = [] := List.eq_nil_iff_forall_not_mem.2 halpha
    have hdata : s.inputBytes = alternation a b 6 := by
      rw [State.inputBytes, hlen]
      exact List.map_congr_left fun k hk => hall k (List.mem_range.1 hk)
    obtain ⟨e, hrun, hbits⟩ := lzwRun_alternation hab s.ws
    rw [← hempty, ← hdata] at hrun
    refine exec_lzwEnc_of_ok (hlen ▸ hcap) (lzwEncode_of_run hrun hbits ?_)
    simpa using hroom
  case run =>
    have hdata : s.inputBytes = List.replicate 4 c :=
      List.eq_replicate_iff.2 ⟨s.inputBytes_length.trans hlen, fun e he => by
        obtain ⟨k, hk, rfl⟩ := State.mem_inputBytes.1 he
        exact hall k (hlen ▸ hk)⟩
    refine ⟨fun halpha hroom => ?_, fun halpha hroom => ?_⟩
    · have hempty : s.alphabet = [] := List.eq_nil_iff_forall_not_mem.2 halpha
      obtain ⟨e, hrun, hbits⟩ := lzwRun_replicate_escape c s.ws
      rw [← hempty, ← hdata] at hrun
      refine exec_lzwEnc_of_ok (hlen ▸ hcap) (lzwEncode_of_run hrun hbits ?_)
      simpa using hroom
    · obtain ⟨e, hrun, hbits⟩ := lzwRun_replicate_alphabet c s.ws
      rw [← halpha, ← hdata] at hrun
      exact exec_lzwEnc_of_ok (hlen ▸ hcap) (lzwEncode_of_run hrun hbits hroom)

end Sys2Proof.Machine
end

section
/-!
What the BWT encoder makes of a message (45_bwt.md R260 to R263): what settles O35 and O36.
-/

namespace Sys2Proof.Machine

/-! ### BWT_XFORM -/

theorem sortedRotations_length (data : List Byte) : (sortedRotations data).length = data.length :=
  (sortsRotations_sortedRotations data).1.length_eq.trans List.length_range

theorem mem_sortedRotations {data : List Byte} {i : Nat} : i ∈ sortedRotations data ↔ i < data.length :=
  (sortsRotations_sortedRotations data).1.mem_iff.trans List.mem_range

/-- The message is one of its own rotations. -/
theorem bwtRank_lt {data : List Byte} (h : data ≠ []) : bwtRank data < data.length := by
  have hmem : 0 ∈ sortedRotations data := mem_sortedRotations.2 (List.length_pos_of_ne_nil h)
  exact (List.idxOf_lt_length_of_mem hmem).trans_eq (sortedRotations_length data)

/-- The column, by places in sorted order (45_bwt.md R262). -/
theorem State.bwtColumn_inputBytes_getD {s : State} {k : Nat} (hk : k < s.ilen.toNat) :
    (bwtColumn s.inputBytes).getD k 0 =
      s.ibufByte (((sortedRotations s.inputBytes).getD k 0 + s.ilen.toNat - 1) % s.ilen.toNat) := by
  have hlen : k < (sortedRotations s.inputBytes).length := by rwa [sortedRotations_length, s.inputBytes_length]
  rw [State.bwtColumn_inputBytes (Nat.ne_zero_of_lt hk), List.getD_eq_getElem _ _ (by rwa [List.length_map]),
    List.getElem_map, List.getD_eq_getElem _ _ hlen]

/-- The state that `BWT_XFORM` leaves when it delivers (45_bwt.md R266). -/
def State.transformed (s : State) : State :=
  { s with obuf := s.obuf.storeRange 0 (bwtColumn s.inputBytes), olen := s.ilen,
           result0 := BitVec.ofNat 32 (bwtRank s.inputBytes), result1 := s.ilen, err := .noError, pending := none }

theorem exec_bwtXform_of_fits {s : State} (hibuf : s.ilen.toNat ≤ s.params.ibufCap)
    (hobuf : s.ilen.toNat ≤ s.params.obufCap) (hn : s.ilen.toNat ≠ 0) :
    exec .bwtXform s = .next s.transformed := by
  simp only [exec, execBwtXform, if_neg hibuf.not_gt, if_neg hobuf.not_gt, if_neg hn]
  rfl

theorem exec_bwtXform_of_empty {s : State} (h : s.ilen = 0) :
    exec .bwtXform s = .next (s.raiseSpoiling 0 .domainError) := by
  have hzero : s.ilen.toNat = 0 := congrArg BitVec.toNat h
  simp only [exec, execBwtXform, hzero, Nat.not_lt_zero, if_false, if_true]

theorem State.obufByte_transformed (s : State) (a : Nat) :
    s.transformed.obufByte a = if a < s.ilen.toNat then (bwtColumn s.inputBytes).getD a 0 else s.obufByte a := by
  have hbyte := Memory.byteAt_storeRange s.obuf s.resets .obuf 0 a (bwtColumn s.inputBytes)
  simp only [bwtColumn_length, s.inputBytes_length, Nat.zero_le, true_and, Nat.zero_add, Nat.sub_zero] at hbyte
  exact hbyte

/-- Settles O35: the model's own order `σ` of the rotations, and its column byte by byte. -/
theorem bwtXformSortsRotations : Obligations.BwtXformSortsRotations := by
  unfold Obligations.BwtXformSortsRotations
  refine ⟨?_, fun s h => ⟨_, exec_bwtXform_of_empty h, s.failedSpoiling_raiseSpoiling 0 _⟩⟩
  rintro s _ rfl hibuf hobuf hn
  have hdata : s.inputBytes ≠ [] := State.inputBytes_ne_nil fun h => hn (congrArg BitVec.toNat h)
  have hrank : s.transformed.result0.toNat = bwtRank s.inputBytes :=
    Nat.mod_eq_of_lt (((bwtRank_lt hdata).trans_eq s.inputBytes_length).trans s.ilen.isLt)
  refine ⟨_, sortedRotations s.inputBytes, exec_bwtXform_of_fits hibuf hobuf hn,
    sortsRotations_sortedRotations _, fun k hk => ?_, fun a ha => ?_, ?_, rfl⟩
  · rw [State.obufByte_transformed, if_pos hk, State.bwtColumn_inputBytes_getD hk]
  · rw [State.obufByte_transformed, if_neg ha.not_gt]
  · rw [hrank, sortedRotations_getD_bwtRank hdata]

/-! ### The runs -/

/-- What the runs spell: each symbol repeated by its length (45_bwt.md R263). -/
def spellRuns (runs : List (Byte × Nat)) : List Byte := runs.flatMap fun x => List.replicate x.2 x.1

theorem spellRuns_append (xs ys : List (Byte × Nat)) : spellRuns (xs ++ ys) = spellRuns xs ++ spellRuns ys :=
  List.flatMap_append

/-- A symbol added to the runs is spelled last. -/
theorem spellRuns_addToRuns (runs : List (Byte × Nat)) (c : Byte) :
    spellRuns (addToRuns runs c).reverse = spellRuns runs.reverse ++ [c] := by
  have hnew : spellRuns ((c, 1) :: runs).reverse = spellRuns runs.reverse ++ [c] := by
    rw [List.reverse_cons, spellRuns_append]
    rfl
  cases runs with
  | nil => rfl
  | cons x older =>
    obtain ⟨sym, len⟩ := x
    rw [addToRuns]
    split
    case isFalse => exact hnew
    case isTrue h =>
      obtain ⟨rfl, -⟩ := h
      simp [spellRuns, List.replicate_succ']

/-- Runs, the last one first, as 45_bwt.md R263 cuts them: each 1 to 256 long, and closed either by another symbol
or by its length. -/
structure MaximalRuns (runs : List (Byte × Nat)) : Prop where
  lengths : ∀ x ∈ runs, 1 ≤ x.2 ∧ x.2 ≤ 256
  closed : runs.IsChain fun y x => x.1 ≠ y.1 ∨ x.2 = 256

theorem MaximalRuns.addToRuns {runs : List (Byte × Nat)} (h : MaximalRuns runs) (c : Byte) :
    MaximalRuns (addToRuns runs c) := by
  cases runs with
  | nil => exact ⟨by simp [Machine.addToRuns], by simp [Machine.addToRuns]⟩
  | cons x older =>
    obtain ⟨sym, len⟩ := x
    obtain ⟨hlen, holder⟩ := List.forall_mem_cons.1 h.lengths
    rw [Machine.addToRuns]
    split
    case isTrue hgrow =>
      obtain ⟨-, hlt⟩ := hgrow
      obtain ⟨hlast, hchain⟩ := List.isChain_cons.1 h.closed
      exact ⟨List.forall_mem_cons.2 ⟨⟨Nat.le_add_left .., hlt⟩, holder⟩, List.isChain_cons.2 ⟨hlast, hchain⟩⟩
    case isFalse hclosed =>
      refine ⟨List.forall_mem_cons.2 ⟨by simp, h.lengths⟩, List.isChain_cons_cons.2 ⟨?_, h.closed⟩⟩
      obtain hne | hfull := Decidable.not_and_iff_or_not.1 hclosed
      · exact .inl hne
      · exact .inr (hlen.2.antisymm (Nat.le_of_not_lt hfull))

theorem spellRuns_bwtRuns (l : List Byte) : spellRuns (bwtRuns l) = l := by
  have hfold (runs : List (Byte × Nat)) : spellRuns (l.foldl addToRuns runs).reverse = spellRuns runs.reverse ++ l := by
    induction l generalizing runs with
    | nil => exact (List.append_nil _).symm
    | cons c l ih => rw [List.foldl_cons, ih, spellRuns_addToRuns, ← List.append_cons]
  exact hfold []

theorem maximalRuns_bwtRuns (l : List Byte) : MaximalRuns (bwtRuns l).reverse := by
  have hfold (runs : List (Byte × Nat)) (h : MaximalRuns runs) : MaximalRuns (l.foldl addToRuns runs) := by
    induction l generalizing runs with
    | nil => exact h
    | cons c l ih => exact ih _ (h.addToRuns c)
  rw [bwtRuns, List.reverse_reverse]
  exact hfold [] ⟨nofun, .nil⟩

theorem bwtRuns_length_bounds {l : List Byte} {x : Byte × Nat} (h : x ∈ bwtRuns l) : 1 ≤ x.2 ∧ x.2 ≤ 256 :=
  (maximalRuns_bwtRuns l).lengths x (List.mem_reverse.2 h)

/-- Settles O36: each symbol of the column is added to runs that are maximal and spell the column up to it. -/
theorem runsSpellTheColumn : Obligations.RunsSpellTheColumn := by
  unfold Obligations.RunsSpellTheColumn
  exact fun l => ⟨spellRuns_bwtRuns l, fun x => bwtRuns_length_bounds,
    List.isChain_reverse.1 (maximalRuns_bwtRuns l).closed⟩

end Sys2Proof.Machine
end

section
/-!
The inverse of the BWT (45_bwt.md R267). The sorted rotations are the rows of a matrix, whose last column is what
the encoder keeps. Turning each row so that its last symbol comes first gives the same rows in another order, in which
the rows that start with one symbol are still sorted; so `LF` leads from a row to the row that starts one symbol
earlier in the message, and the walk spells the message from its end.
-/

namespace Sys2Proof.Machine

/-! ### Places in a list -/

section
variable {α : Type}

/-- An element's place among those with a property is the number of them before it. -/
theorem getElem?_filter_countP_take (p : α → Bool) (l : List α) {k : Nat} (hk : k < l.length) (hp : p l[k] = true) :
    (l.filter p)[(l.take k).countP p]? = some l[k] := by
  have hsplit : l.filter p = (l.take k).filter p ++ l[k] :: (l.drop (k + 1)).filter p := by
    conv_lhs => rw [← List.take_append_drop k l, ← List.getElem_cons_drop hk]
    rw [List.filter_append, List.filter_cons_of_pos hp]
  rw [hsplit, List.countP_eq_length_filter, List.getElem?_append_right le_rfl, Nat.sub_self, List.getElem?_cons_zero]

/-- In a list sorted by a key, the elements with one key stand together, after those with smaller keys. -/
theorem getElem?_countP_add_of_sorted {key : α → Nat} {l : List α} (h : l.Pairwise fun x y => key x ≤ key y)
    {c j : Nat} {x : α} (hx : (l.filter fun y => decide (key y = c))[j]? = some x) :
    l[l.countP (fun y => decide (key y < c)) + j]? = some x := by
  induction l generalizing j with
  | nil => exact hx
  | cons y l ih =>
    obtain ⟨hy, hl⟩ := List.pairwise_cons.1 h
    obtain hlt | rfl | hgt := Nat.lt_trichotomy (key y) c
    · rw [List.filter_cons_of_neg (by simpa using hlt.ne)] at hx
      rw [List.countP_cons_of_pos (by simpa using hlt), Nat.add_right_comm, List.getElem?_cons_succ]
      exact ih hl hx
    · have hnone : l.countP (fun z => decide (key z < key y)) = 0 :=
        List.countP_eq_zero.2 fun z hz => by simpa using hy z hz
      rw [List.filter_cons_of_pos (by simp)] at hx
      rw [List.countP_cons_of_neg (by simp), hnone, Nat.zero_add]
      cases j with
      | zero => exact hx
      | succ j =>
        have hrest := ih hl hx
        rwa [hnone, Nat.zero_add] at hrest
    · have hnone : (y :: l).filter (fun z => decide (key z = c)) = [] :=
        List.filter_eq_nil_iff.2 <| List.forall_mem_cons.2
          ⟨by simpa using hgt.ne', fun z hz => by simpa using (hgt.trans_le (hy z hz)).ne'⟩
      rw [hnone] at hx
      exact absurd hx nofun

end

/-! ### Rows and their order -/

/-- A row's first symbol. -/
def firstSymbol (row : List Byte) : Byte := row.headD 0

/-- A row turned so that its last symbol comes first. -/
def turned (row : List Byte) : List Byte := row.rotate (row.length - 1)

theorem turned_concat (row : List Byte) (c : Byte) : turned (row ++ [c]) = c :: row := by
  have hlen : (row ++ [c]).length - 1 = row.length := by rw [List.length_append]; rfl
  rw [turned, hlen, List.rotate_append_length_eq]
  rfl

theorem firstSymbol_le {row row' : List Byte} (h : row ≤ row') :
    (firstSymbol row).toNat ≤ (firstSymbol row').toNat := by
  cases row with
  | nil => exact Nat.zero_le _
  | cons c row =>
    cases row' with
    | nil => exact absurd h (by simp)
    | cons c' row' =>
      obtain hlt | ⟨rfl, -⟩ := List.cons_le_cons_iff.1 h
      · exact (BitVec.lt_def.1 hlt).le
      · exact le_rfl

theorem le_of_concat_le_concat {row row' : List Byte} {c : Byte} (hlen : row.length = row'.length)
    (h : row ++ [c] ≤ row' ++ [c]) : row ≤ row' := by
  induction row generalizing row' with
  | nil => simp
  | cons b row ih =>
    obtain ⟨b', row', rfl⟩ := List.exists_cons_of_length_eq_add_one hlen.symm
    refine List.cons_le_cons_iff.2 ((List.cons_le_cons_iff.1 h).imp_right fun ⟨hb, hle⟩ => ⟨hb, ih ?_ hle⟩)
    exact Nat.succ.inj hlen

/-- Turning keeps the order of two rows that end with the same symbol. -/
theorem turned_le_turned {row row' : List Byte} (hlen : row.length = row'.length) (hne : row ≠ [])
    (hlast : firstSymbol (turned row) = firstSymbol (turned row')) (h : row ≤ row') : turned row ≤ turned row' := by
  have hne' : row' ≠ [] := by rwa [← List.length_pos_iff, ← hlen, List.length_pos_iff]
  obtain ⟨init, c, rfl⟩ := (List.eq_nil_or_concat' row).resolve_left hne
  obtain ⟨init', c', rfl⟩ := (List.eq_nil_or_concat' row').resolve_left hne'
  rw [turned_concat, turned_concat] at hlast ⊢
  obtain rfl : c = c' := hlast
  simp only [List.length_append, Nat.add_right_cancel_iff] at hlen
  exact List.cons_le_cons_iff.2 (.inr ⟨rfl, le_of_concat_le_concat hlen h⟩)

/-! ### LF -/

/-- The last symbol of each row. -/
def lastColumn (rows : List (List Byte)) : List Byte := (rows.map turned).map firstSymbol

section
variable {rows : List (List Byte)} {n : Nat} (hsorted : rows.Pairwise (· ≤ ·))
  (hrows : ∀ row ∈ rows, row.length = n ∧ row ≠ []) (hperm : (rows.map turned).Perm rows)
include hsorted hrows hperm

/-- The turned rows that start with one symbol are the rows that start with it, in the same order. -/
theorem filter_turned_eq_filter (c : Byte) :
    (rows.map turned).filter (fun row => firstSymbol row == c) = rows.filter fun row => firstSymbol row == c := by
  refine List.Perm.eq_of_pairwise (le := (· ≤ ·)) (fun _ _ _ _ => List.le_antisymm) ?_ (hsorted.filter _)
    (hperm.filter _)
  rw [List.filter_map, List.pairwise_map]
  refine (hsorted.filter _).imp_of_mem fun {row row'} hrow hrow' hle => ?_
  obtain ⟨hmem, hlast⟩ := List.mem_filter.1 hrow
  obtain ⟨hmem', hlast'⟩ := List.mem_filter.1 hrow'
  obtain ⟨hlen, hne⟩ := hrows row hmem
  obtain ⟨hlen', -⟩ := hrows row' hmem'
  exact turned_le_turned (hlen.trans hlen'.symm) hne ((eq_of_beq hlast).trans (eq_of_beq hlast').symm) hle

/-- `LF` leads from a row to a row that is equal to it turned (45_bwt.md R267). -/
theorem getElem?_lastToFirst {k : Nat} (hk : k < rows.length) :
    rows[lastToFirst (lastColumn rows) k]? = some (turned rows[k]) := by
  have hk' : k < (rows.map turned).length := by rwa [List.length_map]
  have hlast : (lastColumn rows).getD k 0 = firstSymbol (turned rows[k]) := by simp [lastColumn, hk]
  have hbelow (c : Byte) : (lastColumn rows).countP (fun x => decide (x.toNat < c.toNat)) =
      rows.countP fun row => decide ((firstSymbol row).toNat < c.toNat) := by
    rw [lastColumn, List.countP_map]
    exact hperm.countP_eq _
  have hbefore (c : Byte) : ((lastColumn rows).take k).count c =
      ((rows.map turned).take k).countP fun row => firstSymbol row == c := by
    rw [lastColumn, ← List.map_take, List.count_eq_countP, List.countP_map]
    rfl
  have hplace := getElem?_filter_countP_take (fun row => firstSymbol row == firstSymbol (turned rows[k]))
    (rows.map turned) hk' (by simp)
  rw [filter_turned_eq_filter hsorted hrows hperm, List.getElem_map] at hplace
  simp only [lastToFirst, hlast, hbelow, hbefore]
  refine getElem?_countP_add_of_sorted (key := fun row => (firstSymbol row).toNat) (hsorted.imp firstSymbol_le) ?_
  simpa only [BitVec.toNat_inj, ← beq_eq_decide] using hplace

end

/-! ### The rotations of a message -/

/-- The rotations in sorted order (45_bwt.md R261). -/
def sortedRows (data : List Byte) : List (List Byte) := (sortedRotations data).map data.rotate

theorem rotation_eq_rotate {data : List Byte} {i : Nat} (h : i ≤ data.length) : rotation data i = data.rotate i :=
  (List.rotate_eq_drop_append_take h).symm

section
variable {data : List Byte}

theorem sortedRows_pairwise : (sortedRows data).Pairwise (· ≤ ·) := by
  refine List.pairwise_map.2 ((sortsRotations_sortedRotations data).2.imp_of_mem fun hi hj hbefore => ?_)
  rw [rotation_eq_rotate (mem_sortedRotations.1 hi).le, rotation_eq_rotate (mem_sortedRotations.1 hj).le] at hbefore
  obtain hlt | ⟨heq, -⟩ := hbefore
  · exact List.le_of_lt hlt
  · exact heq ▸ List.le_refl _

theorem turned_rotate (data : List Byte) (i : Nat) : turned (data.rotate i) = data.rotate (i + (data.length - 1)) := by
  rw [turned, List.length_rotate, List.rotate_rotate]

variable (h : data ≠ [])
include h

theorem length_of_mem_sortedRows {row : List Byte} (hrow : row ∈ sortedRows data) :
    row.length = data.length ∧ row ≠ [] := by
  obtain ⟨i, -, rfl⟩ := List.mem_map.1 hrow
  exact ⟨List.length_rotate .., mt List.rotate_eq_nil_iff.1 h⟩

/-- The sorted rotations are all rotations. -/
theorem sortedRows_perm : (sortedRows data).Perm data.cyclicPermutations := by
  have hall : (List.range data.length).map data.rotate = data.cyclicPermutations :=
    List.ext_getElem (by rw [List.length_map, List.length_range, List.length_cyclicPermutations_of_ne_nil _ h])
      fun i _ hi => by simp
  exact hall ▸ (sortsRotations_sortedRotations data).1.map data.rotate

theorem turned_rotate_succ (i : Nat) : turned (data.rotate (i + 1)) = data.rotate i := by
  have hn := List.length_pos_of_ne_nil h
  rw [turned_rotate, show i + 1 + (data.length - 1) = data.length + i by omega, ← List.rotate_rotate,
    List.rotate_length]

/-- Turning all rotations gives all rotations. -/
theorem sortedRows_turned_perm : ((sortedRows data).map turned).Perm (sortedRows data) := by
  have hturned : data.cyclicPermutations.map turned = (data.rotate (data.length - 1)).cyclicPermutations := by
    refine List.ext_getElem (by simp [h]) fun i _ _ => ?_
    rw [List.getElem_map, List.getElem_cyclicPermutations, List.getElem_cyclicPermutations, turned_rotate,
      List.rotate_rotate, Nat.add_comm]
  rw [List.cyclicPermutations_rotate] at hturned
  exact ((sortedRows_perm h).map turned).trans (hturned ▸ (List.rotate_perm ..).trans (sortedRows_perm h).symm)

theorem firstSymbol_rotate (i : Nat) : firstSymbol (data.rotate i) = data.getD (i % data.length) 0 := by
  have hlt : i % data.length < data.length := Nat.mod_lt _ (List.length_pos_of_ne_nil h)
  rw [← List.rotate_mod, firstSymbol, List.headD_eq_head?_getD, List.head?_rotate hlt, List.getD_eq_getElem?_getD]

/-- What the encoder keeps is the last column of the sorted rotations (45_bwt.md R262). -/
theorem lastColumn_sortedRows : lastColumn (sortedRows data) = bwtColumn data := by
  simp only [lastColumn, sortedRows, bwtColumn, List.map_map]
  refine List.map_congr_left fun i _ => ?_
  rw [Function.comp, Function.comp, turned_rotate, firstSymbol_rotate h,
    Nat.add_sub_assoc (List.length_pos_of_ne_nil h)]

/-! ### The walk -/

/-- From a row that is the message rotated by `m`, `m` steps of the walk find the first `m` symbols
(45_bwt.md R267). -/
theorem inverseWalk_of_row {m row : Nat} (hm : m ≤ data.length)
    (hrow : (sortedRows data)[row]? = some (data.rotate m)) :
    inverseWalk (bwtColumn data) m row (data.drop m) = data := by
  induction m generalizing row with
  | zero => rfl
  | succ m ih =>
    obtain ⟨hlt, hget⟩ := List.getElem?_eq_some_iff.1 hrow
    have hnext := getElem?_lastToFirst sortedRows_pairwise (fun _ => length_of_mem_sortedRows h)
      (sortedRows_turned_perm h) hlt
    rw [hget, turned_rotate_succ h, lastColumn_sortedRows h] at hnext
    have hsymbol : (bwtColumn data).getD row 0 = data[m] := by
      rw [← lastColumn_sortedRows h, lastColumn, List.map_map, List.getD_eq_getElem _ _ (by rwa [List.length_map]),
        List.getElem_map, hget, Function.comp, turned_rotate_succ h, firstSymbol_rotate h, Nat.mod_eq_of_lt hm,
        List.getD_eq_getElem _ _ hm]
    rw [inverseWalk, hsymbol, List.getElem_cons_drop hm]
    exact ih (Nat.le_of_succ_le hm) hnext

/-- The inverse transform gives the message back (45_bwt.md R267). -/
theorem inverseBwt_bwtColumn : inverseBwt (bwtColumn data) (bwtRank data) = data := by
  have hrank : bwtRank data < (sortedRotations data).length :=
    (bwtRank_lt h).trans_eq (sortedRotations_length data).symm
  have hzero := sortedRotations_getD_bwtRank h 0
  rw [List.getD_eq_getElem _ _ hrank] at hzero
  have hrow : (sortedRows data)[bwtRank data]? = some (data.rotate data.length) := by
    rw [sortedRows, List.getElem?_map, List.getElem?_eq_getElem hrank, hzero, List.rotate_length]
    exact congrArg some data.rotate_zero
  have hwalk := inverseWalk_of_row h le_rfl hrow
  rwa [List.drop_length, ← bwtColumn_length data] at hwalk

end

end Sys2Proof.Machine
end

section
/-!
The BWT decoder on a stream that is known to go on with given fields (45_bwt.md R268): what settles O42 and O60,
and what the round trip reads with.
-/

namespace Sys2Proof.Machine

/-! ### The run count and the run lengths -/

/-- The run count and the run lengths `lens`, as many of them as are written out (45_bwt.md R264). -/
abbrev runFields (count : Nat) (lens : List Nat) : List Bool := monoCode count ++ lens.flatMap monoCode

/-- The run count and the run lengths `lens` pass the checks of 45_bwt.md R268. -/
structure RunsAccepted (cap count : Nat) (lens : List Nat) : Prop where
  count_ne_zero : count ≠ 0
  count_le : count ≤ cap
  lengths : ∀ l ∈ lens, 1 ≤ l ∧ l ≤ 256
  sum_le : lens.sum ≤ cap

section
variable {r : Reader} {cap : Nat}

theorem readRuns_count_error {e : ErrCode} (h : unmono r = .error e) : readRuns cap r = .error e := by
  rw [readRuns, h]
  rfl

section
variable {count : Nat} (hcount : count ≠ 0) (h : r.Holds (monoCode count))
include hcount h

theorem Reader.Holds.readRuns_long (hlong : cap < count) : readRuns cap r = .error .capacityExceeded := by
  rw [readRuns, h.unmono hcount]
  exact if_pos hlong

theorem Reader.Holds.readRuns_count (hfits : count ≤ cap) :
    readRuns cap r = readRunLengths cap count 0 (r.skip (monoCode count).length) := by
  rw [readRuns, h.unmono hcount, monoCode_length]
  exact if_neg hfits.not_gt

end

section
variable {k total : Nat}

theorem readRunLengths_error {e : ErrCode} (h : unmono r = .error e) :
    readRunLengths cap (k + 1) total r = .error e := by
  rw [readRunLengths, h]
  rfl

variable {len : Nat} (hlen : len ≠ 0) (h : r.Holds (monoCode len))
include hlen h

theorem Reader.Holds.readRunLengths_long (hlong : 256 < len) :
    readRunLengths cap (k + 1) total r = .error .malformedHeader := by
  rw [readRunLengths, h.unmono hlen]
  exact if_pos hlong

theorem Reader.Holds.readRunLengths_full (hshort : len ≤ 256) (hfull : cap < total + len) :
    readRunLengths cap (k + 1) total r = .error .capacityExceeded := by
  rw [readRunLengths, h.unmono hlen]
  exact (if_neg hshort.not_gt).trans (if_pos hfull)

theorem Reader.Holds.readRunLengths_pass (hshort : len ≤ 256) (hfits : total + len ≤ cap) :
    readRunLengths cap (k + 1) total r = (do
      let (lens, r) ← readRunLengths cap k (total + len) (r.skip (monoCode len).length)
      .ok (len :: lens, r)) := by
  rw [readRunLengths, h.unmono hlen, monoCode_length]
  exact (if_neg hshort.not_gt).trans (if_neg hfits.not_gt)

end

/-- After run lengths that pass comes what is left of the count (45_bwt.md R268). -/
theorem Reader.Holds.readRunLengths_append {k total : Nat} {lens : List Nat} (hlens : ∀ l ∈ lens, 1 ≤ l ∧ l ≤ 256)
    (hsum : total + lens.sum ≤ cap) (h : r.Holds (lens.flatMap monoCode)) :
    readRunLengths cap (lens.length + k) total r = (do
      let (rest, r) ← readRunLengths cap k (total + lens.sum) (r.skip (lens.flatMap monoCode).length)
      .ok (lens ++ rest, r)) := by
  induction lens generalizing total r with
  | nil =>
    rw [List.length_nil, List.sum_nil, List.flatMap_nil, List.length_nil, Nat.zero_add, Nat.add_zero,
      Reader.skip_zero]
    cases readRunLengths cap k total r <;> rfl
  | cons len lens ih =>
    obtain ⟨⟨hpos, hshort⟩, hlens⟩ := List.forall_mem_cons.1 hlens
    rw [List.sum_cons, ← Nat.add_assoc] at hsum ⊢
    obtain ⟨hfirst, hrest⟩ := Reader.holds_append.1 h
    rw [List.length_cons, Nat.add_right_comm, hfirst.readRunLengths_pass (Nat.pos_iff_ne_zero.1 hpos) hshort (by omega),
      ih hlens hsum hrest, Reader.skip_skip, List.flatMap_cons, List.length_append]
    cases readRunLengths cap k (total + len + lens.sum) _ <;> rfl

section
variable {count : Nat} {lens : List Nat} (h : r.Holds (runFields count lens)) (hruns : RunsAccepted cap count lens)
include h hruns

/-- After a count and run lengths that pass, `k` of them are left to be read. -/
theorem Reader.Holds.readRuns_append {k : Nat} (hk : lens.length + k = count) :
    readRuns cap r = (do
      let (rest, r) ← readRunLengths cap k lens.sum (r.skip (runFields count lens).length)
      .ok (lens ++ rest, r)) := by
  obtain ⟨hfirst, hrest⟩ := Reader.holds_append.1 h
  have hrun := hrest.readRunLengths_append (cap := cap) (k := k) (total := 0) hruns.lengths
    ((Nat.zero_add _).trans_le hruns.sum_le)
  rw [hk, Nat.zero_add, Reader.skip_skip, ← List.length_append] at hrun
  rw [hfirst.readRuns_count hruns.count_ne_zero hruns.count_le, hrun]

theorem Reader.Holds.readRuns_error {k : Nat} {e : ErrCode} (hk : lens.length + k = count)
    (herr : readRunLengths cap k lens.sum (r.skip (runFields count lens).length) = .error e) :
    readRuns cap r = .error e := by
  rw [h.readRuns_append hruns hk, herr]
  rfl

theorem Reader.Holds.readRuns_all (hall : lens.length = count) :
    readRuns cap r = .ok (lens, r.skip (runFields count lens).length) := by
  rw [h.readRuns_append hruns (k := 0) hall, readRunLengths]
  exact congrArg (fun all => Except.ok (all, _)) (List.append_nil lens)

end

end

/-! ### The message -/

section
variable {r : Reader} {m n : Nat} {lens : List Nat}

theorem readMessage_rank_error {e : ErrCode} (h : r.getInt (bitsFor n) = .error e) :
    readMessage m n lens r = .error e := by
  rw [readMessage, h]
  rfl

variable {rank : Nat} (h : r.Holds (fieldBits rank (bitsFor n)))
include h

theorem Reader.Holds.readMessage_far (hfar : n ≤ rank) (hrank : rank < 2 ^ bitsFor n) :
    readMessage m n lens r = .error .malformedHeader := by
  rw [readMessage, h.getInt_field hrank]
  exact if_pos hfar

/-- After a rank that passes come the symbols of the runs. -/
theorem Reader.Holds.readMessage_rank (hrank : rank < n) :
    readMessage m n lens r = (do
      let (syms, r) ← lzssDecode m lens.length (r.skip (bitsFor n))
      .ok (inverseBwt (expandRuns syms lens) rank, r)) := by
  rw [readMessage, h.getInt_field (hrank.trans_le (le_two_pow_bitsFor n))]
  exact if_neg hrank.not_ge

theorem Reader.Holds.readMessage_symbols_error {e : ErrCode} (hrank : rank < n)
    (herr : lzssDecode m lens.length (r.skip (bitsFor n)) = .error e) : readMessage m n lens r = .error e := by
  rw [h.readMessage_rank hrank, herr]
  rfl

theorem Reader.Holds.readMessage_ok {k : Nat} {syms : List Byte} (hrank : rank < n)
    (hsyms : lzssDecode m lens.length (r.skip (bitsFor n)) = .ok (syms, (r.skip (bitsFor n)).skip k)) :
    readMessage m n lens r = .ok (inverseBwt (expandRuns syms lens) rank, r.skip (bitsFor n + k)) := by
  rw [h.readMessage_rank hrank, hsyms, ← Reader.skip_skip]
  rfl

end

/-! ### BWT_DEC -/

/-- A decoder that took `k` bits moves the cursor by `k` and says so in RESULT1. -/
theorem State.deliver_skip (s : State) (n : Nat) (out : List Byte) (k : Nat) :
    s.deliver n out (s.reader.skip k) =
      { s with obuf := (s.deliver n out (s.reader.skip k)).obuf, olen := BitVec.ofNat 32 n,
               rpos := s.rpos + BitVec.ofNat 32 k, result0 := BitVec.ofNat 32 n, result1 := BitVec.ofNat 32 k,
               err := .noError, pending := none } := by
  have hrpos : BitVec.ofNat 32 (s.reader.pos + k) = s.rpos + BitVec.ofNat 32 k := by
    rw [BitVec.ofNat_add, State.reader, BitVec.ofNat_toNat, BitVec.setWidth_eq]
  have hmoved : s.reader.pos + k - s.rpos.toNat = k := Nat.add_sub_cancel_left ..
  simp only [State.deliver, State.succeed, hrpos, hmoved]

section
variable {s : State} (hr : s.rlen.toNat ≤ s.params.rbufCap)
include hr

/-- A failure before the length of the message is known (45_bwt.md R268; log 4). -/
theorem exec_bwtDec_runs_error {e : ErrCode} (h : readRuns s.params.obufCap s.reader = .error e) :
    ∃ t, exec .bwtDec s = .next t ∧ s.failedSpoiling s.params.obufCap e t := by
  refine ⟨_, ?_, s.failedSpoiling_raiseSpoiling _ e⟩
  simp only [exec, execBwtDec, if_neg hr.not_gt, h]

variable {lens : List Nat} {r : Reader} (hruns : readRuns s.params.obufCap s.reader = .ok (lens, r))
include hruns

theorem exec_bwtDec_message_error {e : ErrCode} (h : readMessage s.arg1.toNat lens.sum lens r = .error e) :
    ∃ t, exec .bwtDec s = .next t ∧ s.failedSpoiling lens.sum e t := by
  refine ⟨_, ?_, s.failedSpoiling_raiseSpoiling _ e⟩
  simp only [exec, execBwtDec, if_neg hr.not_gt, hruns, h]

/-- A `BWT_DEC` that takes `k` bits. -/
theorem exec_bwtDec_skip {out : List Byte} {k : Nat} (hout : out.length = lens.sum)
    (h : readMessage s.arg1.toNat lens.sum lens r = .ok (out, s.reader.skip k)) :
    ∃ t, exec .bwtDec s = .next t ∧
      (∀ a, t.obufByte a = if a < lens.sum then out.getD a 0 else s.obufByte a) ∧
      t = { s with obuf := t.obuf, olen := BitVec.ofNat 32 lens.sum, rpos := s.rpos + BitVec.ofNat 32 k,
                   result0 := BitVec.ofNat 32 lens.sum, result1 := BitVec.ofNat 32 k, err := .noError,
                   pending := none } := by
  exact ⟨_, exec_bwtDec_of_ok hr hruns h, fun a => by rw [State.obufByte_deliver, hout], s.deliver_skip ..⟩

end

/-- Settles O42: one run of length 1, and one literal. -/
theorem bwtDecOneByte : Obligations.BwtDecOneByte := by
  unfold Obligations.BwtDecOneByte
  intro s c hr hcap h
  obtain ⟨hruns, hliteral⟩ := Reader.holds_append (as := runFields 1 [1]).1 (State.reader_holds h)
  have hlens : readRuns s.params.obufCap s.reader = .ok ([1], s.reader.skip 2) :=
    hruns.readRuns_all ⟨Nat.one_ne_zero, hcap, by decide, hcap⟩ rfl
  have hsyms : lzssDecode s.arg1.toNat 1 (s.reader.skip 2) = .ok ([c], (s.reader.skip 2).skip 9) := by
    have hdec := Reader.Holds.lzssDecode_literals (data := [c]) s.arg1.toNat 1 le_rfl hliteral
    exact hdec.trans (lzssDecodeFrom_done (out := [c]) le_rfl)
  have hrank : (s.reader.skip 2).Holds (fieldBits 0 (bitsFor 1)) := ⟨Nat.zero_le _, rfl⟩
  have hmsg := hrank.readMessage_ok (lens := [1]) Nat.one_pos hsyms
  obtain ⟨t, ht, hobuf, hstate⟩ := exec_bwtDec_skip hr hlens (out := [c]) (k := 11) rfl hmsg
  refine ⟨t, ht, fun a => ?_, hstate⟩
  rw [hobuf]
  exact ite_congr (propext Nat.lt_one_iff) (fun ha => by rw [ha]; rfl) fun _ => rfl

/-! ### The checks of BWT_DEC -/

section
variable {s : State} {count : Nat} {lens : List Nat} {e : ErrCode} (hr : s.rlen.toNat ≤ s.params.rbufCap)
  (hpass : RunsAccepted s.params.obufCap count lens)
include hr hpass

/-- After run lengths that pass, the next run length is bad. -/
theorem exec_bwtDec_runLength_error (h : s.reader.Holds (runFields count lens)) (hlt : lens.length < count)
    (herr : ∀ k, readRunLengths s.params.obufCap (k + 1) lens.sum (s.reader.skip (runFields count lens).length) =
      .error e) : ∃ t, exec .bwtDec s = .next t ∧ s.failedSpoiling s.params.obufCap e t := by
  obtain ⟨k, hk⟩ := Nat.exists_eq_add_of_lt hlt
  exact exec_bwtDec_runs_error hr (h.readRuns_error hpass hk.symm (herr k))

/-- After all run lengths, the message is bad. -/
theorem exec_bwtDec_afterRuns_error (h : s.reader.Holds (runFields count lens)) (hall : lens.length = count)
    (herr : readMessage s.arg1.toNat lens.sum lens (s.reader.skip (runFields count lens).length) = .error e) :
    ∃ t, exec .bwtDec s = .next t ∧ s.failedSpoiling lens.sum e t :=
  exec_bwtDec_message_error hr (h.readRuns_all hpass hall) herr

/-- After a rank that passes, the symbols are bad; they start over an empty window. -/
theorem exec_bwtDec_symbols_error {rank : Nat}
    (h : s.reader.Holds (runFields count lens ++ fieldBits rank (bitsFor lens.sum)))
    (hall : lens.length = count) (hrank : rank < lens.sum)
    (herr : ∀ k, lzssDecodeFrom (k + 1) s.arg1.toNat (k + 1) [] []
      (s.reader.skip (runFields count lens ++ fieldBits rank (bitsFor lens.sum)).length) = .error e) :
    ∃ t, exec .bwtDec s = .next t ∧ s.failedSpoiling lens.sum e t := by
  obtain ⟨hruns, hfield⟩ := Reader.holds_append.1 h
  obtain ⟨k, hk⟩ := Nat.exists_eq_succ_of_ne_zero (hall.trans_ne hpass.count_ne_zero)
  have hlzss := herr k
  rw [List.length_append, fieldBits_length, ← Reader.skip_skip, ← Nat.succ_eq_add_one, ← hk] at hlzss
  exact exec_bwtDec_afterRuns_error hr hpass hruns hall (hfield.readMessage_symbols_error hrank hlzss)

end

/-- Settles O60: each clause is what `readRunLengths` answers after the run lengths that pass, or `readMessage`
after all of them and after a rank. -/
theorem bwtDecChecksItsFields : Obligations.BwtDecChecksItsFields := by
  unfold Obligations.BwtDecChecksItsFields
  intro s count hr hcount
  have hcount := Nat.pos_iff_ne_zero.1 hcount
  refine ⟨fun hlong h => ?countLong, fun h => ?countShort, ?_⟩
  case countLong => exact exec_bwtDec_runs_error hr ((State.reader_holds h).readRuns_long hcount hlong)
  case countShort =>
    obtain ⟨-, hcode⟩ := State.unmono_endsInCode h
    exact exec_bwtDec_runs_error hr (readRuns_count_error hcode)
  rintro lens runs hfits hlens hsum rfl
  have hpass : RunsAccepted s.params.obufCap count lens := ⟨hcount, hfits, hlens, hsum⟩
  refine ⟨fun len hlt hlong h => ?runLong, fun len hlt hpos hshort hfull h => ?runsFull,
    fun rank hall hfar hrank h => ?rankFar, fun rank hall hrank h => ?matchFlag, fun hlt h => ?runShort,
    fun hall h => ?rankShort, fun rank hall hrank h => ?symbolShort⟩
  case runLong =>
    obtain ⟨hruns, hcode⟩ := Reader.holds_append.1 (State.reader_holds h)
    exact exec_bwtDec_runLength_error hr hpass hruns hlt fun k =>
      hcode.readRunLengths_long (Nat.ne_zero_of_lt hlong) hlong
  case runsFull =>
    obtain ⟨hruns, hcode⟩ := Reader.holds_append.1 (State.reader_holds h)
    exact exec_bwtDec_runLength_error hr hpass hruns hlt fun k =>
      hcode.readRunLengths_full (Nat.pos_iff_ne_zero.1 hpos) hshort hfull
  case rankFar =>
    obtain ⟨hruns, hfield⟩ := Reader.holds_append.1 (State.reader_holds h)
    exact exec_bwtDec_afterRuns_error hr hpass hruns hall (hfield.readMessage_far hfar hrank)
  case matchFlag =>
    obtain ⟨hfields, hflag⟩ := Reader.holds_append.1 (State.reader_holds h)
    exact exec_bwtDec_symbols_error hr hpass hfields hall hrank fun k =>
      hflag.lzssDecodeFrom_emptyWindow (Nat.succ_pos k) rfl
  case runShort =>
    obtain ⟨hruns, hcode⟩ := State.unmono_endsInCode h
    exact exec_bwtDec_runLength_error hr hpass hruns hlt fun k => readRunLengths_error hcode
  case rankShort =>
    obtain ⟨hruns, hend⟩ := (State.reader_endsWithin h).skip
    exact exec_bwtDec_afterRuns_error hr hpass hruns hall (readMessage_rank_error hend.getInt)
  case symbolShort =>
    obtain h | h := h
    · obtain ⟨hfields, hend⟩ := (State.reader_endsWithin h).skip
      exact exec_bwtDec_symbols_error hr hpass hfields hall hrank fun k =>
        lzssDecodeFrom_noFlag (Nat.succ_pos k) hend.get
    · obtain ⟨hfields, hend⟩ := (State.reader_endsWithin h).append
      exact exec_bwtDec_symbols_error hr hpass hfields hall hrank fun k =>
        lzssDecodeFrom_shortSymbol (Nat.succ_pos k) hend

end Sys2Proof.Machine
end

section
/-!
The BWT decoder on what the encoder wrote (45_bwt.md R269): what settles O47. The decoder reads the runs' lengths and
symbols back, they spell the column, and the inverse transform of the column and the rank is the message.
-/

namespace Sys2Proof.Machine

/-! ### The runs, as the decoder reads them -/

/-- The lengths of the runs (45_bwt.md R264). -/
abbrev runLengths (runs : List (Byte × Nat)) : List Nat := runs.map Prod.snd

theorem expandRuns_runs (runs : List (Byte × Nat)) :
    expandRuns (runs.map Prod.fst) (runLengths runs) = spellRuns runs := by
  rw [expandRuns, List.zip_map', List.map_id', spellRuns]

theorem sum_runLengths_bwtRuns (l : List Byte) : (runLengths (bwtRuns l)).sum = l.length := by
  conv_rhs => rw [← spellRuns_bwtRuns l, spellRuns, List.length_flatMap]
  simp only [List.length_replicate]

theorem runLengths_bwtRuns_bounds (l : List Byte) : ∀ len ∈ runLengths (bwtRuns l), 1 ≤ len ∧ len ≤ 256 :=
  List.forall_mem_map.2 fun _ => bwtRuns_length_bounds

/-- There are no more runs than symbols. -/
theorem bwtRuns_length_le (l : List Byte) : (bwtRuns l).length ≤ l.length := by
  have hle := List.length_le_sum_of_one_le _ fun len h => (runLengths_bwtRuns_bounds l len h).1
  rwa [List.length_map, sum_runLengths_bwtRuns] at hle

/-! ### The decoder inverts the encoder -/

section
variable {pick : PickRule} {m cap : Nat} {data : List Byte} {r : Reader} (hdata : data ≠ [])
  (h : r.Holds (bwtBits pick m data))
include hdata h

/-- The decoder reads exactly the encoder's bits, and gives the message back (45_bwt.md R269). -/
theorem Reader.Holds.bwtDecode_bwtBits (hcap : data.length ≤ cap) :
    ∃ lens r', readRuns cap r = .ok (lens, r') ∧ lens.sum = data.length ∧
      readMessage m lens.sum lens r' = .ok (data, r.skip (bwtBits pick m data).length) := by
  set runs := bwtRuns (bwtColumn data) with hruns
  have hsum : (runLengths runs).sum = data.length := (sum_runLengths_bwtRuns _).trans (bwtColumn_length data)
  have hcount : runs.length ≠ 0 := by
    rw [Ne, List.length_eq_zero_iff]
    exact bwtRuns_ne_nil (by rwa [← List.length_pos_iff, bwtColumn_length, List.length_pos_iff])
  have hfits : runs.length ≤ cap := ((bwtRuns_length_le _).trans_eq (bwtColumn_length data)).trans hcap
  have hcodes : (runs.flatMap fun x => monoCode x.2) = (runLengths runs).flatMap monoCode := (List.flatMap_map ..).symm
  rw [bwtBits_eq pick m hdata, ← hruns, hcodes] at h ⊢
  obtain ⟨hfields, hsymbols⟩ := Reader.holds_append.1 h
  obtain ⟨hlens, hrank⟩ := Reader.holds_append.1 hfields
  have hrun := hlens.readRuns_all ⟨hcount, hfits, runLengths_bwtRuns_bounds _, hsum.trans_le hcap⟩ (List.length_map _)
  have hdec := hsymbols.lzssDecode_lzssBits
  rw [List.length_append, fieldBits_length, ← Reader.skip_skip, List.length_map] at hdec
  have hmsg := hrank.readMessage_ok (lens := runLengths runs) (bwtRank_lt hdata)
    ((congrArg (lzssDecode m · _) (List.length_map _)).trans hdec)
  rw [expandRuns_runs, hruns, spellRuns_bwtRuns, inverseBwt_bwtColumn hdata, Reader.skip_skip] at hmsg
  refine ⟨_, _, hrun, hsum, ?_⟩
  rw [hsum, hmsg]
  simp only [List.length_append, fieldBits_length, Nat.add_assoc, hruns]

end

/-! ### The round trip -/

/-- `BWT_ENC` succeeds only on an input that is not empty and that IBUF holds. -/
theorem ilen_of_after_bwtEnc {s : State} (h : (after .bwtEnc s).err = .noError) :
    s.ilen.toNat ≤ s.params.ibufCap ∧ s.ilen ≠ 0 := by
  have hcap : s.ilen.toNat ≤ s.params.ibufCap := by
    by_contra hlong
    rw [after_of_exec (exec_encoder_of_long (.inr (.inr rfl)) (Nat.lt_of_not_le hlong))] at h
    exact absurd h nofun
  refine ⟨hcap, fun hempty => ?_⟩
  rw [after_of_exec (exec_encoder_of_empty hcap (.inr rfl) hempty)] at h
  exact absurd h nofun

/-- `BWT_DEC` of a freshly loaded stream that `BWT_ENC` wrote. -/
theorem exec_bwtDec_streamLoaded {s : State} {pick : PickRule} {data : List Byte} (hdata : data ≠ [])
    (hws : s.ws = bwtBits pick s.arg1.toNat data) (hobuf : data.length ≤ s.params.obufCap)
    (hrbuf : (s.ws.length + 7) / 8 ≤ s.params.rbufCap) (hsmall : s.ws.length < 2 ^ 32) :
    ∃ t, exec .bwtDec s.streamLoaded = .next t ∧ t.err = .noError ∧ t.olen = BitVec.ofNat 32 data.length ∧
      t.rpos.toNat = s.ws.length ∧ ∀ a, a < data.length → t.obufByte a = data.getD a 0 := by
  have hbytes : (s.ws.length + 7) / 8 < 2 ^ 32 := by omega
  have hread := State.reader_holds (s.streamLoaded_holdsBits hbytes)
  rw [hws] at hread
  obtain ⟨lens, r', hruns, hsum, hmsg⟩ := hread.bwtDecode_bwtBits hdata hobuf
  obtain ⟨t, ht, hout, hstate⟩ := exec_bwtDec_skip ((State.streamLoaded_rlen hbytes).trans_le hrbuf) hruns
    hsum.symm hmsg
  have hrpos : t.rpos = BitVec.ofNat 32 s.ws.length := by
    rw [hstate, hws]
    exact BitVec.zero_add _
  refine ⟨t, ht, by rw [hstate], by rw [hstate, hsum], ?_, fun a ha => (hout a).trans (if_pos (ha.trans_eq hsum.symm))⟩
  rw [hrpos]
  exact Nat.mod_eq_of_lt hsmall

/-- The round trip from an empty write stream. -/
theorem exec_bwtDec_after_bwtEnc {s : State} (hws : s.ws = []) (hlegal : s.params.legal)
    (hobuf : s.ilen.toNat ≤ s.params.obufCap) (henc : (after .bwtEnc s).err = .noError)
    (hload : (after (.rsLoad false) (after .bwtEnc s)).err = .noError) :
    ∃ t, exec .bwtDec (after (.rsLoad false) (after .bwtEnc s)) = .next t ∧ t.err = .noError ∧ t.olen = s.ilen ∧
      t.rpos.toNat = (after .bwtEnc s).ws.length ∧ ∀ a, a < s.ilen.toNat → t.obufByte a = s.ibufByte a := by
  obtain ⟨-, -, -, -, hwsCap⟩ := hlegal
  obtain ⟨hibuf, hne⟩ := ilen_of_after_bwtEnc henc
  obtain ⟨hroom, henc'⟩ := after_eq_appended (exec_bwtEnc hibuf hne) (by rw [henc]; nofun)
  obtain ⟨hfits, hload'⟩ := after_rsLoad_eq_streamLoaded (by rw [hload]; nofun)
  rw [hws, List.length_nil, Nat.zero_add] at hroom
  rw [henc'] at hfits hload' ⊢
  generalize hbits : bwtBits s.params.pick s.arg1.toNat s.inputBytes = bits at *
  have hstream : (s.appended bits).ws = bits := by rw [State.appended, hws, List.nil_append]
  have hdec := exec_bwtDec_streamLoaded (s := s.appended bits) (State.inputBytes_ne_nil hne)
    (hstream.trans hbits.symm)
    (s.inputBytes_length.trans_le hobuf) hfits (by rw [hstream]; omega)
  rw [s.inputBytes_length, BitVec.ofNat_toNat, BitVec.setWidth_eq] at hdec
  obtain ⟨t, ht, herr, holen, hrpos, hbytes⟩ := hdec
  rw [hload']
  exact ⟨t, ht, herr, holen, hrpos, fun a ha => (hbytes a ha).trans (State.inputBytes_getD s ha 0)⟩

/-- Settles O47: BWT_DEC reads what BWT_ENC wrote from the empty write stream. -/
theorem bwtRoundTrip : Obligations.BwtRoundTrip := by
  unfold Obligations.BwtRoundTrip
  rintro s _ _ hlegal hobuf rfl henc rfl hload
  rw [after_wsClear] at henc hload ⊢
  exact exec_bwtDec_after_bwtEnc rfl hlegal hobuf henc hload

end Sys2Proof.Machine
end

section
/-! Failing, for every command: what settles O6, O7 and O43. -/

namespace Sys2Proof.Machine

/-! ### What a failed command leaves, and who raises what -/

/-- A command but NOP that leaves an error is one that can raise it. -/
theorem Ending.err_mem_raisable {i : Instr} {s t : State} (h : Ending i s t) (hi : i ≠ .nop)
    (herr : t.err ≠ .noError) : t.err ∈ raisable i := by
  cases h with
  | retired hnop => exact absurd hnop hi
  | failed e he | spoiled e he => exact he
  | _ => exact absurd rfl herr

/-- Settles O6: error entry is the only ending with an error, and it is at the state the command started in. -/
theorem failedCommandRollsBack : Obligations.FailedCommandRollsBack := by
  unfold Obligations.FailedCommandRollsBack
  intro i s t h hi herr
  cases exec_ending h with
  | retired hnop => exact absurd hnop hi
  | failed e =>
    exact ⟨rfl, rfl, s.raise_ws e, rfl, rfl, rfl, rfl, rfl, rfl, rfl, rfl, rfl, rfl, rfl, rfl, fun _ _ => rfl⟩
  | spoiled e =>
    exact ⟨rfl, rfl, s.raiseSpoiling_ws _ e, rfl, rfl, rfl, rfl, rfl, rfl, rfl, rfl, rfl, rfl, rfl, rfl,
      fun _ ha => State.obufByte_raiseSpoiling e ha⟩
  | _ => exact absurd rfl herr

/-- Settles O7: an error that a command leaves is in its row of `raisable`, which is R300's table read by command. -/
theorem errorsAreRaisedAsListed : Obligations.ErrorsAreRaisedAsListed := by
  unfold Obligations.ErrorsAreRaisedAsListed
  refine ⟨rfl, fun i s t h hi => ?_⟩
  have hraised {e : ErrCode} (he : t.err = e) (hne : e ≠ .noError) : e ∈ raisable i := by
    subst he
    exact (exec_ending h).err_mem_raisable hi hne
  refine ⟨fun he => ?_, fun he => ?_, fun he => ?_, fun he => ?_, fun he => ?_, fun he => ?_, fun he => ?_⟩
  all_goals
    have hrow := hraised he nofun
    revert hrow
    cases i with
    | rsLoad f | lzwEnc f | lzwDec f => cases f <;> decide
    | _ => decide

/-! ### The capacity checks -/

section
variable {s : State}

/-- A decode command told to write more than OBUF holds, or to read more than RBUF holds (40_bitstream.md R139,
60_exceptions.md R301). -/
theorem State.decodeCommand_of_long {body : Nat → Reader → Except ErrCode (List Byte × Reader)}
    (h : s.params.rbufCap < s.rlen.toNat ∨ s.params.obufCap < s.arg0.toNat) :
    s.decodeCommand body = .next (s.raiseSpoiling s.arg0.toNat .capacityExceeded) := by
  simp only [State.decodeCommand]
  split
  · rfl
  case isFalse hobuf => exact if_pos (h.resolve_right hobuf)

/-- `BWT_XFORM` on an input longer than IBUF or OBUF (45_bwt.md R266). -/
theorem exec_bwtXform_of_long (h : s.params.ibufCap < s.ilen.toNat ∨ s.params.obufCap < s.ilen.toNat) :
    exec .bwtXform s = .next (s.raiseSpoiling s.ilen.toNat .capacityExceeded) := by
  simp only [exec, execBwtXform]
  split
  · rfl
  case isFalse hibuf => exact if_pos (h.resolve_left hibuf)

/-- `BWT_DEC` with RLEN above RBUF_CAP leaves all of OBUF open (45_bwt.md R268; log 4). -/
theorem exec_bwtDec_of_long (h : s.params.rbufCap < s.rlen.toNat) :
    exec .bwtDec s = .next (s.raiseSpoiling s.params.obufCap .capacityExceeded) := if_pos h

end

/-- Settles O43: the capacity checks are the first thing in each family of commands. -/
theorem capacityIsCheckedFirst : Obligations.CapacityIsCheckedFirst := by
  unfold Obligations.CapacityIsCheckedFirst
  refine fun i s => ⟨fun hlong hi => ?encoder, fun hlong hi => ?xform, fun hlong hi => ?reader,
    fun hlong hi => ?decoder, fun hlong hi => ?bwtDec⟩
  case encoder =>
    simp only [List.mem_cons, List.not_mem_nil, or_false] at hi
    obtain rfl | rfl | rfl | rfl | rfl := hi
    · exact exec_encoder_of_long (.inl rfl) hlong
    · exact exec_encoder_of_long (.inr (.inl rfl)) hlong
    · exact exec_lzwEnc_of_long hlong
    · exact exec_lzwEnc_of_long hlong
    · exact exec_encoder_of_long (.inr (.inr rfl)) hlong
  case xform =>
    subst hi
    exact ⟨_, exec_bwtXform_of_long hlong, s.failedSpoiling_raiseSpoiling _ _⟩
  case reader =>
    rw [← State.raise_eq_failedWith]
    fin_cases hi <;> exact if_pos hlong
  case decoder =>
    refine ⟨_, ?_, s.failedSpoiling_raiseSpoiling _ _⟩
    fin_cases hi <;> exact State.decodeCommand_of_long hlong
  case bwtDec =>
    subst hi
    exact ⟨_, exec_bwtDec_of_long hlong, s.failedSpoiling_raiseSpoiling _ _⟩

end Sys2Proof.Machine
end

section
/-!
The errors of LZW_ENC (44_lzw.md R234 to R239, 60_exceptions.md R304, R309): what settles O34. Without escape, the
bytes of the alphabet go through but for room, any other byte is UNKNOWN_SYMBOL once the match before it is emitted;
and what the encoder answers depends on the room only in whether it runs out of it.
-/

namespace Sys2Proof.Machine

/-! ### The encoder without escape -/

/-- The encoder without escape over the alphabet `A`: every symbol of `A` has a node below the root, no edge has any
other symbol, and no match is an escaped one (44_lzw.md R232, R235). -/
structure LzwEnc.Plain (A : List Byte) (e : LzwEnc) : Prop where
  syms : ∀ x ∈ e.edges, x.sym ∈ A
  seeds : ∀ c ∈ A, e.child none c ≠ none
  cur : ∀ c, e.cur ≠ .virt c

theorem lzwSeed_plain (A : List Byte) (ws : List Bool) : (lzwSeed false A ws).Plain A where
  syms x hx := by
    obtain ⟨⟨c, j⟩, hc, rfl⟩ := List.mem_map.1 hx
    exact List.mem_of_getElem? (List.mem_zipIdx_iff_getElem?.1 hc)
  seeds c hc := lzwSeed_child_ne_none hc false ws
  cur _ := nofun

section
variable {A : List Byte} {e : LzwEnc} (h : e.Plain A) {c : Byte}
include h

/-- The write stream and a match by a node do not matter. -/
theorem LzwEnc.Plain.matched (ws : List Bool) (t : Nat) : { e with ws := ws, cur := .node t }.Plain A :=
  ⟨h.syms, h.seeds, fun _ => nofun⟩

theorem LzwEnc.Plain.child_eq_none (hc : c ∉ A) (p : Option Nat) : e.child p c = none :=
  Option.eq_none_iff_forall_ne_some.2 fun _ hu => hc (h.syms _ (LzwEnc.mem_edges_of_child hu))

/-- The entry of a failed extension (44_lzw.md R236). -/
theorem LzwEnc.Plain.alloc (hc : c ∈ A) (t : Nat) : (e.alloc (some t) c).Plain A where
  syms := List.forall_mem_cons.2 ⟨hc, h.syms⟩
  seeds b hb := by simpa using h.seeds b hb
  cur := h.cur

theorem LzwEnc.Plain.begin_eq (hc : c ∈ A) (esc : Bool) :
    ∃ t, e.begin esc c = .ok { e with cur := .node t } := by
  obtain ⟨t, ht⟩ := Option.ne_none_iff_exists'.1 (h.seeds c hc)
  exact ⟨t, by rw [LzwEnc.begin, ht]⟩

theorem LzwEnc.Plain.ends_emit {t : Nat} (hcur : e.cur = .node t) (cap : Nat) :
    Ends [.capacityExceeded] (fun y => y.1.Plain A ∧ y.2 = some t) (e.emit cap) := by
  rw [LzwEnc.emit, hcur]
  exact (ends_wsPutInt (by decide) ..).bind fun ws _ => ⟨h.matched ws t, rfl⟩

/-- A byte of the alphabet fails only for want of room. -/
theorem LzwEnc.Plain.ends_byte (hc : c ∈ A) (cap : Nat) :
    Ends [.capacityExceeded] (LzwEnc.Plain A) (e.byte false cap c) := by
  have hbegin {e : LzwEnc} (h : e.Plain A) : Ends [.capacityExceeded] (LzwEnc.Plain A) (e.begin false c) := by
    obtain ⟨t, ht⟩ := h.begin_eq hc false
    rw [ht]
    exact h.matched e.ws t
  cases hcur : e.cur with
  | virt b => exact absurd hcur (h.cur b)
  | start =>
    rw [LzwEnc.byte, hcur]
    exact hbegin h
  | node t =>
    rw [LzwEnc.byte, hcur]
    dsimp only
    split
    case h_1 u _ => exact h.matched e.ws u
    case h_2 =>
      refine (h.ends_emit hcur cap).bind fun y ⟨hy, hnode⟩ => ?_
      rw [hnode]
      exact hbegin (hy.alloc hc t)

theorem LzwEnc.Plain.ends_bytes {data : List Byte} (hdata : ∀ c ∈ data, c ∈ A) (cap : Nat) :
    Ends [.capacityExceeded] (LzwEnc.Plain A) (e.bytes false cap data) := by
  induction data generalizing e with
  | nil => exact h
  | cons c data ih =>
    obtain ⟨hc, hdata⟩ := List.forall_mem_cons.1 hdata
    exact (h.ends_byte hc cap).bind fun e₁ h₁ => ih h₁ hdata

/-- A byte outside the alphabet ends the match before it, and then raises UNKNOWN_SYMBOL (60_exceptions.md R309). -/
theorem LzwEnc.Plain.byte_of_not_mem (hc : c ∉ A) (cap : Nat) :
    e.byte false cap c = (e.emit cap >>= fun _ => .error .unknownSymbol) := by
  cases hcur : e.cur with
  | virt b => exact absurd hcur (h.cur b)
  | start =>
    rw [LzwEnc.byte, hcur, LzwEnc.emit, hcur]
    dsimp only
    rw [LzwEnc.begin, h.child_eq_none hc]
    rfl
  | node t =>
    have hext : e.extension false c = none := by
      rw [LzwEnc.extension, hcur]
      dsimp only
      rw [h.child_eq_none hc]
    have hbegin (ws : List Bool) :
        ({ e with ws := ws }.alloc (some t) c).begin false c = .error .unknownSymbol := by
      have hnone : ({ e with ws := ws }.alloc (some t) c).child none c = none := by
        rw [LzwEnc.alloc_child, if_neg (by simp)]
        exact h.child_eq_none hc none
      rw [LzwEnc.begin, hnone]
      rfl
    rw [LzwEnc.byte, hcur, LzwEnc.emit, hcur]
    dsimp only
    rw [hext]
    cases hput : wsPutInt cap e.ws t (bitsFor e.nextId) with
    | error err => rfl
    | ok ws => exact hbegin ws

end

/-- Over bytes of the alphabet the encoder fails only for want of room (60_exceptions.md R304). -/
theorem ends_lzwEncode_of_mem {A data : List Byte} (hdata : ∀ c ∈ data, c ∈ A) (cap : Nat) (ws : List Bool) :
    Ends [.capacityExceeded] (fun _ => True) (lzwEncode false A cap ws data) :=
  ((lzwSeed_plain A ws).ends_bytes hdata cap).bind fun e _ =>
    (ends_emit (by decide) cap e).bind fun _ _ => trivial

/-! ### The error the encoder meets first -/

section
variable {esc : Bool} {A pre : List Byte} {cap : Nat} {ws : List Bool} {e : LzwEnc}

theorem LzwEnc.bytes_append (e : LzwEnc) (pre post : List Byte) :
    e.bytes esc cap (pre ++ post) = (e.bytes esc cap pre >>= fun e => e.bytes esc cap post) := by
  induction pre generalizing e with
  | nil => rfl
  | cons c pre ih =>
    rw [List.cons_append, LzwEnc.bytes, LzwEnc.bytes]
    cases e.byte esc cap c with
    | error err => rfl
    | ok e₁ => exact ih e₁

/-- The first byte that fails decides what the encoder answers. -/
theorem lzwEncode_of_byte_error {c : Byte} {err : ErrCode} (hpre : (lzwSeed esc A ws).bytes esc cap pre = .ok e)
    (hbyte : e.byte esc cap c = .error err) (post : List Byte) :
    lzwEncode esc A cap ws (pre ++ c :: post) = .error err := by
  rw [lzwEncode, LzwEnc.bytes_append, hpre]
  simp only [bind, Except.bind, LzwEnc.bytes, hbyte]

/-- With room for all that the bytes before it write, the first byte outside the alphabet is UNKNOWN_SYMBOL. -/
theorem lzwEncode_of_first_not_mem {c : Byte} (hpre : ∀ b ∈ pre, b ∈ A) (hc : c ∉ A) {bits : List Bool}
    (henc : lzwEncode false A cap ws pre = .ok bits) (post : List Byte) :
    lzwEncode false A cap ws (pre ++ c :: post) = .error .unknownSymbol := by
  obtain ⟨e, he, hemit⟩ := except_bind_ok.1 henc
  obtain ⟨y, hy, -⟩ := except_bind_ok.1 hemit
  have hplain := (lzwSeed_plain A ws).ends_bytes hpre cap
  rw [he] at hplain
  refine lzwEncode_of_byte_error he ?_ post
  rw [LzwEnc.Plain.byte_of_not_mem hplain hc, hy]
  rfl

end

theorem exists_first_not_mem {A data : List Byte} (h : ∃ c ∈ data, c ∉ A) :
    ∃ pre c post, data = pre ++ c :: post ∧ (∀ b ∈ pre, b ∈ A) ∧ c ∉ A := by
  have hfound : (data.find? fun c => decide (c ∉ A)).isSome := List.find?_isSome.2 (by simpa using h)
  obtain ⟨c, hc⟩ := Option.isSome_iff_exists.1 hfound
  obtain ⟨hcA, pre, post, hdata, hpre⟩ := List.find?_eq_some_iff_append.1 hc
  exact ⟨pre, c, post, hdata, by simpa using hpre, by simpa using hcA⟩

/-! ### The same run with other room -/

/-- Where `x` succeeds, `y` answers the same or runs out of room. -/
def AgreesButRoom {α : Type} (x y : Except ErrCode α) : Prop :=
  ∀ a, x = .ok a → Ends [.capacityExceeded] (· = a) y

theorem AgreesButRoom.refl {α : Type} (x : Except ErrCode α) : AgreesButRoom x x := by
  rintro a rfl
  exact rfl

theorem AgreesButRoom.bind {α β : Type} {x y : Except ErrCode α} {f g : α → Except ErrCode β}
    (h : AgreesButRoom x y) (hf : ∀ a, AgreesButRoom (f a) (g a)) : AgreesButRoom (x >>= f) (y >>= g) := by
  intro b hb
  obtain ⟨a, hx, hfa⟩ := except_bind_ok.1 hb
  refine (h a hx).bind ?_
  rintro _ rfl
  exact hf _ b hfa

section
variable (cap cap' : Nat)

theorem wsPutInt_agrees (ws : List Bool) (v n : Nat) :
    AgreesButRoom (wsPutInt cap ws v n) (wsPutInt cap' ws v n) := by
  intro ws' h
  rw [wsPutInt_eq, wsPutAll_ok] at h
  rw [wsPutInt_eq, wsPutAll]
  split
  · exact h.2.symm
  · exact List.mem_singleton_self _

theorem LzwEnc.emit_agrees (e : LzwEnc) : AgreesButRoom (e.emit cap) (e.emit cap') := by
  unfold LzwEnc.emit
  split
  · exact .refl _
  · exact (wsPutInt_agrees cap cap' _ _ _).bind fun _ => .refl _
  · exact (wsPutInt_agrees cap cap' _ _ _).bind fun _ =>
      (wsPutInt_agrees cap cap' _ _ _).bind fun _ => .refl _

theorem LzwEnc.byte_agrees (esc : Bool) (e : LzwEnc) (c : Byte) :
    AgreesButRoom (e.byte esc cap c) (e.byte esc cap' c) := by
  unfold LzwEnc.byte
  split
  · exact .refl _
  all_goals
    split
    · exact .refl _
    · exact (e.emit_agrees cap cap').bind fun _ => .refl _

theorem LzwEnc.bytes_agrees (esc : Bool) (e : LzwEnc) (data : List Byte) :
    AgreesButRoom (e.bytes esc cap data) (e.bytes esc cap' data) := by
  induction data generalizing e with
  | nil => exact .refl _
  | cons c data ih => exact (e.byte_agrees cap cap' esc c).bind ih

theorem lzwEncode_agrees (esc : Bool) (alphabet : List Byte) (ws : List Bool) (data : List Byte) :
    AgreesButRoom (lzwEncode esc alphabet cap ws data) (lzwEncode esc alphabet cap' ws data) :=
  (LzwEnc.bytes_agrees cap cap' esc _ data).bind fun e =>
    (e.emit_agrees cap cap').bind fun _ => .refl _

end

/-- What the encoder would write with other room does not fit (44_lzw.md R239). -/
theorem lzwEncode_of_full {esc : Bool} {alphabet data : List Byte} {cap cap' : Nat} {ws bits : List Bool}
    (henc : lzwEncode esc alphabet cap ws data = .ok (ws ++ bits)) (hws : ws.length ≤ cap')
    (hfull : cap' < ws.length + bits.length) : lzwEncode esc alphabet cap' ws data = .error .capacityExceeded := by
  have hagrees := lzwEncode_agrees cap cap' esc alphabet ws data _ henc
  have hgrows := ends_lzwEncode (E := [.capacityExceeded, .unknownSymbol]) (by decide) cap' (esc := esc)
    (fun _ => by decide) alphabet ws data
  cases hrun : lzwEncode esc alphabet cap' ws data with
  | error err =>
    rw [hrun] at hagrees
    exact congrArg _ (List.mem_singleton.1 hagrees)
  | ok ws' =>
    rw [hrun] at hagrees hgrows
    have hws' : ws' = ws ++ bits := hagrees
    have hle := hgrows.2 hws
    rw [hws', List.length_append] at hle
    omega

/-! ### LZW_ENC -/

theorem exec_lzwEnc_of_error {esc : Bool} {s : State} {err : ErrCode} (hcap : s.ilen.toNat ≤ s.params.ibufCap)
    (h : lzwEncode esc s.alphabet s.params.wsCap s.ws s.inputBytes = .error err) :
    exec (.lzwEnc esc) s = .next (s.failedWith err) := by
  rw [exec_lzwEnc hcap, h, State.finishWrite_error]

/-- `LZW_ENC` without escape over bytes of the alphabet does not raise UNKNOWN_SYMBOL. -/
theorem exec_lzwEnc_ne_unknownSymbol {s t : State} (hall : ∀ c ∈ s.inputBytes, c ∈ s.alphabet)
    (h : exec (.lzwEnc false) s = .next t) : t.err ≠ .unknownSymbol := by
  by_cases hcap : s.ilen.toNat ≤ s.params.ibufCap
  · have hends := ends_lzwEncode_of_mem hall s.params.wsCap s.ws
    rw [exec_lzwEnc hcap] at h
    obtain ⟨err, herr, rfl⟩ | ⟨ws, -, rfl⟩ := State.finishWrite_cases h
    · rw [herr] at hends
      obtain rfl := List.mem_singleton.1 hends
      nofun
    · nofun
  · cases (exec_lzwEnc_of_long (Nat.lt_of_not_le hcap)).symm.trans h
    nofun

/-- Two bytes, the second outside the alphabet: the first one's code is written before (44_lzw.md R234 to R236). -/
theorem lzwEncode_pair {A : List Byte} {a b : Byte} (ha : a ∈ A) (hb : b ∉ A) (cap : Nat) (ws : List Bool) :
    lzwEncode false A cap ws [a, b] =
      .error (if ws.length + bitsFor A.length ≤ cap then .unknownSymbol else .capacityExceeded) := by
  have hseed := lzwSeed_plain A ws
  obtain ⟨t, ht⟩ := hseed.begin_eq ha false
  have hfirst : (lzwSeed false A ws).bytes false cap [a] = .ok { lzwSeed false A ws with cur := .node t } :=
    except_bind_ok.2 ⟨_, ht, rfl⟩
  have hid : (lzwSeed false A ws).nextId = A.length := Nat.zero_add _
  refine lzwEncode_of_byte_error (pre := [a]) hfirst ?_ []
  refine ((hseed.matched ws t).byte_of_not_mem hb cap).trans ?_
  simp only [LzwEnc.emit, wsPutInt, hid]
  split
  · rfl
  · rfl

/-- Settles O34: an input over the alphabet raises no UNKNOWN_SYMBOL; another one raises it at its first byte outside
the alphabet, if the bytes before fit; and less room changes what the encoder answers to CAPACITY_EXCEEDED only. -/
theorem unknownSymbolExactly : Obligations.UnknownSymbolExactly := by
  unfold Obligations.UnknownSymbolExactly
  refine ⟨fun i s t h hi herr => ?only, fun s hlegal hcap hbad hroom => ?room, fun s hlen hcap hbad => ?first,
    fun s hlen hcap ha hb => ?second, fun esc s cap bits hcap hws henc hfull =>
      exec_lzwEnc_of_error hcap (lzwEncode_of_full henc hws hfull)⟩
  case only =>
    obtain ⟨-, hlisted⟩ := errorsAreRaisedAsListed
    obtain ⟨-, -, hunknown, -⟩ := hlisted i s t h hi
    obtain rfl := hunknown herr
    refine ⟨rfl, ?_⟩
    by_contra! hall
    refine exec_lzwEnc_ne_unknownSymbol (fun c hc => ?_) h herr
    obtain ⟨k, hk, rfl⟩ := State.mem_inputBytes.1 hc
    exact hall k hk
  case room =>
    obtain ⟨⟨-, hibuf⟩, -⟩ := hlegal
    obtain ⟨k, hk, hbad⟩ := hbad
    obtain ⟨pre, c, post, hdata, hpre, hc⟩ := exists_first_not_mem ⟨_, State.mem_inputBytes.2 ⟨k, hk, rfl⟩, hbad⟩
    have hlen : s.ilen.toNat = pre.length + (post.length + 1) := by
      rw [← s.inputBytes_length, hdata, List.length_append, List.length_cons]
    obtain ⟨bits, -, henc⟩ := exists_lzwEncode (esc := false) (cap := s.params.wsCap) (ws := s.ws) (.inr hpre)
      s.alphabet_length_le (by omega) (by omega)
    exact exec_lzwEnc_of_error hcap (hdata ▸ lzwEncode_of_first_not_mem hpre hc henc post)
  case first =>
    obtain ⟨post, hdata⟩ : ∃ post, s.inputBytes = s.ibufByte 0 :: post := by
      obtain ⟨n, hn⟩ := Nat.exists_eq_add_of_le' hlen
      exact ⟨_, by rw [State.inputBytes, hn, List.range_succ_eq_map, List.map_cons]⟩
    refine exec_lzwEnc_of_error hcap ?_
    rw [hdata]
    exact lzwEncode_of_byte_error (pre := []) rfl ((lzwSeed_plain _ s.ws).byte_of_not_mem hbad _) post
  case second =>
    have hlen2 : s.ilen.toNat = 2 := congrArg BitVec.toNat hlen
    have hdata : s.inputBytes = [s.ibufByte 0, s.ibufByte 1] := by
      rw [State.inputBytes, hlen2]
      rfl
    have hrun := lzwEncode_pair ha hb s.params.wsCap s.ws
    rw [← hdata] at hrun
    have hexec := exec_lzwEnc_of_error (hlen2.trans_le hcap) hrun
    exact ⟨fun hfull => by rwa [if_neg hfull.not_ge] at hexec, fun hfits => by rwa [if_pos hfits] at hexec⟩

end Sys2Proof.Machine
end

section
/-! Reset, the BUSY contract and the host's writes: what settles O5, O48, O54, O55 and O56. -/

namespace Sys2Proof.Machine

/-! ### What a command leaves to the host -/

/-- The registers and IBUF that only the host writes, the parameters, the host's side and the count of resets. -/
theorem Ending.hostState {i : Instr} {s t : State} (h : Ending i s t) :
    t.cmd = s.cmd ∧ t.arg0 = s.arg0 ∧ t.arg1 = s.arg1 ∧ t.arg2 = s.arg2 ∧ t.ilen = s.ilen ∧
      t.alpha = s.alpha ∧ t.ibuf = s.ibuf ∧ t.params = s.params ∧ t.moves = s.moves ∧
      t.replies = s.replies ∧ t.resets = s.resets := by
  cases h <;> exact ⟨rfl, rfl, rfl, rfl, rfl, rfl, rfl, rfl, rfl, rfl, rfl⟩

/-- However a command ends, the engine is done with it (10_state.md R36). -/
theorem Ending.pending {i : Instr} {s t : State} (h : Ending i s t) : t.pending = none := by
  cases h <;> rfl

/-- Settles O5: every command answers one of its endings, and no ending touches the host's state. -/
theorem commandsCompleteAndKeepHostState : Obligations.CommandsCompleteAndKeepHostState := by
  unfold Obligations.CommandsCompleteAndKeepHostState
  intro i s
  obtain ⟨t, ht, hend⟩ := exec_completes i s
  exact ⟨t, ht, hend.pending, hend.hostState⟩

/-! ### The host's writes -/

/-- Settles O48: while nothing is pending, a step is the host's move. -/
theorem hostWritesWithSideEffects : Obligations.HostWritesWithSideEffects := by
  unfold Obligations.HostWritesWithSideEffects
  exact ⟨fun s v ms hp => ⟨fun k => step_of_idle hp, fun sp a b => step_of_idle hp, step_of_idle hp,
    step_of_idle hp⟩, fun s => ⟨rfl, Option.isSome_iff_ne_none⟩⟩

/-! ### The BUSY contract -/

/-- STATUS is at word 6 and nowhere else (10_state.md R31). -/
theorem Reg.atWord_eq_status_iff : ∀ k : Fin 64, Reg.atWord k = .status ↔ k = 6 := by decide

/-- Settles O54: of the moves that are not the engine's turn, only reset and a read of word 6 are not refused. -/
theorem busyContractIsEnforced : Obligations.BusyContractIsEnforced := by
  unfold Obligations.BusyContractIsEnforced
  intro s m ms hp hm hwait hreset hstatus
  rw [step_of_busy hp hm hwait]
  cases m with
  | readReg k => exact if_neg fun hk => hstatus (congrArg Move.readReg ((Reg.atWord_eq_status_iff k).1 hk))
  | reset => exact absurd rfl hreset
  | _ => rfl

/-! ### Reset -/

/-- Reset is a move at any time, with a command pending or not (70_reset_and_hazards.md R340). -/
theorem step_of_reset {s : State} {ms : List Move} (hm : s.moves = .reset :: ms) :
    step s = .next { s with moves := ms }.assertReset := by
  by_cases hp : s.pending = none
  · exact step_of_idle hp hm
  · exact step_of_busy hp hm nofun

/-- BUSY, STICKY and ERR are 0 after reset, so STATUS is (10_state.md R35). -/
theorem State.statusWord_assertReset (s : State) : s.assertReset.statusWord = 0 := by
  simp only [State.statusWord, State.busy, State.assertReset_err, State.assertReset_sticky,
    State.assertReset_pending]
  rfl

/-- Settles O55: the state that `State.assertReset` answers, with its ALPHA registers and STATUS read off. -/
theorem resetLeavesTheResetValues : Obligations.ResetLeavesTheResetValues := by
  unfold Obligations.ResetLeavesTheResetValues
  exact fun s ms hm => ⟨_, step_of_reset hm, rfl, fun j => Vector.getElem_replicate j.isLt,
    State.statusWord_assertReset _⟩

theorem State.inv_powerOn {p : Params} (h : p.legal) : (State.powerOn p).Inv :=
  ⟨⟨h, Nat.zero_le _, Nat.zero_le _, Nat.zero_le _⟩, ⟨.nil, nofun⟩, ⟨.nil, nofun⟩, .nil, nofun⟩

/-- Settles O56: the reset state is power-on with the default parameters, which are legal. -/
theorem resetMeetsTheInvariant : Obligations.ResetMeetsTheInvariant := by
  unfold Obligations.ResetMeetsTheInvariant
  exact ⟨State.inv_powerOn (p := Config.defaultParams) (by decide), fun _ => State.inv_powerOn⟩

end Sys2Proof.Machine
end
